-- ==== Sys2Proof/Word.lean ====
section
/-! DEFINITION. The words HUFCORE moves (00_scope R6), the names of its channels and registers, and
the two plain ways to build a fixed-length array. -/

namespace Sys2Proof

/-- A register word on the host bus, `W_REG` = 32 bits (R6, R65). -/
abbrev Word := BitVec 32

/-- A data byte (R85). -/
abbrev Byte := BitVec 8

/-- A channel item, `W_ITEM` = 9 bits: bit 8 is `END`, bits 7:0 are `DATA` (R85). -/
abbrev Item := BitVec 9

/-- An offset inside the 4096-byte register block (R60). -/
abbrev Offset := BitVec 12

/-- A bit string, first bit first (R8): `false` is 0, `true` is 1. -/
abbrev Bits := List Bool

/-- The four channels of R86. -/
inductive Channel where
  /-- host to encoder -/
  | sin
  /-- encoder to host -/
  | bout
  /-- host to decoder -/
  | bin
  /-- decoder to host -/
  | sout
deriving DecidableEq, Repr, Inhabited

/-- The registers of the map R62, by name. -/
inductive Reg where
  | id | ctrl | cmd | status | errCode | errInfo | root | nleaf
  | freqIdx | freqData | nodeIdx | nodeInfo | nodeCntLo | nodeCntHi
  | codeIdx | codeInfo
  | codeBits (k : Fin 8)
  | encBitCntLo | encBitCntHi | encSymCntLo | encSymCntHi
  | decBitCntLo | decBitCntHi | decSymCntLo | decSymCntHi
  | decCur
deriving DecidableEq, Repr, Inhabited

/-- The array whose entry `i` is `f i`. -/
def tabulate {α : Type} (n : Nat) (f : Nat → α) : Vector α n :=
  ⟨((List.range n).map f).toArray, by simp⟩

/-- The array with `f` applied to every entry. -/
def mapEntries {α : Type} {n : Nat} (f : α → α) (v : Vector α n) : Vector α n :=
  ⟨(v.toList.map f).toArray, by simp⟩

end Sys2Proof
end

