-- ==== Sys2Proof/Config.lean ====
section
/-! DEFINITION. The entries of the node RAM and of the code ROM, the implementation parameter
`CH_DEPTH`, and the free values: constants with no body, of which no proof can know a value. -/

namespace Sys2Proof

/-- One entry of the node RAM (R32). -/
structure Node where
  /-- the entry is a node of the current tree -/
  valid : Bool
  /-- false: leaf; true: internal node -/
  internal : Bool
  /-- a leaf's symbol 0..256; the marker 257 for an internal node -/
  sym : BitVec 9
  /-- the node's count -/
  cnt : BitVec 41
  /-- an internal node's `zero` child; 0 in a leaf -/
  zero : BitVec 10
  /-- an internal node's `one` child; 0 in a leaf -/
  one : BitVec 10
deriving DecidableEq, Repr, Inhabited

/-- One entry of the code ROM (R34). `bits` holds code bit `c_j` at bit `j`. -/
structure CodeEntry where
  valid : Bool
  len : BitVec 9
  bits : BitVec 256
deriving DecidableEq, Repr, Inhabited

/-- The node RAM: leaf slots 0..256, internal slots 257..512 (R32). -/
abbrev NodeRam := Vector Node 513

/-- The code ROM, one entry per symbol (R34). -/
abbrev CodeRom := Vector CodeEntry 257

/-- The frequency RAM, one 32-bit count per symbol (R30). -/
abbrev FreqRam := Vector Word 257

/-- `CH_DEPTH` (R6, R298): how many items one channel can hold, "an integer >= 1 or unbounded".
`.items n` is the depth `n + 1`, so that no depth is 0. -/
inductive ChDepth where
  | unbounded
  | items (n : Nat)
deriving DecidableEq, Repr, Inhabited

namespace Config

/-- DESIGN CHOICE (log 3). FREE VALUE: what frequency entry `s` holds after the reset numbered
`draw` (R30, R281, U2: "each of the 257 entries is a free 32-bit draw"). -/
opaque freqDraw (draw s : Nat) : Word

/-- DESIGN CHOICE (log 3). FREE VALUE: what node entry `i` holds after the reset numbered `draw`
(R32, R281, U3). -/
opaque nodeDraw (draw i : Nat) : Node

/-- DESIGN CHOICE (log 3). FREE VALUE: what code entry `s` holds after the reset numbered `draw`
(R34, R281, U3). -/
opaque codeDraw (draw s : Nat) : CodeEntry

/-- DESIGN CHOICE (log 4). FREE VALUE: whether an `ABORT` of `FREQ_CLR` (the draw numbered `draw`)
finds entry `s` already cleared (R105, U5). -/
opaque abortCleared (draw s : Nat) : Bool

end Config
end Sys2Proof
end

