-- ==== Sys2Proof/Syntax.lean ====
section
/-! DEFINITION. The instructions of HUFCORE: one constructor per row of spec/opcode_table.json. -/

namespace Sys2Proof

/-- A row of the opcode table: a command word (R81), a channel item (R85, R86) or a register access
(R109 to R111). -/
inductive Instr where
  /-- `NOP` (R101) -/
  | nop
  /-- `FREQ_CLR` (R102) -/
  | freqClr
  /-- `BUILD` (R131) -/
  | build
  /-- `GENMAP` (R151) -/
  | genmap
  /-- `ENC_START` (R171) -/
  | encStart
  /-- `DEC_START` (R201) -/
  | decStart
  /-- `TREE_FREE` (R104) -/
  | treeFree
  /-- `ABORT` (R105) -/
  | abort
  /-- `CLR_ERR` (R106) -/
  | clrErr
  /-- `SIN BYTE(v)`: the encoder takes a data byte (R172) -/
  | sinByte (v : Byte)
  /-- `SIN END`: the encoder takes the end of input (R173) -/
  | sinEnd
  /-- `BIN BYTE(v)`: the decoder takes a byte of bits (R204) -/
  | binByte (v : Byte)
  /-- `BIN END`: the bit source is exhausted (R204) -/
  | binEnd
  /-- `BOUT BYTE(v)`: the encoder puts a packed byte (R174, R175) -/
  | boutByte (v : Byte)
  /-- `BOUT END`: the encoder closes the stream (R176) -/
  | boutEnd
  /-- `SOUT BYTE(v)`: the decoder emits a symbol (R203) -/
  | soutByte (v : Byte)
  /-- `SOUT END`: the decoder is at the end-of-stream leaf (R206) -/
  | soutEnd
  /-- `WR FREQ_DATA, v` (R110) -/
  | wrFreqData (v : Word)
  /-- `WR CTRL, v` (R109) -/
  | wrCtrl (v : Word)
  /-- `WR FREQ_IDX, v` (R109) -/
  | wrFreqIdx (v : Word)
  /-- `WR NODE_IDX, v` (R109) -/
  | wrNodeIdx (v : Word)
  /-- `WR CODE_IDX, v` (R109) -/
  | wrCodeIdx (v : Word)
  /-- `RD window`: a read of a window data register (R111) -/
  | rdWindow (r : Reg)
deriving DecidableEq, Repr

end Sys2Proof
end

