-- ==== Sys2Proof/WellFormed.lean ====
section
/-! DEFINITION. Which terms of `Instr` are instructions: the operand of `rdWindow` must be one of the
window data registers of R111; every other operand is any value of its type. -/

namespace Sys2Proof

/-- The window data registers that the row `RD window` reads (R111). -/
def Reg.isWindow : Reg → Bool
  | .freqData => true
  | .nodeInfo => true
  | .nodeCntLo => true
  | .nodeCntHi => true
  | .codeInfo => true
  | .codeBits _ => true
  | .id => false
  | .ctrl => false
  | .cmd => false
  | .status => false
  | .errCode => false
  | .errInfo => false
  | .root => false
  | .nleaf => false
  | .freqIdx => false
  | .nodeIdx => false
  | .codeIdx => false
  | .encBitCntLo => false
  | .encBitCntHi => false
  | .encSymCntLo => false
  | .encSymCntHi => false
  | .decBitCntLo => false
  | .decBitCntHi => false
  | .decSymCntLo => false
  | .decSymCntHi => false
  | .decCur => false

/-- An instruction the opcode table can encode. -/
def WellFormed : Instr → Bool
  | .nop => true
  | .freqClr => true
  | .build => true
  | .genmap => true
  | .encStart => true
  | .decStart => true
  | .treeFree => true
  | .abort => true
  | .clrErr => true
  | .sinByte _ => true
  | .sinEnd => true
  | .binByte _ => true
  | .binEnd => true
  | .boutByte _ => true
  | .boutEnd => true
  | .soutByte _ => true
  | .soutEnd => true
  | .wrFreqData _ => true
  | .wrCtrl _ => true
  | .wrFreqIdx _ => true
  | .wrNodeIdx _ => true
  | .wrCodeIdx _ => true
  | .rdWindow r => r.isWindow

end Sys2Proof
end

