-- ==== Sys2Proof/Decode.lean ====
section
/-! DEFINITION. The register map (R62), the decoder of command words (R80 to R82), of channel items
(R85, R86) and of register accesses (R62, R63), and after it the encoder written from the same
tables. Decoding is total: what is no instruction is rejected by name. -/

namespace Sys2Proof

/-- What reaches the decoder: a 32-bit aligned bus access at an offset, or an item on a channel. -/
inductive Signal where
  | busWrite (off : Offset) (v : Word)
  | busRead (off : Offset)
  | item (ch : Channel) (it : Item)
deriving DecidableEq, Repr

/-- Why a signal is no instruction of the opcode table. -/
inductive Reject where
  /-- a command word outside the opcode map (R82) -/
  | illegalCommand (w : Word)
  /-- a write to a read-only register (R63) -/
  | readOnly (r : Reg)
  /-- a read of a register that is no window data register (R111, last sentence) -/
  | plainRead (r : Reg)
  /-- an access at a reserved offset (R63) -/
  | reservedOffset (off : Offset)
  /-- a byte string that is not as long as its format (R83, R85) -/
  | wrongLength (n : Nat)
deriving DecidableEq, Repr

/-- The offset of a register (R62). -/
def Reg.offset : Reg → Offset
  | .id => 0x000#12
  | .ctrl => 0x004#12
  | .cmd => 0x008#12
  | .status => 0x00C#12
  | .errCode => 0x010#12
  | .errInfo => 0x014#12
  | .root => 0x018#12
  | .nleaf => 0x01C#12
  | .freqIdx => 0x020#12
  | .freqData => 0x024#12
  | .nodeIdx => 0x028#12
  | .nodeInfo => 0x02C#12
  | .nodeCntLo => 0x030#12
  | .nodeCntHi => 0x034#12
  | .codeIdx => 0x038#12
  | .codeInfo => 0x03C#12
  | .codeBits k => 0x040#12 + BitVec.ofNat 12 (4 * k.val)
  | .encBitCntLo => 0x060#12
  | .encBitCntHi => 0x064#12
  | .encSymCntLo => 0x068#12
  | .encSymCntHi => 0x06C#12
  | .decBitCntLo => 0x070#12
  | .decBitCntHi => 0x074#12
  | .decSymCntLo => 0x078#12
  | .decSymCntHi => 0x07C#12
  | .decCur => 0x080#12

/-- The register at an offset (R62); `none` at a reserved offset (R63). -/
def Reg.ofOffset (off : Offset) : Option Reg :=
  match off.toNat with
  | 0x000 => some .id
  | 0x004 => some .ctrl
  | 0x008 => some .cmd
  | 0x00C => some .status
  | 0x010 => some .errCode
  | 0x014 => some .errInfo
  | 0x018 => some .root
  | 0x01C => some .nleaf
  | 0x020 => some .freqIdx
  | 0x024 => some .freqData
  | 0x028 => some .nodeIdx
  | 0x02C => some .nodeInfo
  | 0x030 => some .nodeCntLo
  | 0x034 => some .nodeCntHi
  | 0x038 => some .codeIdx
  | 0x03C => some .codeInfo
  | 0x040 => some (.codeBits 0)
  | 0x044 => some (.codeBits 1)
  | 0x048 => some (.codeBits 2)
  | 0x04C => some (.codeBits 3)
  | 0x050 => some (.codeBits 4)
  | 0x054 => some (.codeBits 5)
  | 0x058 => some (.codeBits 6)
  | 0x05C => some (.codeBits 7)
  | 0x060 => some .encBitCntLo
  | 0x064 => some .encBitCntHi
  | 0x068 => some .encSymCntLo
  | 0x06C => some .encSymCntHi
  | 0x070 => some .decBitCntLo
  | 0x074 => some .decBitCntHi
  | 0x078 => some .decSymCntLo
  | 0x07C => some .decSymCntHi
  | 0x080 => some .decCur
  | _ => none

/-- The command a word selects: `w[31:8]` = 0 and `w[7:0]` an opcode of the map (R80, R81); every
other word is illegal (R82). -/
def decodeCommand (w : Word) : Except Reject Instr :=
  if w.extractLsb' 8 24 ≠ 0#24 then .error (.illegalCommand w)
  else
    match (w.extractLsb' 0 8).toNat with
    | 0x00 => .ok .nop
    | 0x01 => .ok .freqClr
    | 0x02 => .ok .build
    | 0x03 => .ok .genmap
    | 0x04 => .ok .encStart
    | 0x05 => .ok .decStart
    | 0x06 => .ok .treeFree
    | 0x07 => .ok .abort
    | 0x08 => .ok .clrErr
    | _ => .error (.illegalCommand w)

/-- Bit 8 of an item, its `END` flag (R85). -/
def itemEnd (it : Item) : Bool := it.getLsbD 8

/-- Bits 7:0 of an item, its `DATA` (R85). -/
def itemData (it : Item) : Byte := it.extractLsb' 0 8

/-- The item `BYTE(v)` = `{0, v}` (R85). -/
def byteItem (v : Byte) : Item := 0#1 ++ v

/-- The item `END` = `{1, 0x00}` (R85). -/
def endItem : Item := 0x100#9

/-- The step an item on a channel stands for (R86). An `END` item is `END` whatever its `DATA` holds
(R85). -/
def decodeItem (ch : Channel) (it : Item) : Instr :=
  match ch, itemEnd it with
  | .sin, false => .sinByte (itemData it)
  | .sin, true => .sinEnd
  | .bout, false => .boutByte (itemData it)
  | .bout, true => .boutEnd
  | .bin, false => .binByte (itemData it)
  | .bin, true => .binEnd
  | .sout, false => .soutByte (itemData it)
  | .sout, true => .soutEnd

/-- What a 32-bit aligned write of `v` at `off` asks for (R62). -/
def decodeWrite (off : Offset) (v : Word) : Except Reject Instr :=
  match Reg.ofOffset off with
  | some .ctrl => .ok (.wrCtrl v)
  | some .cmd => decodeCommand v
  | some .freqIdx => .ok (.wrFreqIdx v)
  | some .freqData => .ok (.wrFreqData v)
  | some .nodeIdx => .ok (.wrNodeIdx v)
  | some .codeIdx => .ok (.wrCodeIdx v)
  | some r => .error (.readOnly r)
  | none => .error (.reservedOffset off)

/-- What a 32-bit aligned read at `off` asks for (R62, R111). -/
def decodeRead (off : Offset) : Except Reject Instr :=
  match Reg.ofOffset off with
  | some r => if r.isWindow then .ok (.rdWindow r) else .error (.plainRead r)
  | none => .error (.reservedOffset off)

/-- The decoder, total on every signal. -/
def decode : Signal → Except Reject Instr
  | .busWrite off v => decodeWrite off v
  | .busRead off => decodeRead off
  | .item ch it => .ok (decodeItem ch it)

/-- The register word whose byte at `off + k` is the `k`-th byte given: little-endian (R64). -/
def wordOfBytes (b0 b1 b2 b3 : Byte) : Word := b3 ++ b2 ++ b1 ++ b0

/-- Byte `k` of a register word, at offset `off + k` on the bus (R64). -/
def byteOfWord (w : Word) (k : Nat) : Byte := w.extractLsb' (8 * k) 8

/-- The command whose four bytes stand on the bus in this order (R64, R83). -/
def decodeCommandBytes : List Byte → Except Reject Instr
  | [b0, b1, b2, b3] => decodeCommand (wordOfBytes b0 b1 b2 b3)
  | bs => .error (.wrongLength bs.length)

/-- The item whose nine bits stand in two bytes, the low eight in the first (the packing of the
opcode table's bit numbers; HUFCORE itself moves items whole, R65). -/
def decodeItemBytes (ch : Channel) : List Byte → Except Reject Instr
  | [b0, b1] =>
    if b1.extractLsb' 1 7 = 0#7 then .ok (decodeItem ch (b1.extractLsb' 0 1 ++ b0))
    else .error (.wrongLength 2)
  | bs => .error (.wrongLength bs.length)

/-- Byte `k` of a number. -/
def byteOfNat (w k : Nat) : Byte := BitVec.ofNat 8 (w >>> (8 * k))

/-- The instruction of the opcode table whose bits are `w`: a command word where the row has more
than 16 bits, else a channel item. DESIGN CHOICE (log 12): the table gives the same nine bits to an
item on each of the four channels, so the item is read as one on `SIN`. -/
def decodeTableWord (nbits w : Nat) : Option Instr :=
  if 2 ^ (8 * ((nbits + 7) / 8)) ≤ w then none
  else
    match
      (if nbits ≤ 16 then decodeItemBytes .sin [byteOfNat w 0, byteOfNat w 1]
       else decodeCommandBytes [byteOfNat w 0, byteOfNat w 1, byteOfNat w 2, byteOfNat w 3]) with
    | .ok i => some i
    | .error _ => none

/-- The opcode of a command (R81); `none` for an instruction that is no command word. -/
def opcode : Instr → Option Byte
  | .nop => some 0x00#8
  | .freqClr => some 0x01#8
  | .build => some 0x02#8
  | .genmap => some 0x03#8
  | .encStart => some 0x04#8
  | .decStart => some 0x05#8
  | .treeFree => some 0x06#8
  | .abort => some 0x07#8
  | .clrErr => some 0x08#8
  | .sinByte _ => none
  | .sinEnd => none
  | .binByte _ => none
  | .binEnd => none
  | .boutByte _ => none
  | .boutEnd => none
  | .soutByte _ => none
  | .soutEnd => none
  | .wrFreqData _ => none
  | .wrCtrl _ => none
  | .wrFreqIdx _ => none
  | .wrNodeIdx _ => none
  | .wrCodeIdx _ => none
  | .rdWindow _ => none

/-- The word written to `CMD` for an opcode: `MBZ` = 0 above `OP` (R80). -/
def commandWord (op : Byte) : Word := 0#24 ++ op

/-- The signal that carries an instruction. -/
def encode : Instr → Signal
  | .nop => .busWrite 0x008#12 (commandWord 0x00#8)
  | .freqClr => .busWrite 0x008#12 (commandWord 0x01#8)
  | .build => .busWrite 0x008#12 (commandWord 0x02#8)
  | .genmap => .busWrite 0x008#12 (commandWord 0x03#8)
  | .encStart => .busWrite 0x008#12 (commandWord 0x04#8)
  | .decStart => .busWrite 0x008#12 (commandWord 0x05#8)
  | .treeFree => .busWrite 0x008#12 (commandWord 0x06#8)
  | .abort => .busWrite 0x008#12 (commandWord 0x07#8)
  | .clrErr => .busWrite 0x008#12 (commandWord 0x08#8)
  | .sinByte v => .item .sin (byteItem v)
  | .sinEnd => .item .sin endItem
  | .binByte v => .item .bin (byteItem v)
  | .binEnd => .item .bin endItem
  | .boutByte v => .item .bout (byteItem v)
  | .boutEnd => .item .bout endItem
  | .soutByte v => .item .sout (byteItem v)
  | .soutEnd => .item .sout endItem
  | .wrFreqData v => .busWrite 0x024#12 v
  | .wrCtrl v => .busWrite 0x004#12 v
  | .wrFreqIdx v => .busWrite 0x020#12 v
  | .wrNodeIdx v => .busWrite 0x028#12 v
  | .wrCodeIdx v => .busWrite 0x038#12 v
  | .rdWindow r => .busRead r.offset

end Sys2Proof
end

