-- ==== Sys2Proof/Machine/State.lean ====
section
/-! DEFINITION. The state of HUFCORE (10_state), the host's pending moves, the reasons a step can
stop, and the state right after reset (R281). -/

namespace Sys2Proof.Machine

/-- `STATUS.ACTIVE` (R25): the operation running. The values 6 and 7 never occur. -/
inductive Active where
  | idle | freqClr | build | genmap | encode | decode
deriving DecidableEq, Repr, Inhabited

/-- The width of a bus access (R65); only 32-bit accesses are defined. -/
inductive Width where
  | w8 | w16 | w32 | w64
deriving DecidableEq, Repr, Inhabited

/-- A move of the host (R5, R61, R86, R92, R280), or a turn of the core. An agenda of these is the
order in which the two agents move (log 1). -/
inductive HostMove where
  /-- the core takes a turn -/
  | core
  /-- a bus read -/
  | read (off : Offset) (width : Width)
  /-- a bus write; the accesses that are not 32 bits wide have no effect, so one word is all the data kept -/
  | write (off : Offset) (width : Width) (v : Word)
  /-- the host places an item on `SIN` -/
  | placeSin (it : Item)
  /-- the host places an item on `BIN` -/
  | placeBin (it : Item)
  /-- the host takes the head item of `BOUT` -/
  | takeBout
  /-- the host takes the head item of `SOUT` -/
  | takeSout
  /-- `WAIT`: read `STATUS` until `BUSY` = 0 (R92) -/
  | wait
  /-- the host removes the head item of `SIN`, left over between encode sessions (R290, R235). DESIGN
  CHOICE (log 20): the spec names the duty and gives no mechanism -/
  | removeSin
  /-- the host removes the head item of `BIN`, left over between decode sessions (R290, R235). DESIGN
  CHOICE (log 20) -/
  | removeBin
  /-- the host places an item on `SIN`, and drains the output channels while there is no room (R294).
  DESIGN CHOICE (log 21) -/
  | feedSin (it : Item)
  /-- the host places an item on `BIN`, and drains the output channels while there is no room (R294).
  DESIGN CHOICE (log 21) -/
  | feedBin (it : Item)
  /-- `WAIT` while the host drains the output channels (R232, R233, R294): it ends when `BUSY` = 0 and
  both are empty. DESIGN CHOICE (log 21) -/
  | waitDrain
  /-- reset (R280), asserted and deasserted (DESIGN CHOICE, log 24), with the platform's choice for each
  channel: true empties it (R282, U23) -/
  | reset (emptySin emptyBout emptyBin emptySout : Bool)
deriving DecidableEq, Repr

/-- What the last host move gave back (R235, column "HUFCORE gives back"). -/
inductive Resp where
  /-- nothing yet -/
  | none
  /-- read data -/
  | data (v : Word)
  /-- a write was performed -/
  | written
  /-- a bus error response (R65): with the read data for a read, with none for a write -/
  | busError (data : Option Word)
  /-- the item taken from an output channel -/
  | item (it : Item)
deriving DecidableEq, Repr, Inhabited

/-- HUFCORE's state. `BUSY`, `ERR` and `irq` are computed (R25, R44); `ID` is a constant and `CMD`
holds no state (R22, R24). -/
structure State where
  /-- `CTRL[3:0]` (R23): `SINK_EN`, `BITORD`, `IE_DONE`, `IE_ERR` -/
  ctrl : BitVec 4
  /-- `STATUS.TREE_VALID` (R25) -/
  treeValid : Bool
  /-- `STATUS.MAP_VALID` (R25) -/
  mapValid : Bool
  /-- `STATUS.DONE` (R25, R107) -/
  done : Bool
  /-- `STATUS.EMULT` (R25, R252) -/
  emult : Bool
  /-- `STATUS.ACTIVE` (R25) -/
  active : Active
  /-- `ERRCODE` (R26) -/
  errCode : BitVec 8
  /-- `ERRINFO` (R27) -/
  errInfo : BitVec 16
  /-- `ROOT` (R28) -/
  root : BitVec 10
  /-- `NLEAF` (R29) -/
  nleaf : BitVec 9
  /-- `FREQ_IDX` (R31) -/
  freqIdx : BitVec 9
  /-- `FREQ[0..256]` (R30) -/
  freq : FreqRam
  /-- `NODE_IDX` (R33) -/
  nodeIdx : BitVec 10
  /-- `NODE[0..512]` (R32) -/
  node : NodeRam
  /-- `CODE_IDX` (R35) -/
  codeIdx : BitVec 9
  /-- `CODE[0..256]` (R34) -/
  code : CodeRom
  /-- `ENC_BITCNT` (R36) -/
  encBitCnt : BitVec 64
  /-- `ENC_SYMCNT` (R36) -/
  encSymCnt : BitVec 64
  /-- `DEC_BITCNT` (R37) -/
  decBitCnt : BitVec 64
  /-- `DEC_SYMCNT` (R37) -/
  decSymCnt : BitVec 64
  /-- `DEC_CUR` (R38) -/
  decCur : BitVec 10
  /-- `EBUF` (R41) -/
  ebuf : Bits
  /-- `EFIN` (R41) -/
  efin : Bool
  /-- `E_SINK` (R41) -/
  eSink : Bool
  /-- `E_ORD` (R41) -/
  eOrd : Bool
  /-- `DBUF` (R42) -/
  dbuf : Bits
  /-- `D_ORD` (R42) -/
  dOrd : Bool
  /-- channel `SIN`, head first (R43) -/
  sin : List Item
  /-- channel `BOUT`, head first (R43) -/
  bout : List Item
  /-- channel `BIN`, head first (R43) -/
  bin : List Item
  /-- channel `SOUT`, head first (R43) -/
  sout : List Item
  /-- the parameter `CH_DEPTH` (R298, log 5); no step changes it -/
  chDepth : ChDepth
  /-- the model's own: the moves still to come, the next one first (log 1) -/
  agenda : List HostMove
  /-- the model's own: what the last host move gave back (log 7) -/
  resp : Resp
  /-- the model's own: the items the host has taken from `BOUT` so far, in order (log 21) -/
  boutGot : List Item
  /-- the model's own: the items the host has taken from `SOUT` so far, in order (log 21) -/
  soutGot : List Item
  /-- the model's own: how many free draws were made so far (log 3, log 4) -/
  draws : Nat
deriving DecidableEq, Repr

/-- Why the machine stops. -/
inductive Fault where
  /-- Raised by the `GENMAP` completion and by a decode step when the node RAM holds no tree: an index
  past 512, a symbol past 257, or a path of more than 256 bits. The spec rules these states out
  (R45, R152, R202), so it gives them no effect. Safe: the model stops, and no run reaches it. -/
  | brokenTree
deriving DecidableEq, Repr

/-- Why an instruction has no meaning here. -/
inductive Refusal where
  /-- Kept for the form of exec's arms: an instruction not modelled yet. No arm raises it. Safe. -/
  | notModelled (mnemonic : String)
deriving DecidableEq, Repr

/-- The state after the reset numbered `draw` (R281). The three arrays hold free draws (U2, U3, log 3);
the channels are given, since reset does not define them (R282), and so is what is the host's. -/
def State.afterReset (draw : Nat) (sin bout bin sout : List Item) (depth : ChDepth)
    (agenda : List HostMove) (boutGot soutGot : List Item) : State where
  ctrl := 0x1#4
  treeValid := false
  mapValid := false
  done := false
  emult := false
  active := .idle
  errCode := 0
  errInfo := 0
  root := 0
  nleaf := 0
  freqIdx := 0
  freq := tabulate 257 (Config.freqDraw draw)
  nodeIdx := 0
  node := tabulate 513 (Config.nodeDraw draw)
  codeIdx := 0
  code := tabulate 257 (Config.codeDraw draw)
  encBitCnt := 0
  encSymCnt := 0
  decBitCnt := 0
  decSymCnt := 0
  decCur := 0
  ebuf := []
  efin := false
  eSink := true
  eOrd := false
  dbuf := []
  dOrd := false
  sin := sin
  bout := bout
  bin := bin
  sout := sout
  chDepth := depth
  agenda := agenda
  resp := .none
  boutGot := boutGot
  soutGot := soutGot
  draws := draw + 1

/-- The machine right after reset: R281, with empty channels (DESIGN CHOICE, log 6), unbounded
channels (DESIGN CHOICE, log 5), no host move pending (DESIGN CHOICE, log 1) and nothing taken by
the host yet (DESIGN CHOICE, log 21). -/
def State.reset : State := State.afterReset 0 [] [] [] [] .unbounded [] [] []

end Sys2Proof.Machine
end

