-- ==== Sys2Proof/Machine/Ops.lean ====
section
/-! DEFINITION. The shared operations over the state: reading and writing the three arrays, the error
record (`raise` R252, its return R258), ending an operation (`complete`, `abandon`, R9), the channels
(`take`, `put`, R9, R298), and packing and unpacking bits (R88, R89). -/

namespace Sys2Proof.Machine

/-! ### The arrays -/

/-- `FREQ[s]` (R30). -/
def freqAt (f : FreqRam) (s : Nat) : Word := (f[s]?).getD 0

/-- `FREQ[s] <- v`. -/
def setFreq (f : FreqRam) (s : Nat) (v : Word) : FreqRam := f.setIfInBounds s v

/-- Every entry 0 (R102). -/
def zeroFreq : FreqRam := tabulate 257 (fun _ => 0)

/-- A node entry that is no node. -/
def noNode : Node :=
  { valid := false, internal := false, sym := 0, cnt := 0, zero := 0, one := 0 }

/-- `NODE[i]` (R32); past the array there is no node. -/
def nodeAt (ram : NodeRam) (i : Nat) : Node := (ram[i]?).getD noNode

/-- `NODE[i] <- n`. -/
def setNode (ram : NodeRam) (i : Nat) (n : Node) : NodeRam := ram.setIfInBounds i n

/-- `NODE[i].VALID <- 0` for every `i` (R131). -/
def invalidateNodes (ram : NodeRam) : NodeRam :=
  mapEntries (fun n => { n with valid := false }) ram

/-- The code entry {0, 0, 0} (R152, R153). -/
def noCode : CodeEntry := { valid := false, len := 0, bits := 0 }

/-- `CODE[s]` (R34). -/
def codeAt (rom : CodeRom) (s : Nat) : CodeEntry := (rom[s]?).getD noCode

/-- `CODE[s] <- c`. -/
def setCode (rom : CodeRom) (s : Nat) (c : CodeEntry) : CodeRom := rom.setIfInBounds s c

/-- Every code entry {0, 0, 0} (R152). -/
def emptyCode : CodeRom := tabulate 257 (fun _ => noCode)

/-! ### The error record -/

/-- The error causes of R250. -/
inductive ErrCause where
  | emptyTable | noEof | noTree | noMap | noSym | trunc | busy | badCmd | badIndex
deriving DecidableEq, Repr

/-- `code(E)` (R250). -/
def ErrCause.code : ErrCause → BitVec 8
  | .emptyTable => 0x01#8
  | .noEof => 0x02#8
  | .noTree => 0x03#8
  | .noMap => 0x04#8
  | .noSym => 0x05#8
  | .trunc => 0x06#8
  | .busy => 0x07#8
  | .badCmd => 0x08#8
  | .badIndex => 0x09#8

/-- `raise E(info)` (R252): the first error is recorded, a later one sets `EMULT`. Nothing else is
written, and nothing is saved (R255). This is the one way an error is taken. -/
def raise (e : ErrCause) (info : BitVec 16) (s : State) : State :=
  { s with
    errCode := if s.errCode = 0 then e.code else s.errCode
    errInfo := if s.errCode = 0 then info else s.errInfo
    emult := if s.errCode = 0 then s.emult else true }

/-- The return from an error (R106, R258): the record is cleared and nothing is restored. -/
def clearError (s : State) : State :=
  { s with errCode := 0, errInfo := 0, emult := false }

/-! ### Ending an operation -/

/-- `complete(op)` (R9). -/
def complete (s : State) : State := { s with active := .idle, done := true }

/-- `abandon(op)` (R9): `DONE` stays as it is. -/
def abandon (s : State) : State := { s with active := .idle }

/-! ### The channels -/

/-- A channel can accept an item: it holds fewer than `CH_DEPTH` items (R298). -/
def canAccept (d : ChDepth) (ch : List Item) : Bool :=
  match d with
  | .unbounded => true
  | .items n => decide (ch.length < n + 1)

/-- `put(BOUT, item)` (R9). -/
def putBout (it : Item) (s : State) : State := { s with bout := s.bout ++ [it] }

/-- `put(SOUT, item)` (R9). -/
def putSout (it : Item) (s : State) : State := { s with sout := s.sout ++ [it] }

/-- `take(SIN)` (R9): the head item is removed. -/
def takeSin (s : State) : State := { s with sin := s.sin.tail }

/-- `take(BIN)` (R9): the head item is removed. -/
def takeBin (s : State) : State := { s with bin := s.bin.tail }

/-- The head of `SIN` is a data byte `v`. -/
def sinHeadIsByte (s : State) (v : Byte) : Bool :=
  match s.sin with
  | [] => false
  | it :: _ => !itemEnd it && itemData it == v

/-- The head of `SIN` is `END`, whatever its `DATA` holds (R85). -/
def sinHeadIsEnd (s : State) : Bool :=
  match s.sin with
  | [] => false
  | it :: _ => itemEnd it

/-- The head of `BIN` is a data byte `v`. -/
def binHeadIsByte (s : State) (v : Byte) : Bool :=
  match s.bin with
  | [] => false
  | it :: _ => !itemEnd it && itemData it == v

/-- The head of `BIN` is `END`, whatever its `DATA` holds (R85). -/
def binHeadIsEnd (s : State) : Bool :=
  match s.bin with
  | [] => false
  | it :: _ => itemEnd it

/-! ### Packing -/

/-- `pos(j, ord)` (R88). -/
def bitPos (j : Nat) (ord : Bool) : Nat := if ord then 7 - j % 8 else j % 8

/-- `pack(b_0..b_7, ord)` (R88); bits the string does not have are 0, the padding of R89. -/
def pack (b : Bits) (ord : Bool) : Byte :=
  (List.range 8).foldl
    (fun acc k => acc ||| ((BitVec.ofBool (b.getD k false)).setWidth 8 <<< bitPos k ord)) 0

/-- `unpack(v, ord)` (R88). -/
def unpack (v : Byte) (ord : Bool) : Bits :=
  (List.range 8).map (fun k => v.getLsbD (bitPos k ord))

end Sys2Proof.Machine
end

