-- ==== Sys2Proof/Machine/Flags.lean ====
section
/-! DEFINITION. Everything computed from flags: the fields of `CTRL` (R23), `BUSY`, `ERR` and the
`STATUS` word (R25), and the interrupt output `irq` (R44). -/

namespace Sys2Proof.Machine

/-- `CTRL.SINK_EN` (R23). -/
def sinkEn (s : State) : Bool := s.ctrl.getLsbD 0

/-- `CTRL.BITORD` (R23). -/
def bitOrd (s : State) : Bool := s.ctrl.getLsbD 1

/-- `CTRL.IE_DONE` (R23). -/
def ieDone (s : State) : Bool := s.ctrl.getLsbD 2

/-- `CTRL.IE_ERR` (R23). -/
def ieErr (s : State) : Bool := s.ctrl.getLsbD 3

/-- The encoding of `ACTIVE` (R25). -/
def Active.code : Active → BitVec 3
  | .idle => 0#3
  | .freqClr => 1#3
  | .build => 2#3
  | .genmap => 3#3
  | .encode => 4#3
  | .decode => 5#3

/-- `STATUS.BUSY`: always (`ACTIVE` != 0) (R25). -/
def busy (s : State) : Bool := decide (s.active ≠ .idle)

/-- `STATUS.ERR`: always (`ERRCODE` != 0) (R25). -/
def err (s : State) : Bool := decide (s.errCode ≠ 0)

/-- The `STATUS` word (R25): `ACTIVE` 10:8, `EMULT` 5, `ERR` 4, `DONE` 3, `MAP_VALID` 2, `TREE_VALID` 1,
`BUSY` 0; the other bits read 0. -/
def statusWord (s : State) : Word :=
  0#21 ++ s.active.code ++ 0#2 ++ BitVec.ofBool s.emult ++ BitVec.ofBool (err s) ++
    BitVec.ofBool s.done ++ BitVec.ofBool s.mapValid ++ BitVec.ofBool s.treeValid ++
    BitVec.ofBool (busy s)

/-- The interrupt output (R44, R261): a level computed from the state. -/
def irq (s : State) : Bool := (ieDone s && s.done) || (ieErr s && err s)

end Sys2Proof.Machine
end

