-- ==== Sys2Proof/Machine/Operands.lean ====
section
/-! DEFINITION. The operands: the one register read (R22 to R38, R111), with its three windows
(R31, R33, R35), the code bits an encode step appends (R172), and the current node of the decoder
(R202). -/

namespace Sys2Proof.Machine

/-- The constant of the `ID` register (R22). -/
def idWord : Word := 0x48554601#32

/-- A read of `FREQ_DATA` (R31). -/
def freqWindow (s : State) : Word :=
  if 257 ≤ s.freqIdx.toNat then 0
  else if s.active = .freqClr then 0
  else freqAt s.freq s.freqIdx.toNat

/-- The node window shows an entry (`vis` of R33). -/
def nodeVisible (s : State) : Bool :=
  s.treeValid && decide (s.nodeIdx.toNat ≤ 512) && (nodeAt s.node s.nodeIdx.toNat).valid

/-- The `NODE_INFO` layout of a visible node (R33). -/
def nodeInfoWord (n : Node) : Word :=
  0#1 ++ 1#1 ++ BitVec.ofBool n.internal ++ n.one ++ n.zero ++ n.sym

/-- A read of `NODE_INFO` (R33). -/
def nodeInfo (s : State) : Word :=
  if nodeVisible s then nodeInfoWord (nodeAt s.node s.nodeIdx.toNat) else 0

/-- A read of `NODE_CNT_LO` (R33). -/
def nodeCntLo (s : State) : Word :=
  if nodeVisible s then (nodeAt s.node s.nodeIdx.toNat).cnt.extractLsb' 0 32 else 0

/-- A read of `NODE_CNT_HI` (R33). -/
def nodeCntHi (s : State) : Word :=
  if nodeVisible s then 0#23 ++ (nodeAt s.node s.nodeIdx.toNat).cnt.extractLsb' 32 9 else 0

/-- The code window shows an entry (`vis` of R35). -/
def codeVisible (s : State) : Bool := s.mapValid && decide (s.codeIdx.toNat ≤ 256)

/-- A read of `CODE_INFO` (R35). -/
def codeInfo (s : State) : Word :=
  if codeVisible s then
    let c := codeAt s.code s.codeIdx.toNat
    0#15 ++ BitVec.ofBool c.valid ++ 0#7 ++ c.len
  else 0

/-- A read of `CODE_BITSk` (R35). -/
def codeBitsWord (k : Nat) (s : State) : Word :=
  if codeVisible s then (codeAt s.code s.codeIdx.toNat).bits.extractLsb' (32 * k) 32 else 0

/-- A read of a register: its current value, narrower fields zero-extended (R108, R111). `CMD` reads 0
(R24). No read changes any state (R66). -/
def readReg (r : Reg) (s : State) : Word :=
  match r with
  | .id => idWord
  | .ctrl => s.ctrl.setWidth 32
  | .cmd => 0
  | .status => statusWord s
  | .errCode => s.errCode.setWidth 32
  | .errInfo => s.errInfo.setWidth 32
  | .root => s.root.setWidth 32
  | .nleaf => s.nleaf.setWidth 32
  | .freqIdx => s.freqIdx.setWidth 32
  | .freqData => freqWindow s
  | .nodeIdx => s.nodeIdx.setWidth 32
  | .nodeInfo => nodeInfo s
  | .nodeCntLo => nodeCntLo s
  | .nodeCntHi => nodeCntHi s
  | .codeIdx => s.codeIdx.setWidth 32
  | .codeInfo => codeInfo s
  | .codeBits k => codeBitsWord k.val s
  | .encBitCntLo => s.encBitCnt.extractLsb' 0 32
  | .encBitCntHi => s.encBitCnt.extractLsb' 32 32
  | .encSymCntLo => s.encSymCnt.extractLsb' 0 32
  | .encSymCntHi => s.encSymCnt.extractLsb' 32 32
  | .decBitCntLo => s.decBitCnt.extractLsb' 0 32
  | .decBitCntHi => s.decBitCnt.extractLsb' 32 32
  | .decSymCntLo => s.decSymCnt.extractLsb' 0 32
  | .decSymCntHi => s.decSymCnt.extractLsb' 32 32
  | .decCur => s.decCur.setWidth 32

/-- The code bits `BITS[0] ... BITS[L-1]` of an entry, first bit first (R34, R172). -/
def codeString (c : CodeEntry) : Bits := (List.range c.len.toNat).map (fun j => c.bits.getLsbD j)

/-- `N = NODE[DEC_CUR]` (R202). -/
def curNode (s : State) : Node := nodeAt s.node s.decCur.toNat

end Sys2Proof.Machine
end

