-- ==== Sys2Proof/Machine/Control.lean ====
section
/-! DEFINITION. Command acceptance (R100) and the control commands `NOP`, `FREQ_CLR`, `TREE_FREE`,
`ABORT` and `CLR_ERR` (R101 to R106), with the completion of `FREQ_CLR`. -/

namespace Sys2Proof.Machine

/-- A command word outside the opcode map: `raise BAD_CMD(w[7:0])` and nothing else (R82, R100). -/
def illegalCommand (w : Word) (s : State) : State :=
  raise .badCmd ((w.extractLsb' 0 8).setWidth 16) s

/-- Acceptance of an operation command after the checks of the word itself (R100): a sticky error drops
it and sets `EMULT`; a running operation rejects it with `BUSY(op)`; else `DONE <- 0` and the
command's own part follows. -/
def accept (op : BitVec 16) (body : State → State) (s : State) : State :=
  if err s then { s with emult := true }
  else if busy s then raise .busy op s
  else body { s with done := false }

/-- `NOP` (R101): no effect in every state. -/
def execNop (s : State) : Host.Outcome State Fault Refusal := .next s

/-- The accepted part of `FREQ_CLR` (R102). -/
def freqClrAccepted (s : State) : State := { s with active := .freqClr, freqIdx := 0 }

/-- `FREQ_CLR` (R102), its acceptance step. -/
def execFreqClr (s : State) : Host.Outcome State Fault Refusal :=
  .next (accept 0x0001#16 freqClrAccepted s)

/-- The completion step of `FREQ_CLR` (R102). -/
def freqClrComplete (s : State) : State := complete { s with freq := zeroFreq }

/-- The accepted part of `TREE_FREE` (R104): it completes in the acceptance step. -/
def treeFreeAccepted (s : State) : State :=
  complete { s with treeValid := false, root := 0, nleaf := 0 }

/-- `TREE_FREE` (R104). -/
def execTreeFree (s : State) : Host.Outcome State Fault Refusal :=
  .next (accept 0x0006#16 treeFreeAccepted s)

/-- `FREQ` after an aborted `FREQ_CLR` (R105, U5): per entry the old value or 0, a free choice. -/
def abortedFreq (draw : Nat) (f : FreqRam) : FreqRam :=
  tabulate 257 (fun i => if Config.abortCleared draw i then 0 else freqAt f i)

/-- What `ABORT` does to the active operation's own state (R105, the `case`). -/
def abortOperation (s : State) : State :=
  match s.active with
  | .idle => s
  | .freqClr => { s with freq := abortedFreq s.draws s.freq, draws := s.draws + 1 }
  | .build => s
  | .genmap => s
  | .encode => { s with ebuf := [], efin := false }
  | .decode => { s with dbuf := [] }

/-- `ABORT` (R105): performed in every state. -/
def execAbort (s : State) : Host.Outcome State Fault Refusal :=
  .next { abandon (abortOperation s) with done := false }

/-- `CLR_ERR` (R106): performed in every state. -/
def execClrErr (s : State) : Host.Outcome State Fault Refusal := .next (clearError s)

end Sys2Proof.Machine
end

