-- ==== Sys2Proof/Machine/Tree.lean ====
section
/-! DEFINITION. The tree builder (41_tree_builder): `BUILD` acceptance (R131) and completion (R132). -/

namespace Sys2Proof.Machine

/-- The accepted part of `BUILD` (R131). -/
def buildAccepted (s : State) : State :=
  { s with
    treeValid := false
    mapValid := false
    root := 0
    nleaf := 0
    node := invalidateNodes s.node
    active := .build }

/-- `BUILD` (R131), its acceptance step. -/
def execBuild (s : State) : Host.Outcome State Fault Refusal :=
  .next (accept 0x0002#16 buildAccepted s)

/-- The symbols of the table, ascending: those with a non-zero entry (R134). -/
def present (f : FreqRam) : List Nat := (List.range 257).filter (fun i => freqAt f i != 0)

/-- The leaf of symbol `i` with count `c` (R134). -/
def leafNode (i : Nat) (c : Word) : Node :=
  { valid := true, internal := false, sym := BitVec.ofNat 9 i, cnt := c.setWidth 41, zero := 0,
    one := 0 }

/-- The leaves of R132 step 2, one per symbol given. -/
def putLeaves (f : FreqRam) : List Nat → NodeRam → NodeRam
  | [], ram => ram
  | i :: is, ram => putLeaves f is (setNode ram i (leafNode i (freqAt f i)))

/-- `key(a) < key(b)`: the pair (`CNT`, index) in lexicographic order (R133). -/
def keyLt (ram : NodeRam) (a b : Nat) : Bool :=
  decide ((nodeAt ram a).cnt.toNat < (nodeAt ram b).cnt.toNat) ||
    (decide ((nodeAt ram a).cnt.toNat = (nodeAt ram b).cnt.toNat) && decide (a < b))

/-- `minkey(Q)` (R133): the element of `a :: Q` with the smallest key. -/
def minKey (ram : NodeRam) (a : Nat) : List Nat → Nat
  | [] => a
  | b :: q => minKey ram (if keyLt ram b a then b else a) q

/-- One removal from the queue: its minimum and the rest; `none` when it is empty (R135). -/
def popMin (ram : NodeRam) : List Nat → Option (Nat × List Nat)
  | [] => none
  | a :: q => some (minKey ram a q, (a :: q).erase (minKey ram a q))

/-- The internal node over `a` (popped first) and `b` (popped second) (R132, R135). -/
def mergeNode (ram : NodeRam) (a b : Nat) : Node :=
  { valid := true, internal := true, sym := 257#9,
    cnt := (nodeAt ram a).cnt + (nodeAt ram b).cnt,
    zero := BitVec.ofNat 10 a, one := BitVec.ofNat 10 b }

/-- The greedy loop of R132 step 3: while the queue has two elements, merge the two smallest into the
internal slot `257 + k`. The first argument bounds the iterations; 256 merges are always enough
(R136). -/
def mergeLoop : Nat → Nat → NodeRam → List Nat → NodeRam × List Nat
  | 0, _, ram, q => (ram, q)
  | fuel + 1, k, ram, q =>
    match popMin ram q with
    | none => (ram, q)
    | some (a, q1) =>
      match popMin ram q1 with
      | none => (ram, q)
      | some (b, q2) =>
        mergeLoop fuel (k + 1) (setNode ram (257 + k) (mergeNode ram a b)) ((257 + k) :: q2)

/-- The tree of a frequency table, in a node RAM: the RAM and what is left in the queue (R132). -/
def buildTree (f : FreqRam) (ram : NodeRam) : NodeRam × List Nat :=
  mergeLoop 256 0 (putLeaves f (present f) ram) (present f)

/-- The completion step of `BUILD` (R132): the checks of R139, then the tree and its results (R137). -/
def buildComplete (s : State) : State :=
  if present s.freq = [] then abandon (raise .emptyTable 0 s)
  else if freqAt s.freq 256 = 0 then abandon (raise .noEof 256#16 s)
  else
    complete
      { s with
        node := (buildTree s.freq s.node).1
        root := BitVec.ofNat 10 ((buildTree s.freq s.node).2.headD 0)
        nleaf := BitVec.ofNat 9 (present s.freq).length
        treeValid := true }

end Sys2Proof.Machine
end

