-- ==== Sys2Proof/Machine/MapGen.lean ====
section
/-! DEFINITION. The encoding map generator (42_map_generator): `GENMAP` acceptance (R151) and
completion (R152). -/

namespace Sys2Proof.Machine

/-- The accepted part of `GENMAP` (R151): with no tree it raises `NO_TREE(0x0003)`. -/
def genmapAccepted (s : State) : State :=
  if s.treeValid then { s with mapValid := false, active := .genmap }
  else raise .noTree 0x0003#16 s

/-- `GENMAP` (R151), its acceptance step. -/
def execGenmap (s : State) : Host.Outcome State Fault Refusal :=
  .next (accept 0x0003#16 genmapAccepted s)

/-- A path as the `BITS` of an entry: bit `j` is `p_j`, 0 past the path (R152). -/
def pathBits (p : Bits) : BitVec 256 := (BitVec.ofBoolListLE p).setWidth 256

/-- The code entry of a leaf reached by path `p` (R152). -/
def pathEntry (p : Bits) : CodeEntry :=
  { valid := true, len := BitVec.ofNat 9 p.length, bits := pathBits p }

/-- `walk(i, p)` (R152), depth first, `ZERO` before `ONE` (R154). The first argument is the room left
on the path stack, plus one: the walk has no answer where the path would pass 256 bits, where an
index is past 512 or a leaf's symbol past 256, none of which a tree has (R45, R156). -/
def walk (ram : NodeRam) : Nat → Nat → Bits → CodeRom → Option CodeRom
  | 0, _, _, _ => none
  | room + 1, i, p, rom =>
    if 512 < i then none
    else if (nodeAt ram i).sym ≠ 257#9 then
      if 256 < (nodeAt ram i).sym.toNat then none
      else some (setCode rom (nodeAt ram i).sym.toNat (pathEntry p))
    else
      match walk ram room (nodeAt ram i).zero.toNat (p ++ [false]) rom with
      | none => none
      | some rom' => walk ram room (nodeAt ram i).one.toNat (p ++ [true]) rom'

/-- The code ROM of the tree at `root` (R152): 256 bits of path, so 257 levels (R156). -/
def genMap (ram : NodeRam) (root : Nat) : Option CodeRom := walk ram 257 root [] emptyCode

/-- The completion step of `GENMAP` (R152). -/
def genmapComplete (s : State) : Host.Outcome State Fault Refusal :=
  match genMap s.node s.root.toNat with
  | some rom => .next (complete { s with code := rom, mapValid := true })
  | none => .fault .brokenTree

end Sys2Proof.Machine
end

