-- ==== Sys2Proof/Machine/Encoder.lean ====
section
/-! DEFINITION. The streaming encoder (43_encoder): `ENC_START` (R171) and the steps that take from
`SIN` and put on `BOUT` (R172 to R176). A step that is not enabled changes nothing: the session
waits (R182), or there is none and the item stays queued (R43). -/

namespace Sys2Proof.Machine

/-- The accepted part of `ENC_START` (R171): with no map it raises `NO_MAP(0x0004)`. -/
def encStartAccepted (s : State) : State :=
  if s.mapValid then
    { s with
      encBitCnt := 0
      encSymCnt := 0
      eSink := sinkEn s
      eOrd := bitOrd s
      ebuf := []
      efin := false
      active := .encode }
  else raise .noMap 0x0004#16 s

/-- `ENC_START` (R171). -/
def execEncStart (s : State) : Host.Outcome State Fault Refusal :=
  .next (accept 0x0004#16 encStartAccepted s)

/-- The encoder may take from `SIN` (the table of 43_encoder): `ACTIVE` = 4, `EFIN` = 0, |`EBUF`| < 8. -/
def encTakes (s : State) : Bool :=
  decide (s.active = .encode) && !s.efin && decide (s.ebuf.length < 8)

/-- Appending the code of symbol `x`: its bits in sink mode, its length in both modes
(R172, R173, R177). -/
def appendCode (x : Nat) (s : State) : State :=
  { s with
    ebuf := if s.eSink then s.ebuf ++ codeString (codeAt s.code x) else s.ebuf
    encBitCnt := s.encBitCnt + (codeAt s.code x).len.setWidth 64 }

/-- What taking `BYTE(v)` does (R172); a byte with no code is `NOSYM` (R179). -/
def encodeByte (v : Byte) (s : State) : State :=
  if (codeAt s.code v.toNat).valid then
    { appendCode v.toNat (takeSin s) with encSymCnt := s.encSymCnt + 1 }
  else abandon { raise .noSym (v.setWidth 16) (takeSin s) with ebuf := [] }

/-- `SIN BYTE(v)`: take a data byte (R172). -/
def execSinByte (v : Byte) (s : State) : Host.Outcome State Fault Refusal :=
  .next (if encTakes s && sinHeadIsByte s v then encodeByte v s else s)

/-- `SIN END`: take the end of input, append the end-of-stream code (R173). -/
def execSinEnd (s : State) : Host.Outcome State Fault Refusal :=
  .next (if encTakes s && sinHeadIsEnd s then { appendCode 256 (takeSin s) with efin := true } else s)

/-- A full byte is ready (R174). -/
def fullByteReady (s : State) : Bool :=
  decide (s.active = .encode) && s.eSink && decide (8 ≤ s.ebuf.length)

/-- The padded last byte is ready (R175). -/
def lastByteReady (s : State) : Bool :=
  decide (s.active = .encode) && s.eSink && s.efin && decide (0 < s.ebuf.length) &&
    decide (s.ebuf.length < 8)

/-- The byte the next put step packs: the first 8 bits of `EBUF`, zero-padded (R174, R175, R89). -/
def packedByte (s : State) : Byte := pack (s.ebuf.take 8) s.eOrd

/-- `BOUT BYTE(v)`: put a full byte (R174) or the padded last byte (R175). It is enabled for the one `v`
the packer computes. -/
def execBoutByte (v : Byte) (s : State) : Host.Outcome State Fault Refusal :=
  .next
    (if (fullByteReady s || lastByteReady s) && canAccept s.chDepth s.bout && v == packedByte s then
      putBout (byteItem v) { s with ebuf := s.ebuf.drop 8 }
    else s)

/-- The stream can be closed (R176). -/
def closeReady (s : State) : Bool :=
  decide (s.active = .encode) && s.efin && s.ebuf.isEmpty &&
    (!s.eSink || canAccept s.chDepth s.bout)

/-- `BOUT END`: close the stream and complete (R176); in counting mode nothing is put (R177). -/
def execBoutEnd (s : State) : Host.Outcome State Fault Refusal :=
  .next
    (if closeReady s then complete (if s.eSink then putBout endItem s else s) else s)

end Sys2Proof.Machine
end

