-- ==== Sys2Proof/Machine/Decoder.lean ====
section
/-! DEFINITION. The streaming decoder (44_decoder): `DEC_START` (R201) and the steps R203 to R206. A
step that is not enabled changes nothing: the session waits (R214), or there is none and the item
stays queued (R43). -/

namespace Sys2Proof.Machine

/-- The accepted part of `DEC_START` (R201): with no tree it raises `NO_TREE(0x0005)`. -/
def decStartAccepted (s : State) : State :=
  if s.treeValid then
    { s with
      decBitCnt := 0
      decSymCnt := 0
      dOrd := bitOrd s
      dbuf := []
      decCur := s.root
      active := .decode }
  else raise .noTree 0x0005#16 s

/-- `DEC_START` (R201). -/
def execDecStart (s : State) : Host.Outcome State Fault Refusal :=
  .next (accept 0x0005#16 decStartAccepted s)

/-- The decoder stands at an internal node (R202). -/
def atInternal (s : State) : Bool := decide (s.active = .decode) && (curNode s).sym == 257#9

/-- The decoder takes from `BIN` (R204): at an internal node with `DBUF` empty. -/
def decTakes (s : State) : Bool := atInternal s && s.dbuf.isEmpty

/-- `BIN BYTE(v)`: take a byte of bits (R204). -/
def execBinByte (v : Byte) (s : State) : Host.Outcome State Fault Refusal :=
  .next
    (if decTakes s && binHeadIsByte s v then { takeBin s with dbuf := unpack v s.dOrd } else s)

/-- What `END` does where a bit is needed (R204, R210): `TRUNC(DEC_CUR)` and the session is abandoned. -/
def truncate (s : State) : State :=
  abandon { raise .trunc (s.decCur.setWidth 16) (takeBin s) with dbuf := [] }

/-- `BIN END`: the bit source is exhausted (R204). -/
def execBinEnd (s : State) : Host.Outcome State Fault Refusal :=
  .next (if decTakes s && binHeadIsEnd s then truncate s else s)

/-- Consume one bit (R205): enabled at an internal node with `DBUF` not empty. -/
def consumeBit (s : State) : State :=
  match s.dbuf with
  | [] => s
  | b :: rest =>
    if atInternal s then
      { s with
        dbuf := rest
        decBitCnt := s.decBitCnt + 1
        decCur := if b then (curNode s).one else (curNode s).zero }
    else s

/-- The decoder stands at an ordinary leaf (R202). -/
def atSymbol (s : State) : Bool :=
  decide (s.active = .decode) && decide ((curNode s).sym.toNat < 256)

/-- The byte of the ordinary leaf: `N.SYM[7:0]` (R203). -/
def leafByte (s : State) : Byte := (curNode s).sym.extractLsb' 0 8

/-- `SOUT BYTE(v)`: emit the symbol of the leaf and return to the root (R203). It is enabled for the one
`v` the leaf holds. -/
def execSoutByte (v : Byte) (s : State) : Host.Outcome State Fault Refusal :=
  .next
    (if atSymbol s && canAccept s.chDepth s.sout && v == leafByte s then
      putSout (byteItem v) { s with decSymCnt := s.decSymCnt + 1, decCur := s.root }
    else s)

/-- The decoder stands at the end-of-stream leaf (R202). -/
def atEos (s : State) : Bool := decide (s.active = .decode) && (curNode s).sym == 256#9

/-- `SOUT END`: close and complete (R206); the bits left in `DBUF` are discarded (R209). -/
def execSoutEnd (s : State) : Host.Outcome State Fault Refusal :=
  .next
    (if atEos s && canAccept s.chDepth s.sout then
      complete { putSout endItem s with dbuf := [] }
    else s)

end Sys2Proof.Machine
end

