-- ==== Sys2Proof/Machine/Windows.lean ====
section
/-! DEFINITION. The register and window accesses (R109 to R111): HUFCORE's only loads and stores. -/

namespace Sys2Proof.Machine

/-- `WR CTRL, v` (R109, R23): bits 3:0 are stored, the others ignored. -/
def execWrCtrl (v : Word) (s : State) : Host.Outcome State Fault Refusal :=
  .next { s with ctrl := v.extractLsb' 0 4 }

/-- `WR FREQ_IDX, v` (R109, R31): `v[8:0]` is stored. -/
def execWrFreqIdx (v : Word) (s : State) : Host.Outcome State Fault Refusal :=
  .next { s with freqIdx := v.extractLsb' 0 9 }

/-- `WR NODE_IDX, v` (R109, R33): `v[9:0]` is stored. -/
def execWrNodeIdx (v : Word) (s : State) : Host.Outcome State Fault Refusal :=
  .next { s with nodeIdx := v.extractLsb' 0 10 }

/-- `WR CODE_IDX, v` (R109, R35): `v[8:0]` is stored. -/
def execWrCodeIdx (v : Word) (s : State) : Host.Outcome State Fault Refusal :=
  .next { s with codeIdx := v.extractLsb' 0 9 }

/-- The table may not be written now (R110): `FREQ_CLR` or `BUILD` runs. -/
def tableLocked (s : State) : Bool := decide (s.active = .freqClr) || decide (s.active = .build)

/-- What a write of `FREQ_DATA` does (R110): `BUSY(0x8024)`, then `BAD_INDEX(FREQ_IDX)`, else the store
and the increment of `FREQ_IDX`. -/
def writeFreqData (v : Word) (s : State) : State :=
  if tableLocked s then raise .busy 0x8024#16 s
  else if 256 < s.freqIdx.toNat then raise .badIndex (s.freqIdx.setWidth 16) s
  else { s with freq := setFreq s.freq s.freqIdx.toNat v, freqIdx := s.freqIdx + 1 }

/-- `WR FREQ_DATA, v` (R110). -/
def execWrFreqData (v : Word) (s : State) : Host.Outcome State Fault Refusal :=
  .next (writeFreqData v s)

/-- The answer to a read of a register: its value, and no other change (R66, R111). -/
def answerRead (r : Reg) (s : State) : State := { s with resp := .data (readReg r s) }

/-- `RD window` (R111). -/
def execRdWindow (r : Reg) (s : State) : Host.Outcome State Fault Refusal := .next (answerRead r s)

end Sys2Proof.Machine
end

