-- ==== Sys2Proof/Machine/Dispatch.lean ====
section
/-! DEFINITION. One arm per instruction. -/

namespace Sys2Proof.Machine

def exec (i : Instr) (s : State) : Host.Outcome State Fault Refusal :=
  match i with
  | .nop => Sys2Proof.Machine.execNop s
  | .freqClr => Sys2Proof.Machine.execFreqClr s
  | .build => Sys2Proof.Machine.execBuild s
  | .genmap => Sys2Proof.Machine.execGenmap s
  | .encStart => Sys2Proof.Machine.execEncStart s
  | .decStart => Sys2Proof.Machine.execDecStart s
  | .treeFree => Sys2Proof.Machine.execTreeFree s
  | .abort => Sys2Proof.Machine.execAbort s
  | .clrErr => Sys2Proof.Machine.execClrErr s
  | .sinByte v => Sys2Proof.Machine.execSinByte v s
  | .sinEnd => Sys2Proof.Machine.execSinEnd s
  | .binByte v => Sys2Proof.Machine.execBinByte v s
  | .binEnd => Sys2Proof.Machine.execBinEnd s
  | .boutByte v => Sys2Proof.Machine.execBoutByte v s
  | .boutEnd => Sys2Proof.Machine.execBoutEnd s
  | .soutByte v => Sys2Proof.Machine.execSoutByte v s
  | .soutEnd => Sys2Proof.Machine.execSoutEnd s
  | .wrFreqData v => Sys2Proof.Machine.execWrFreqData v s
  | .wrCtrl v => Sys2Proof.Machine.execWrCtrl v s
  | .wrFreqIdx v => Sys2Proof.Machine.execWrFreqIdx v s
  | .wrNodeIdx v => Sys2Proof.Machine.execWrNodeIdx v s
  | .wrCodeIdx v => Sys2Proof.Machine.execWrCodeIdx v s
  | .rdWindow r => Sys2Proof.Machine.execRdWindow r s

end Sys2Proof.Machine
end

