-- ==== Sys2Proof/Machine/Sequencer.lean ====
section
/-! DEFINITION. The core's turn: it selects the one step enabled in the state (the tables of 43_encoder
and 44_decoder, R184, R202) and performs it; where none is enabled it waits (R182, R214). -/

namespace Sys2Proof.Machine

/-- The encode step the state asks for (the table of 43_encoder), by `EFIN`, `EBUF` and the head of
`SIN`; `none` while the session waits for an item, and in the states the table does not name
(bits in `EBUF` in counting mode, which R177 rules out). -/
def encodeStep (s : State) : Option Instr :=
  if fullByteReady s || lastByteReady s then some (.boutByte (packedByte s))
  else if s.efin then (if s.ebuf.isEmpty then some .boutEnd else none)
  else if encTakes s then
    match s.sin with
    | [] => none
    | it :: _ => some (decodeItem .sin it)
  else none

/-- What the decoder does next (R202). -/
inductive DecodeStep where
  /-- a channel step -/
  | channel (i : Instr)
  /-- consume one bit (R205) -/
  | bit
  /-- wait for an item on `BIN` (R214) -/
  | wait
  /-- the node RAM holds no tree -/
  | broken
deriving DecidableEq, Repr

/-- The decode step the state asks for, in the order of R202: the end-of-stream leaf, an ordinary leaf,
then an internal node. -/
def decodeStep (s : State) : DecodeStep :=
  if 512 < s.decCur.toNat then .broken
  else if (curNode s).sym = 256#9 then .channel .soutEnd
  else if (curNode s).sym.toNat < 256 then .channel (.soutByte (leafByte s))
  else if (curNode s).sym = 257#9 then
    match s.dbuf with
    | _ :: _ => .bit
    | [] =>
      match s.bin with
      | [] => .wait
      | it :: _ => .channel (decodeItem .bin it)
  else .broken

/-- A turn of the core, by `ACTIVE` (R25): nothing while idle, the completion of a multi-step operation
(R102, R132, R152; one turn each, log 2), or the one enabled step of a session. -/
def coreStep (s : State) : Host.Outcome State Fault Refusal :=
  match s.active with
  | .idle => .next s
  | .freqClr => .next (freqClrComplete s)
  | .build => .next (buildComplete s)
  | .genmap => genmapComplete s
  | .encode =>
    match encodeStep s with
    | some i => exec i s
    | none => .next s
  | .decode =>
    match decodeStep s with
    | .channel i => exec i s
    | .bit => .next (consumeBit s)
    | .wait => .next s
    | .broken => .fault .brokenTree

end Sys2Proof.Machine
end

