-- ==== Sys2Proof/Machine/HostMoves.lean ====
section
/-! DEFINITION. The host's moves: bus accesses (R61 to R65), channel transfers (R86, R298), the removal
of leftover items (R290), `WAIT` (R92), draining (R294) and reset (R280). -/

namespace Sys2Proof.Machine

/-- The one defined access: 32 bits at an offset divisible by 4 (R65). -/
def accessDefined (off : Offset) (width : Width) : Bool :=
  decide (width = .w32) && off.extractLsb' 0 2 == 0#2

/-- A bus error response (R65, R260), with the read data if the access is a read: it goes to the host
and changes no HUFCORE state. -/
def busError (data : Option Word) (s : State) : State := { s with resp := .busError data }

/-- A bus read (R61, R65). A reserved offset reads 0 (R63); a read answered with a bus error returns 0
together with the error (R65). -/
def busRead (off : Offset) (width : Width) (s : State) : Host.Outcome State Fault Refusal :=
  if accessDefined off width then
    match decode (.busRead off) with
    | .ok i => exec i s
    | .error (.plainRead r) => .next (answerRead r s)
    | .error (.illegalCommand _) => .next { s with resp := .data 0 }
    | .error (.readOnly _) => .next { s with resp := .data 0 }
    | .error (.reservedOffset _) => .next { s with resp := .data 0 }
    | .error (.wrongLength _) => .next { s with resp := .data 0 }
  else .next (busError (some 0) s)

/-- A bus write (R61, R65): a register write or a command word. An illegal command word raises `BAD_CMD`
(R82); a write to a read-only register or a reserved offset is ignored (R63). -/
def busWrite (off : Offset) (width : Width) (v : Word) (s : State) :
    Host.Outcome State Fault Refusal :=
  if accessDefined off width then
    match decode (.busWrite off v) with
    | .ok i => exec i { s with resp := .written }
    | .error (.illegalCommand w) => .next (illegalCommand w { s with resp := .written })
    | .error (.readOnly _) => .next { s with resp := .written }
    | .error (.plainRead _) => .next { s with resp := .written }
    | .error (.reservedOffset _) => .next { s with resp := .written }
    | .error (.wrongLength _) => .next { s with resp := .written }
  else .next (busError none s)

/-- What reset leaves in a channel: its items, or none where the platform empties it (R282, U23). -/
def channelAfterReset (empty : Bool) (ch : List Item) : List Item := if empty then [] else ch

/-- Reset (R280, R281, R283): every item of R281 at its reset value whatever the state before, the
arrays drawn anew (U6), the channels as the platform chooses (R282). DESIGN CHOICE (log 24): assertion
and deassertion are this one move, so that no access of the host falls between them. -/
def resetMove (emptySin emptyBout emptyBin emptySout : Bool) (s : State) : State :=
  State.afterReset s.draws (channelAfterReset emptySin s.sin) (channelAfterReset emptyBout s.bout)
    (channelAfterReset emptyBin s.bin) (channelAfterReset emptySout s.sout) s.chDepth s.agenda
    s.boutGot s.soutGot

/-- The host can make this move now: an input channel has room (R298), an output channel holds an item,
`WAIT` sees `BUSY` = 0 (R92), a leftover item is removed between sessions (R290, log 20). A bus access
and reset are possible at any time (R235). -/
def hostReady (m : HostMove) (s : State) : Bool :=
  match m with
  | .core => true
  | .read _ _ => true
  | .write _ _ _ => true
  | .placeSin _ => canAccept s.chDepth s.sin
  | .placeBin _ => canAccept s.chDepth s.bin
  | .takeBout => !s.bout.isEmpty
  | .takeSout => !s.sout.isEmpty
  | .wait => !busy s
  | .removeSin => decide (s.active ≠ .encode)
  | .removeBin => decide (s.active ≠ .decode)
  | .feedSin _ => canAccept s.chDepth s.sin
  | .feedBin _ => canAccept s.chDepth s.bin
  | .waitDrain => !busy s && s.bout.isEmpty && s.sout.isEmpty
  | .reset _ _ _ _ => true

/-- The host drains the output channels while this move is not possible yet (R294, log 21). -/
def hostDrains (m : HostMove) : Bool :=
  match m with
  | .core => false
  | .read _ _ => false
  | .write _ _ _ => false
  | .placeSin _ => false
  | .placeBin _ => false
  | .takeBout => false
  | .takeSout => false
  | .wait => false
  | .removeSin => false
  | .removeBin => false
  | .feedSin _ => true
  | .feedBin _ => true
  | .waitDrain => true
  | .reset _ _ _ _ => false

/-- `place(SIN, item)` by the host: at the tail (R70, R86). -/
def hostPlaceSin (it : Item) (s : State) : State := { s with sin := s.sin ++ [it] }

/-- `place(BIN, item)` by the host: at the tail (R70, R86). -/
def hostPlaceBin (it : Item) (s : State) : State := { s with bin := s.bin ++ [it] }

/-- The host takes the head of `BOUT` (R70). -/
def hostTakeBout (s : State) : State :=
  match s.bout with
  | [] => s
  | it :: rest => { s with bout := rest, resp := .item it, boutGot := s.boutGot ++ [it] }

/-- The host takes the head of `SOUT` (R70). -/
def hostTakeSout (s : State) : State :=
  match s.sout with
  | [] => s
  | it :: rest => { s with sout := rest, resp := .item it, soutGot := s.soutGot ++ [it] }

/-- A move of the agenda, made. -/
def hostMove (m : HostMove) (s : State) : Host.Outcome State Fault Refusal :=
  match m with
  | .core => coreStep s
  | .read off width => busRead off width s
  | .write off width v => busWrite off width v s
  | .placeSin it => .next (hostPlaceSin it s)
  | .placeBin it => .next (hostPlaceBin it s)
  | .takeBout => .next (hostTakeBout s)
  | .takeSout => .next (hostTakeSout s)
  | .wait => .next (answerRead .status s)
  | .removeSin => .next (takeSin s)
  | .removeBin => .next (takeBin s)
  | .feedSin it => .next (hostPlaceSin it s)
  | .feedBin it => .next (hostPlaceBin it s)
  | .waitDrain => .next (answerRead .status s)
  | .reset a b c d => .next (resetMove a b c d s)

/-- A step while the host's next move is not possible yet: a draining host takes what the core has put,
`BOUT` first; else the core takes the turn (log 13, log 21). -/
def blockedStep (m : HostMove) (s : State) : Host.Outcome State Fault Refusal :=
  if hostDrains m then
    if s.bout.isEmpty then
      if s.sout.isEmpty then coreStep s else .next (hostTakeSout s)
    else .next (hostTakeBout s)
  else coreStep s

/-- One step of the machine (R10, R69): the next move of the agenda, or a turn of the core where the
agenda is empty or the host's next move is not possible yet (log 1, log 13). -/
def machineStep (s : State) : Host.Outcome State Fault Refusal :=
  match s.agenda with
  | [] => coreStep s
  | m :: rest => if hostReady m s then hostMove m { s with agenda := rest } else blockedStep m s

/-- The command word `w` is the host's very next move: a write to `CMD` (R24). -/
def issueCommand (w : Word) (s : State) : State :=
  { s with agenda := .write 0x008#12 .w32 w :: s.agenda }

/-- The item is at the head of `SIN`, an encode session is ready to take it (R172), and the next turn is
the core's. -/
def offerSinItem (it : Item) (s : State) : State :=
  { s with
    sin := it :: s.sin
    active := .encode
    efin := false
    ebuf := []
    agenda := .core :: s.agenda }

/-- The instruction of bits `w` placed as the next the machine runs (log 12). -/
def placeTableWord (nbits w : Nat) (s : State) : State :=
  if nbits ≤ 16 then offerSinItem (BitVec.ofNat 9 w) s else issueCommand (BitVec.ofNat 32 w) s

end Sys2Proof.Machine
end

