-- ==== Sys2Proof/Machine/Step.lean ====
section
/-! DEFINITION. The step of the machine, and the placement of one table word as the next instruction. -/

namespace Sys2Proof.Machine

/-- One step: a move of the agenda or a turn of the core. -/
def step (s : State) : Host.Outcome State Fault Refusal := machineStep s

/-- `s` with the instruction of bits `w` placed so that the very next step runs it (log 12). -/
def State.withFetchWord (s : State) (nbits w : Nat) : State := placeTableWord nbits w s

end Sys2Proof.Machine
end

