-- ==== Sys2Proof/Safety.lean ====
section
/-! DEFINITION. What the claims speak of: the tree and map invariants (R45, R46), the invariant of the
whole machine, the path a code follows (R154), the packed form of a bit stream (R90) and a run that
ends well (R236). -/

namespace Sys2Proof.Machine

/-- Node `k` is an internal node of the tree and `i` is one of its children (R45). -/
def IsParent (ram : NodeRam) (k i : Nat) : Prop :=
  257 ≤ k ∧ k < 513 ∧ (nodeAt ram k).valid = true ∧
    ((nodeAt ram k).zero.toNat = i ∨ (nodeAt ram k).one.toNat = i)

/-- The tree invariant (R45), with the counts and the root index of R136. -/
structure TreeOk (ram : NodeRam) (root nleaf : Nat) : Prop where
  /-- `NLEAF` counts the valid leaf slots -/
  leafCount : ((List.range 257).filter (fun i => (nodeAt ram i).valid)).length = nleaf
  /-- a valid leaf slot `i` is the leaf of symbol `i` (R134) -/
  leafShape : ∀ i, i < 257 → (nodeAt ram i).valid = true →
    (nodeAt ram i).internal = false ∧ (nodeAt ram i).sym.toNat = i ∧
      (nodeAt ram i).zero = 0 ∧ (nodeAt ram i).one = 0
  /-- the valid internal slots are 257 .. 257 + `NLEAF` - 2 -/
  internalSlots : ∀ i, 257 ≤ i → i < 513 → ((nodeAt ram i).valid = true ↔ i + 1 < 257 + nleaf)
  /-- a valid internal node carries the marker, and its count is the sum of its children's -/
  internalShape : ∀ i, 257 ≤ i → i < 513 → (nodeAt ram i).valid = true →
    (nodeAt ram i).internal = true ∧ (nodeAt ram i).sym = 257#9 ∧
      (nodeAt ram i).cnt =
        (nodeAt ram (nodeAt ram i).zero.toNat).cnt + (nodeAt ram (nodeAt ram i).one.toNat).cnt
  /-- its two children are distinct valid nodes with smaller indices -/
  children : ∀ i, 257 ≤ i → i < 513 → (nodeAt ram i).valid = true →
    (nodeAt ram i).zero.toNat < i ∧ (nodeAt ram (nodeAt ram i).zero.toNat).valid = true ∧
      (nodeAt ram i).one.toNat < i ∧ (nodeAt ram (nodeAt ram i).one.toNat).valid = true ∧
      (nodeAt ram i).zero ≠ (nodeAt ram i).one
  /-- every valid node except the root is the child of exactly one valid internal node -/
  oneParent : ∀ i, i < 513 → (nodeAt ram i).valid = true → i ≠ root →
    ∃ k, IsParent ram k i ∧ ∀ k', IsParent ram k' i → k' = k
  /-- the root is nobody's child -/
  rootNoParent : ∀ k, ¬ IsParent ram k root
  /-- the root is a valid node -/
  rootValid : (nodeAt ram root).valid = true
  /-- the root is leaf 256, or the last internal slot (R136) -/
  rootIndex : root = if nleaf = 1 then 256 else 255 + nleaf
  /-- leaf 256 is valid -/
  eosLeaf : (nodeAt ram 256).valid = true

/-- The map invariant (R46), with the entries of symbols that have no code (R153). -/
structure MapOk (rom : CodeRom) : Prop where
  /-- a code has at most 256 bits, and the bits past it are 0 (R34, R156) -/
  codeShape : ∀ x, x < 257 → (codeAt rom x).valid = true →
    (codeAt rom x).len.toNat ≤ 256 ∧
      ∀ j, (codeAt rom x).len.toNat ≤ j → (codeAt rom x).bits.getLsbD j = false
  /-- a symbol with no code has the entry {0, 0, 0} -/
  noCodeShape : ∀ x, x < 257 → (codeAt rom x).valid = false → codeAt rom x = noCode
  /-- no valid code is a prefix of another valid code (R157) -/
  prefixFree : ∀ a b, a < 257 → b < 257 → a ≠ b → (codeAt rom a).valid = true →
    (codeAt rom b).valid = true → ¬ (codeString (codeAt rom a) <+: codeString (codeAt rom b))
  /-- `CODE[256].VALID` = 1 -/
  eosCode : (codeAt rom 256).valid = true

/-- The invariant of the machine: what R25, R41, R42, R45, R46, R107, R202 say of every state a run
reaches. -/
structure Inv (s : State) : Prop where
  /-- R45 -/
  tree : s.treeValid = true → TreeOk s.node s.root.toNat s.nleaf.toNat
  /-- R28, R29: `ROOT` and `NLEAF` are 0 while there is no tree -/
  noTree : s.treeValid = false → s.root = 0 ∧ s.nleaf = 0
  /-- R46 -/
  map : s.mapValid = true → MapOk s.code
  /-- R107: a running operation has not completed -/
  running : s.active ≠ .idle → s.done = false
  /-- R131: no tree, no map and no valid node while `BUILD` runs -/
  building : s.active = .build →
    s.treeValid = false ∧ s.mapValid = false ∧ ∀ i, (nodeAt s.node i).valid = false
  /-- R151, R159: a tree and no map while `GENMAP` runs -/
  mapping : s.active = .genmap → s.treeValid = true ∧ s.mapValid = false
  /-- R41, R172, R177: an encode session has a map, at most 263 bits, and none in counting mode -/
  encoding : s.active = .encode →
    s.mapValid = true ∧ s.ebuf.length ≤ 263 ∧ (s.eSink = false → s.ebuf = [])
  /-- R202: a decode session has a tree, and `DEC_CUR` names a valid node -/
  decoding : s.active = .decode → s.treeValid = true ∧ (curNode s).valid = true
  /-- R42 -/
  dbufLength : s.dbuf.length ≤ 8

/-- `follow(i, p)` (R154): the node reached from `i` along `p`, one step per bit, to the `ZERO` child for
0 and to the `ONE` child for 1. Only an internal node has children: `none` where a step leaves a leaf. -/
def follow (ram : NodeRam) : Nat → Bits → Option Nat
  | i, [] => some i
  | i, b :: p =>
    if (nodeAt ram i).sym = 257#9 then
      follow ram (if b then (nodeAt ram i).one.toNat else (nodeAt ram i).zero.toNat) p
    else none

/-- The two ways an operation command is turned away before it is accepted (R100): a sticky error drops
it and sets `EMULT`, and a running operation rejects it with `BUSY(op)`. -/
def TurnedAway (i : Instr) (op : BitVec 16) : Prop :=
  (∀ s : State, s.errCode ≠ 0 → exec i s = .next { s with emult := true }) ∧
  (∀ s : State, s.errCode = 0 → s.active ≠ .idle →
    exec i s = .next { s with errCode := 0x07#8, errInfo := op })

/-- No operation runs and no error is recorded: the next operation command is accepted (R100). -/
def Accepts (s : State) : Prop := s.errCode = 0 ∧ s.active = .idle

/-- The bytes of a bit stream (R90): byte `m` packs bits `8m .. 8m + 7`, with 0 past the end. -/
def packStream (bits : Bits) (ord : Bool) : List Byte :=
  (List.range ((bits.length + 7) / 8)).map (fun m => pack ((bits.drop (8 * m)).take 8) ord)

/-- The Encoded Bit Sequence of an input (R180, R181): the codes of its bytes in order, then the
end-of-stream code. -/
def encodedBits (rom : CodeRom) (bytes : List Byte) : Bits :=
  bytes.flatMap (fun v => codeString (codeAt rom v.toNat)) ++ codeString (codeAt rom 256)

/-- The weighted path length of an assignment of code lengths to the symbols of a table: the sum of
`FREQ[s]` times the length (R145). An absent symbol has count 0 and adds nothing. -/
def weightedPathLength (f : FreqRam) (len : Nat → Nat) : Nat :=
  ((List.range 257).map (fun x => (freqAt f x).toNat * len x)).sum

/-- The sum of `CNT` over all internal nodes (R145). -/
def internalCounts (ram : NodeRam) : Nat :=
  ((List.range 256).map (fun k =>
    if (nodeAt ram (257 + k)).valid then (nodeAt ram (257 + k)).cnt.toNat else 0)).sum

/-- A binary prefix code for a table: bit strings for its symbols, none a prefix of another (R145). -/
def PrefixFreeOver (f : FreqRam) (c : Nat → Bits) : Prop :=
  ∀ a b, a < 257 → b < 257 → a ≠ b → freqAt f a ≠ 0 → freqAt f b ≠ 0 → ¬ (c a <+: c b)

/-- No channel holds more items than `CH_DEPTH` allows (R43, R298). -/
def FitsDepth (d : ChDepth) (ch : List Item) : Prop :=
  match d with
  | .unbounded => True
  | .items n => ch.length ≤ n + 1

/-- The capacity invariant of the four channels (R43, R298). -/
structure ChannelsFit (s : State) : Prop where
  sin : FitsDepth s.chDepth s.sin
  bout : FitsDepth s.chDepth s.bout
  bin : FitsDepth s.chDepth s.bin
  sout : FitsDepth s.chDepth s.sout

/-- A run has ended (R236): the host has made its last move, no operation is active and the output
channels are drained. -/
def Ended (s : State) : Prop :=
  s.agenda = [] ∧ s.active = .idle ∧ s.bout = [] ∧ s.sout = []

/-- A run has ended well (R236): it has ended with no error recorded. -/
def EndedWell (s : State) : Prop := Ended s ∧ s.errCode = 0 ∧ s.emult = false

end Sys2Proof.Machine
end

