-- ==== Sys2Proof/Certificates/Slice0/Obligations.lean ====
section
/-! DEFINITION. The statements for the provers, each a formal reading of rules of spec/. A result
statement gives the whole next state as an update of the old one, so it is also the instruction's
frame: every field the update does not name is unchanged. -/

open Sys2Proof Sys2Proof.Machine

/-! ### Encodings -/

/-- R80 to R86, and the register map R62: no bit of an encoding is dropped. -/
def Obligations.DecodeOfEncode : Prop :=
  ∀ i : Instr, WellFormed i = true → decode (encode i) = .ok i

/-- R62, R81, R85: what decodes to an instruction is well formed and is that instruction's own encoding;
an item may differ from it only in the `DATA` bits of an `END`, which are ignored (R85). -/
def Obligations.EncodeOfDecode : Prop :=
  ∀ (sig : Signal) (i : Instr), decode sig = .ok i →
    WellFormed i = true ∧
      (encode i = sig ∨
        ∃ ch it, sig = .item ch it ∧ itemEnd it = true ∧ encode i = .item ch endItem)

/-- Words written out from R80, R81, R85 and R62; and R64: the byte at offset `off + k` is bits
`8k+7 : 8k` of the register. -/
def Obligations.SpecWordsDecode : Prop :=
  decodeCommand 0x00000002#32 = .ok .build ∧
  decodeCommand 0x00000008#32 = .ok .clrErr ∧
  decodeCommandBytes [0x04#8, 0x00#8, 0x00#8, 0x00#8] = .ok .encStart ∧
  decodeCommand 0x00000009#32 = .error (.illegalCommand 0x00000009#32) ∧
  decodeCommand 0x00000102#32 = .error (.illegalCommand 0x00000102#32) ∧
  decodeItem .sin 0b001000001#9 = .sinByte 65#8 ∧
  decodeItem .bin 0b100000000#9 = .binEnd ∧
  decodeItem .bout 0b000011111#9 = .boutByte 0x1F#8 ∧
  decodeItem .sout 0b111111111#9 = .soutEnd ∧
  decode (.busWrite 0x024#12 5#32) = .ok (.wrFreqData 5#32) ∧
  decode (.busWrite 0x018#12 5#32) = .error (.readOnly .root) ∧
  decode (.busRead 0x02C#12) = .ok (.rdWindow .nodeInfo) ∧
  decode (.busRead 0x084#12) = .error (.reservedOffset 0x084#12) ∧
  ∀ (b0 b1 b2 b3 : Byte) (k j : Nat), k < 4 → j < 8 →
    ([b0, b1, b2, b3].getD k 0).getLsbD j = (wordOfBytes b0 b1 b2 b3).getLsbD (8 * k + j) ∧
    byteOfWord (wordOfBytes b0 b1 b2 b3) k = [b0, b1, b2, b3].getD k 0

/-- R88: `pack` and `unpack` bit by bit, and their round trip. -/
def Obligations.PackingInBothOrders : Prop :=
  ∀ ord : Bool,
    (∀ (b : Bits) (k : Nat), b.length = 8 → k < 8 →
      (pack b ord).getLsbD (if ord then 7 - k else k) = b.getD k false) ∧
    (∀ (v : Byte) (k : Nat), k < 8 →
      (unpack v ord).length = 8 ∧
        (unpack v ord).getD k false = v.getLsbD (if ord then 7 - k else k)) ∧
    (∀ b : Bits, b.length = 8 → unpack (pack b ord) ord = b)

/-- R89, R90: the layout of a packed stream. Byte `m` of `ceil(N/8)` carries stream bit `j = 8m + k` at
`pos(j, ord)`, and 0 in the positions past the last bit. -/
def Obligations.PackedStreamLayout : Prop :=
  ∀ (bits : Bits) (ord : Bool),
    (packStream bits ord).length = (bits.length + 7) / 8 ∧
    ∀ j, j < 8 * ((bits.length + 7) / 8) →
      ((packStream bits ord).getD (j / 8) 0).getLsbD (bitPos j ord) =
        if j < bits.length then bits.getD j false else false

/-! ### The error record and acceptance -/

/-- R252; and the nine codes of R250. -/
def Obligations.RaiseKeepsTheFirstError : Prop :=
  ∀ (e : ErrCause) (info : BitVec 16) (s : State),
    (s.errCode = 0 → raise e info s = { s with errCode := e.code, errInfo := info }) ∧
    (s.errCode ≠ 0 → raise e info s = { s with emult := true }) ∧
    (err s = true ↔ s.errCode ≠ 0) ∧
    (err (raise e info s) = true) ∧
    ErrCause.emptyTable.code = 0x01#8 ∧ ErrCause.noEof.code = 0x02#8 ∧
    ErrCause.noTree.code = 0x03#8 ∧ ErrCause.noMap.code = 0x04#8 ∧
    ErrCause.noSym.code = 0x05#8 ∧ ErrCause.trunc.code = 0x06#8 ∧ ErrCause.busy.code = 0x07#8 ∧
    ErrCause.badCmd.code = 0x08#8 ∧ ErrCause.badIndex.code = 0x09#8

/-- R82, R100: the only effect of an illegal command word is `BAD_CMD(w[7:0])`, checked before
everything else. -/
def Obligations.IllegalCommandRaisesBadCmd : Prop :=
  ∀ (s : State) (w : Word) (rest : List HostMove),
    s.agenda = .write 0x008#12 .w32 w :: rest →
    (w.extractLsb' 8 24 ≠ 0#24 ∨ 8 < (w.extractLsb' 0 8).toNat) →
    (s.errCode = 0 →
      step s = .next { s with
        agenda := rest, resp := .written
        errCode := 0x08#8, errInfo := 0#8 ++ w.extractLsb' 0 8 }) ∧
    (s.errCode ≠ 0 →
      step s = .next { s with agenda := rest, resp := .written, emult := true })

/-- R259: an error raised while `ERR` = 1 only sets `EMULT`; every operation command is dropped and sets
`EMULT`; `NOP`, `ABORT`, `CLR_ERR` and the accesses still work. That a read answers in `resp` is the
model's choice (log 7). -/
def Obligations.StickyErrorBlocksCommands : Prop :=
  ∀ s : State, s.errCode ≠ 0 →
    (∀ e info, raise e info s = { s with emult := true }) ∧
    (∀ i, i ∈ [Instr.freqClr, .build, .genmap, .encStart, .decStart, .treeFree] →
      exec i s = .next { s with emult := true }) ∧
    exec .nop s = .next s ∧
    (∃ t, exec .abort s = .next t ∧ t.active = .idle ∧ t.done = false ∧ t.errCode = s.errCode) ∧
    (∃ t, exec .clrErr s = .next t ∧ t.errCode = 0 ∧ t.emult = false) ∧
    (∀ v, exec (.wrFreqIdx v) s = .next { s with freqIdx := v.extractLsb' 0 9 }) ∧
    (∀ v, s.active ≠ .freqClr → s.active ≠ .build → s.freqIdx.toNat ≤ 256 →
      ∃ t, exec (.wrFreqData v) s = .next t ∧ freqAt t.freq s.freqIdx.toNat = v) ∧
    (∀ r, exec (.rdWindow r) s = .next { s with resp := .data (readReg r s) })

/-- R102: acceptance, completion, errors at acceptance and the corner cases. -/
def Obligations.FreqClrEmptiesTheTable : Prop :=
  decodeCommand 0x00000001#32 = .ok .freqClr ∧
  TurnedAway .freqClr 0x0001#16 ∧
  (∀ s : State, Accepts s →
    exec .freqClr s = .next { s with done := false, active := .freqClr, freqIdx := 0 }) ∧
  (∀ s : State, s.active = .freqClr →
    (∃ f : FreqRam, coreStep s = .next { s with freq := f, active := .idle, done := true } ∧
      ∀ i, i < 257 → freqAt f i = 0) ∧
    readReg .freqData s = 0 ∧
    ∀ v, exec (.wrFreqData v) s = .next (raise .busy 0x8024#16 s))

/-- R104. -/
def Obligations.TreeFreeReleasesTheTree : Prop :=
  decodeCommand 0x00000006#32 = .ok .treeFree ∧
  TurnedAway .treeFree 0x0006#16 ∧
  ∀ s : State, Accepts s →
    exec .treeFree s =
      .next { s with done := true, treeValid := false, root := 0, nleaf := 0 } ∧
    ∀ t, exec .treeFree s = .next t →
      readReg .nodeInfo t = 0 ∧ readReg .nodeCntLo t = 0 ∧ readReg .nodeCntHi t = 0 ∧
      exec .genmap t = .next { t with done := false, errCode := 0x03#8, errInfo := 0x0003#16 } ∧
      exec .decStart t = .next { t with done := false, errCode := 0x03#8, errInfo := 0x0005#16 }

/-- R105: in every state. After an abort of `FREQ_CLR` each entry is unchanged or 0; which of the two is
a free value (U5, log 4), and the counter of the draws is the model's own field. That the frame keeps
`E_SINK`, `E_ORD` and `D_ORD` after the session is the model's reading (DEDUCED, log 11), not R105's:
R41 and R42 call them discarded. -/
def Obligations.AbortEndsTheOperation : Prop :=
  decodeCommand 0x00000007#32 = .ok .abort ∧
  ∀ s : State,
    (s.active ≠ .freqClr →
      exec .abort s = .next { s with
        active := .idle
        done := false
        ebuf := if s.active = .encode then [] else s.ebuf
        efin := if s.active = .encode then false else s.efin
        dbuf := if s.active = .decode then [] else s.dbuf }) ∧
    (s.active = .freqClr →
      ∃ (f : FreqRam) (n : Nat),
        exec .abort s = .next { s with active := .idle, done := false, freq := f, draws := n } ∧
        ∀ i, i < 257 → freqAt f i = freqAt s.freq i ∨ freqAt f i = 0)

/-- R101: no effect in every state. R106, R258: the return from an error, in every state. -/
def Obligations.NopAndClrErr : Prop :=
  decodeCommand 0x00000000#32 = .ok .nop ∧ (∀ s : State, exec .nop s = .next s) ∧
  decodeCommand 0x00000008#32 = .ok .clrErr ∧
  ∀ s : State,
    exec .clrErr s = .next { s with errCode := 0, errInfo := 0, emult := false } ∧
    ∀ t, exec .clrErr s = .next t → err t = false ∧ irq t = (ieDone s && s.done)

/-! ### The tree builder -/

/-- R131. -/
def Obligations.BuildAcceptance : Prop :=
  decodeCommand 0x00000002#32 = .ok .build ∧
  TurnedAway .build 0x0002#16 ∧
  ∀ s : State, Accepts s →
    ∃ ram : NodeRam,
      exec .build s = .next { s with
        done := false, treeValid := false, mapValid := false, root := 0, nleaf := 0
        node := ram, active := .build } ∧
      (∀ i, i < 513 → nodeAt ram i = { nodeAt s.node i with valid := false }) ∧
      (s.emult = false →
        ∀ t, exec .build s = .next t → statusWord t = 0x00000201#32)

/-- R139: the two errors of a `BUILD`, in their order, with everything else unchanged. -/
def Obligations.BuildErrorsAbandon : Prop :=
  ∀ s : State, s.active = .build →
    ((∀ i, i < 257 → freqAt s.freq i = 0) →
      coreStep s = .next { raise .emptyTable 0 s with active := .idle }) ∧
    ((∃ i, i < 257 ∧ freqAt s.freq i ≠ 0) → freqAt s.freq 256 = 0 →
      coreStep s = .next { raise .noEof 256#16 s with active := .idle })

/-- R136: the stop condition and the node counts. `n` is the number of table entries. -/
def Obligations.BuildNodeCounts : Prop :=
  ∀ (s : State) (n : Nat), s.active = .build → (∀ i, (nodeAt s.node i).valid = false) →
    freqAt s.freq 256 ≠ 0 →
    n = ((List.range 257).filter (fun i => freqAt s.freq i != 0)).length →
    (buildTree s.freq s.node).2.length = 1 ∧
    ∃ t, coreStep s = .next t ∧ t.nleaf.toNat = n ∧
      (2 ≤ n → t.root.toNat = 257 + n - 2) ∧ (n = 1 → t.root.toNat = 256) ∧
      ((List.range 257).filter (fun i => (nodeAt t.node i).valid)).length = n ∧
      (∀ i, 257 ≤ i → i < 513 → ((nodeAt t.node i).valid = true ↔ i + 1 < 257 + n))

/-- R134, R141: the leaves are the table, whatever non-zero count entry 256 has. -/
def Obligations.BuildLeavesAreTheTable : Prop :=
  ∀ s : State, s.active = .build → (∀ i, (nodeAt s.node i).valid = false) →
    freqAt s.freq 256 ≠ 0 →
    (present s.freq).Pairwise (· < ·) ∧
    ∃ t, coreStep s = .next t ∧
      ∀ i, i < 257 →
        (freqAt s.freq i ≠ 0 →
          nodeAt t.node i =
            { valid := true, internal := false, sym := BitVec.ofNat 9 i,
              cnt := (freqAt s.freq i).setWidth 41, zero := 0, one := 0 }) ∧
        (freqAt s.freq i = 0 → (nodeAt t.node i).valid = false)

/-- R137, R45: a successful `BUILD` leaves the tree invariant and exactly these results. -/
def Obligations.BuildMakesTheTree : Prop :=
  ∀ s : State, s.active = .build → (∀ i, (nodeAt s.node i).valid = false) →
    freqAt s.freq 256 ≠ 0 →
    ∃ (ram : NodeRam) (r : BitVec 10) (n : BitVec 9),
      coreStep s = .next { s with
        node := ram, root := r, nleaf := n, treeValid := true, active := .idle, done := true } ∧
      TreeOk ram r.toNat n.toNat

/-- R133: a removal takes the one element with the smallest key (count, index). -/
def Obligations.PopTakesTheSmallestKey : Prop :=
  ∀ (ram : NodeRam) (q rest : List Nat) (a : Nat), popMin ram q = some (a, rest) →
    a ∈ q ∧ rest = q.erase a ∧
    ∀ b, b ∈ q → b ≠ a →
      (nodeAt ram a).cnt.toNat < (nodeAt ram b).cnt.toNat ∨
        ((nodeAt ram a).cnt.toNat = (nodeAt ram b).cnt.toNat ∧ a < b)

/-- R135: one iteration of the merge loop. -/
def Obligations.MergeStepTakesTheTwoSmallest : Prop :=
  ∀ (fuel k : Nat) (ram : NodeRam) (q : List Nat), q.Nodup → 2 ≤ q.length →
    ∃ a b rest, q.Perm (a :: b :: rest) ∧
      keyLt ram a b = true ∧ (∀ c, c ∈ rest → keyLt ram b c = true) ∧
      ((∀ c, c ∈ q → c < 257 + k) → a < 257 + k ∧ b < 257 + k) ∧
      mergeLoop (fuel + 1) k ram q =
        mergeLoop fuel (k + 1)
          (setNode ram (257 + k)
            { valid := true, internal := true, sym := 257#9
              cnt := (nodeAt ram a).cnt + (nodeAt ram b).cnt
              zero := BitVec.ofNat 10 a, one := BitVec.ofNat 10 b })
          ((257 + k) :: rest)

/-- R140: no addition of a `BUILD` overflows 41 bits, and the root's count is the sum of the table. -/
def Obligations.BuildCountsAreExact : Prop :=
  ∀ s : State, s.active = .build → (∀ i, (nodeAt s.node i).valid = false) →
    freqAt s.freq 256 ≠ 0 →
    ∃ t, coreStep s = .next t ∧
      (nodeAt t.node t.root.toNat).cnt.toNat =
        ((List.range 257).map (fun i => (freqAt s.freq i).toNat)).sum ∧
      (∀ i, i < 257 → (nodeAt t.node i).valid = true →
        (nodeAt t.node i).cnt = (freqAt s.freq i).setWidth 41) ∧
      ∀ i, 257 ≤ i → i < 513 → (nodeAt t.node i).valid = true →
        (nodeAt t.node i).cnt.toNat =
          (nodeAt t.node (nodeAt t.node i).zero.toNat).cnt.toNat +
            (nodeAt t.node (nodeAt t.node i).one.toNat).cnt.toNat ∧
        (nodeAt t.node i).cnt.toNat ≤ 257 * (2 ^ 32 - 1)

/-- R144: the tree is a function of the table alone. -/
def Obligations.BuildIsAFunctionOfTheTable : Prop :=
  ∀ s s' : State, s.active = .build → s'.active = .build →
    (∀ i, (nodeAt s.node i).valid = false) → (∀ i, (nodeAt s'.node i).valid = false) →
    freqAt s.freq 256 ≠ 0 → s.freq = s'.freq →
    ∃ t t', coreStep s = .next t ∧ coreStep s' = .next t' ∧
      t.root = t'.root ∧ t.nleaf = t'.nleaf ∧
      ∀ i, (nodeAt t.node i).valid = (nodeAt t'.node i).valid ∧
        ((nodeAt t.node i).valid = true → nodeAt t.node i = nodeAt t'.node i)

/-- R145: the weighted path length of a tree's code is the sum of the internal counts. -/
def Obligations.WeightedPathLengthIsTheSumOfCounts : Prop :=
  ∀ s : State, s.active = .build → (∀ i, (nodeAt s.node i).valid = false) →
    freqAt s.freq 256 ≠ 0 →
    ∃ (t : State) (rom : CodeRom), coreStep s = .next t ∧ genMap t.node t.root.toNat = some rom ∧
      weightedPathLength s.freq (fun x => (codeAt rom x).len.toNat) = internalCounts t.node

/-- R145: the code of the tree that `BUILD` makes is optimal. No prefix-free assignment of bit strings to
the symbols of the table has a smaller weighted path length, whatever the counts. -/
def Obligations.BuildIsOptimal : Prop :=
  ∀ s : State, s.active = .build → (∀ i, (nodeAt s.node i).valid = false) →
    freqAt s.freq 256 ≠ 0 →
    ∃ (t : State) (rom : CodeRom), coreStep s = .next t ∧ genMap t.node t.root.toNat = some rom ∧
      ∀ c : Nat → Bits, PrefixFreeOver s.freq c →
        weightedPathLength s.freq (fun x => (codeAt rom x).len.toNat) ≤
          weightedPathLength s.freq (fun x => (c x).length)

/-! ### The encoding map generator -/

/-- R151, with its corner case: one tree gives the same map twice. -/
def Obligations.GenmapAcceptance : Prop :=
  decodeCommand 0x00000003#32 = .ok .genmap ∧
  TurnedAway .genmap 0x0003#16 ∧
  (∀ s : State, Accepts s →
    (s.treeValid = false →
      exec .genmap s = .next { s with done := false, errCode := 0x03#8, errInfo := 0x0003#16 }) ∧
    (s.treeValid = true →
      exec .genmap s = .next { s with done := false, mapValid := false, active := .genmap })) ∧
  ∀ s s' t t' : State, s.active = .genmap → s'.active = .genmap → s.node = s'.node →
    s.root = s'.root → coreStep s = .next t → coreStep s' = .next t' → t.code = t'.code

/-- R153, R154: the valid codes are exactly the leaf symbols, every other entry is {0, 0, 0}, and the
code of a symbol is the one path from the root to its leaf. -/
def Obligations.GenmapRecordsEveryLeaf : Prop :=
  ∀ s : State, s.active = .genmap → TreeOk s.node s.root.toNat s.nleaf.toNat →
    ∃ rom : CodeRom,
      coreStep s = .next { s with code := rom, mapValid := true, active := .idle, done := true } ∧
      ∀ x, x < 257 →
        (codeAt rom x).valid = (nodeAt s.node x).valid ∧
        ((nodeAt s.node x).valid = false → codeAt rom x = noCode) ∧
        ((nodeAt s.node x).valid = true →
          follow s.node s.root.toNat (codeString (codeAt rom x)) = some x ∧
          ∀ p, follow s.node s.root.toNat p = some x → p = codeString (codeAt rom x))

/-- R155, R156: every code length is the depth of its leaf and at most `NLEAF` - 1 and 256, the bits past
it are 0, and the code of a one-leaf tree is empty. -/
def Obligations.CodeLengthsAreBounded : Prop :=
  ∀ s : State, s.active = .genmap → TreeOk s.node s.root.toNat s.nleaf.toNat →
    ∃ t, coreStep s = .next t ∧
      (∀ x, x < 257 → (codeAt t.code x).valid = true →
        (codeAt t.code x).len.toNat + 1 ≤ s.nleaf.toNat ∧ (codeAt t.code x).len.toNat ≤ 256 ∧
        (∃ p, follow s.node s.root.toNat p = some x ∧ p.length = (codeAt t.code x).len.toNat) ∧
        ∀ j, (codeAt t.code x).len.toNat ≤ j → (codeAt t.code x).bits.getLsbD j = false) ∧
      (s.nleaf.toNat = 1 →
        codeAt t.code 256 = { valid := true, len := 0, bits := 0 } ∧ encodedBits t.code [] = [])

/-- R157, R46: the map of a tree is prefix free. -/
def Obligations.MapIsPrefixFree : Prop :=
  ∀ s : State, s.active = .genmap → TreeOk s.node s.root.toNat s.nleaf.toNat →
    ∃ t, coreStep s = .next t ∧ MapOk t.code

/-! ### The encoder -/

/-- R171. -/
def Obligations.EncStartOpensASession : Prop :=
  decodeCommand 0x00000004#32 = .ok .encStart ∧
  TurnedAway .encStart 0x0004#16 ∧
  ∀ s : State, Accepts s →
    (s.mapValid = false →
      exec .encStart s = .next { s with done := false, errCode := 0x04#8, errInfo := 0x0004#16 }) ∧
    (s.mapValid = true →
      exec .encStart s = .next { s with
        done := false, encBitCnt := 0, encSymCnt := 0
        eSink := s.ctrl.getLsbD 0, eOrd := s.ctrl.getLsbD 1
        ebuf := [], efin := false, active := .encode })

/-- R172, R179: taking a data byte, with and without a code. That the frame of the `NOSYM` clause keeps
`EFIN`, `E_SINK` and `E_ORD` after the session is the model's reading (DEDUCED, log 11): R41 calls them
discarded. -/
def Obligations.EncoderTakesAByte : Prop :=
  ∀ (s : State) (it : Item) (v : Byte) (rest : List Item),
    s.active = .encode → s.efin = false → s.ebuf.length < 8 →
    s.sin = it :: rest → itemEnd it = false → itemData it = v →
    ((codeAt s.code v.toNat).valid = true →
      exec (.sinByte v) s = .next { s with
        sin := rest
        ebuf := if s.eSink then s.ebuf ++ codeString (codeAt s.code v.toNat) else s.ebuf
        encBitCnt := s.encBitCnt + (codeAt s.code v.toNat).len.setWidth 64
        encSymCnt := s.encSymCnt + 1 } ∧
      (MapOk s.code →
        (codeAt s.code v.toNat).len ≠ 0 ∧
        ∀ t, exec (.sinByte v) s = .next t → t.ebuf.length ≤ 263)) ∧
    ((codeAt s.code v.toNat).valid = false →
      exec (.sinByte v) s = .next { raise .noSym (0#8 ++ v) s with
        sin := rest, ebuf := [], active := .idle })

/-- R173: taking the end of input; after it no step of the session reads `SIN` again. -/
def Obligations.EncoderTakesTheEnd : Prop :=
  (∀ (s : State) (it : Item) (rest : List Item),
    s.active = .encode → s.efin = false → s.ebuf.length < 8 →
    s.sin = it :: rest → itemEnd it = true →
    exec .sinEnd s = .next { s with
      sin := rest
      ebuf := if s.eSink then s.ebuf ++ codeString (codeAt s.code 256) else s.ebuf
      encBitCnt := s.encBitCnt + (codeAt s.code 256).len.setWidth 64
      efin := true }) ∧
  ∀ u : State, u.efin = true →
    (∀ v, encodeStep u ≠ some (.sinByte v)) ∧ encodeStep u ≠ some .sinEnd

/-- R174: putting a full byte, the only step enabled while |`EBUF`| >= 8, whatever `SIN` holds. R175:
putting the padded last byte. -/
def Obligations.EncoderPutsBytes : Prop :=
  (∀ s : State, s.active = .encode → s.eSink = true → 8 ≤ s.ebuf.length →
    encodeStep s = some (.boutByte (pack (s.ebuf.take 8) s.eOrd)) ∧
    (canAccept s.chDepth s.bout = true →
      exec (.boutByte (pack (s.ebuf.take 8) s.eOrd)) s = .next { s with
        bout := s.bout ++ [byteItem (pack (s.ebuf.take 8) s.eOrd)], ebuf := s.ebuf.drop 8 })) ∧
  ∀ s : State, s.active = .encode → s.eSink = true → s.efin = true →
    0 < s.ebuf.length → s.ebuf.length < 8 → canAccept s.chDepth s.bout = true →
    ∀ v, v = pack (s.ebuf ++ List.replicate (8 - s.ebuf.length) false) s.eOrd →
      exec (.boutByte v) s = .next { s with bout := s.bout ++ [byteItem v], ebuf := [] }

/-- R176, R177: closing the stream, in sink mode with `END` and in counting mode with nothing put.
That the frame keeps `EFIN`, `E_SINK` and `E_ORD` after the session is the model's reading (DEDUCED, log
11): R41 calls them discarded. -/
def Obligations.EncoderClosesTheStream : Prop :=
  ∀ s : State, s.active = .encode → s.efin = true → s.ebuf = [] →
    (s.eSink = true → canAccept s.chDepth s.bout = true →
      exec .boutEnd s = .next { s with
        bout := s.bout ++ [0x100#9], active := .idle, done := true }) ∧
    (s.eSink = false → exec .boutEnd s = .next { s with active := .idle, done := true })

/-- R180, R181, R183: what a successful session over the bytes `v_1 .. v_m` produces, in sink mode and in
counting mode (R177), whatever the channels held before and however long the input. -/
def Obligations.EncodeSessionOutput : Prop :=
  ∀ (s : State) (bytes : List Byte) (it : Item) (rest : List Item),
    s.active = .encode → s.efin = false → s.ebuf = [] → s.encBitCnt = 0 → s.encSymCnt = 0 →
    s.agenda = [] → s.chDepth = .unbounded →
    s.sin = bytes.map byteItem ++ it :: rest → itemEnd it = true →
    (∀ v, v ∈ bytes → (codeAt s.code v.toNat).valid = true) →
    ∃ (k : Nat) (t : State), Sys2Proof.core.run k s = .next t ∧
      t.active = .idle ∧ t.done = true ∧ t.sin = rest ∧ t.errCode = s.errCode ∧
      t.bout = (if s.eSink then
        s.bout ++ (packStream (encodedBits s.code bytes) s.eOrd).map byteItem ++ [endItem]
        else s.bout) ∧
      t.encBitCnt = BitVec.ofNat 64 (encodedBits s.code bytes).length ∧
      t.encSymCnt = BitVec.ofNat 64 bytes.length

/-! ### The decoder -/

/-- R201. -/
def Obligations.DecStartOpensASession : Prop :=
  decodeCommand 0x00000005#32 = .ok .decStart ∧
  TurnedAway .decStart 0x0005#16 ∧
  ∀ s : State, Accepts s →
    (s.treeValid = false →
      exec .decStart s = .next { s with done := false, errCode := 0x03#8, errInfo := 0x0005#16 }) ∧
    (s.treeValid = true →
      exec .decStart s = .next { s with
        done := false, decBitCnt := 0, decSymCnt := 0, dOrd := s.ctrl.getLsbD 1
        dbuf := [], decCur := s.root, active := .decode })

/-- R202: exactly one row of the table applies in each state of an active session, and `DEC_CUR` always
names a valid node. -/
def Obligations.DecodeStepSelection : Prop :=
  ∀ s : State, Inv s → s.active = .decode →
    (nodeAt s.node s.decCur.toNat).valid = true ∧
    (((nodeAt s.node s.decCur.toNat).sym = 256#9 ∧ decodeStep s = .channel .soutEnd) ∨
     ((nodeAt s.node s.decCur.toNat).sym.toNat < 256 ∧
       decodeStep s =
         .channel (.soutByte ((nodeAt s.node s.decCur.toNat).sym.extractLsb' 0 8))) ∨
     ((nodeAt s.node s.decCur.toNat).sym = 257#9 ∧ s.dbuf = [] ∧
       (s.bin = [] → decodeStep s = .wait) ∧
       (∀ it rest, s.bin = it :: rest → decodeStep s = .channel (decodeItem .bin it))) ∨
     ((nodeAt s.node s.decCur.toNat).sym = 257#9 ∧ s.dbuf ≠ [] ∧ decodeStep s = .bit))

/-- R203: emitting a symbol. -/
def Obligations.DecoderEmitsASymbol : Prop :=
  ∀ (s : State) (v : Byte), s.active = .decode →
    (nodeAt s.node s.decCur.toNat).sym = 0#1 ++ v → canAccept s.chDepth s.sout = true →
    exec (.soutByte v) s = .next { s with
      sout := s.sout ++ [0#1 ++ v], decSymCnt := s.decSymCnt + 1, decCur := s.root }

/-- R204, R210: taking an item where a bit is needed: 8 bits of a byte, or `TRUNC` at `END`.
That the frame of the `END` clause keeps `D_ORD` after the session is the model's reading (DEDUCED, log
11): R42 calls it discarded. -/
def Obligations.DecoderTakesAnItem : Prop :=
  ∀ (s : State) (it : Item) (rest : List Item), s.active = .decode →
    (nodeAt s.node s.decCur.toNat).sym = 257#9 → s.dbuf = [] → s.bin = it :: rest →
    (itemEnd it = false →
      exec (.binByte (itemData it)) s = .next { s with
        bin := rest, dbuf := unpack (itemData it) s.dOrd }) ∧
    (itemEnd it = true →
      exec .binEnd s = .next { raise .trunc (0#6 ++ s.decCur) s with
        bin := rest, dbuf := [], active := .idle })

/-- R205: consuming one bit. -/
def Obligations.DecoderConsumesABit : Prop :=
  ∀ (s : State) (b : Bool) (rest : Bits), s.active = .decode → s.decCur.toNat ≤ 512 →
    (nodeAt s.node s.decCur.toNat).sym = 257#9 → s.dbuf = b :: rest →
    coreStep s = .next { s with
      dbuf := rest, decBitCnt := s.decBitCnt + 1
      decCur := if b = false then (nodeAt s.node s.decCur.toNat).zero
        else (nodeAt s.node s.decCur.toNat).one }

/-- R206, R209: the end-of-stream leaf completes the session; the bits left are discarded and the later
items stay on `BIN`. `DEC_CUR` is 256 (R206), in every state of the invariant. That the frame keeps
`D_ORD` after the session is the model's reading (DEDUCED, log 11): R42 calls it discarded. -/
def Obligations.DecoderEndsAtTheEosLeaf : Prop :=
  ∀ s : State, s.active = .decode → (nodeAt s.node s.decCur.toNat).sym = 256#9 →
    canAccept s.chDepth s.sout = true →
    exec .soutEnd s = .next { s with
      sout := s.sout ++ [0x100#9], dbuf := [], active := .idle, done := true } ∧
    (Inv s → s.decCur = 256#10)

/-- R207: with a root that is a leaf the first step completes the session; a root that is an ordinary
leaf does not exist. -/
def Obligations.RootLeafDecodesToNothing : Prop :=
  ∀ s : State, Inv s → Accepts s → s.treeValid = true →
    256 ≤ (nodeAt s.node s.root.toNat).sym.toNat ∧
    (s.root = 256 → canAccept s.chDepth s.sout = true →
      ∃ t u, exec .decStart s = .next t ∧ coreStep t = .next u ∧
        u.active = .idle ∧ u.done = true ∧ u.sout = s.sout ++ [endItem] ∧ u.bin = s.bin ∧
        u.decBitCnt = 0 ∧ u.decSymCnt = 0 ∧ u.decCur = 256)

/-- R213, R209, R211: a decode session over a tree, given the packed codes of some bytes by the map of
that tree, puts the bytes and `END`, and leaves every later item on `BIN`. -/
def Obligations.DecodeSessionRecoversTheBytes : Prop :=
  ∀ (s : State) (rom : CodeRom) (bytes : List Byte) (rest : List Item),
    TreeOk s.node s.root.toNat s.nleaf.toNat → genMap s.node s.root.toNat = some rom →
    s.active = .decode → s.decCur = s.root → s.dbuf = [] → s.decBitCnt = 0 → s.decSymCnt = 0 →
    s.agenda = [] → s.chDepth = .unbounded →
    (∀ v, v ∈ bytes → (codeAt rom v.toNat).valid = true) →
    s.bin = (packStream (encodedBits rom bytes) s.dOrd).map byteItem ++ rest →
    ∃ (k : Nat) (t : State), Sys2Proof.core.run k s = .next t ∧
      t.active = .idle ∧ t.done = true ∧ t.bin = rest ∧ t.errCode = s.errCode ∧
      t.sout = s.sout ++ bytes.map byteItem ++ [endItem] ∧ t.decCur = 256 ∧
      t.decBitCnt = BitVec.ofNat 64 (encodedBits rom bytes).length ∧
      t.decSymCnt = BitVec.ofNat 64 bytes.length

/-- R213: the round trip. The decode session runs in a state of its own, given the items the encode
session put, and the two use one bit order. -/
def Obligations.RoundTrip : Prop :=
  ∀ (s d : State) (bytes : List Byte) (rest : List Item),
    TreeOk d.node d.root.toNat d.nleaf.toNat → genMap d.node d.root.toNat = some s.code →
    s.active = .encode → s.efin = false → s.ebuf = [] → s.eSink = true → s.bout = [] →
    s.encBitCnt = 0 → s.encSymCnt = 0 → s.agenda = [] → s.chDepth = .unbounded →
    s.sin = bytes.map byteItem ++ endItem :: rest →
    (∀ v, v ∈ bytes → (codeAt s.code v.toNat).valid = true) →
    d.active = .decode → d.decCur = d.root → d.dbuf = [] → d.dOrd = s.eOrd →
    d.decBitCnt = 0 → d.decSymCnt = 0 → d.agenda = [] → d.chDepth = .unbounded → d.sout = [] →
    ∃ (k : Nat) (t : State), Sys2Proof.core.run k s = .next t ∧ t.active = .idle ∧ t.done = true ∧
      ∃ (k' : Nat) (u : State), Sys2Proof.core.run k' { d with bin := t.bout } = .next u ∧
        u.active = .idle ∧ u.done = true ∧ u.sout = bytes.map byteItem ++ [endItem] ∧
        u.decBitCnt = t.encBitCnt ∧ u.decSymCnt = t.encSymCnt

/-! ### Registers and windows -/

/-- R110. -/
def Obligations.FreqDataWrite : Prop :=
  ∀ (s : State) (v : Word),
    decode (.busWrite 0x024#12 v) = .ok (.wrFreqData v) ∧
    ((s.active = .freqClr ∨ s.active = .build) →
      exec (.wrFreqData v) s = .next (raise .busy 0x8024#16 s)) ∧
    (s.active ≠ .freqClr → s.active ≠ .build → 256 < s.freqIdx.toNat →
      exec (.wrFreqData v) s = .next (raise .badIndex (0#7 ++ s.freqIdx) s)) ∧
    (s.active ≠ .freqClr → s.active ≠ .build → s.freqIdx.toNat ≤ 256 →
      ∃ (f : FreqRam) (x : BitVec 9),
        exec (.wrFreqData v) s = .next { s with freq := f, freqIdx := x } ∧
        x.toNat = s.freqIdx.toNat + 1 ∧ x.toNat ≤ 257 ∧
        ∀ i, i < 257 → freqAt f i = if i = s.freqIdx.toNat then v else freqAt s.freq i)

/-- R109, R84: the control and index writes, in every state. -/
def Obligations.ControlAndIndexWrites : Prop :=
  ∀ (s : State) (v : Word),
    exec (.wrCtrl v) s = .next { s with ctrl := v.extractLsb' 0 4 } ∧
    exec (.wrFreqIdx v) s = .next { s with freqIdx := v.extractLsb' 0 9 } ∧
    exec (.wrNodeIdx v) s = .next { s with nodeIdx := v.extractLsb' 0 10 } ∧
    exec (.wrCodeIdx v) s = .next { s with codeIdx := v.extractLsb' 0 9 } ∧
    decode (.busWrite 0x004#12 v) = .ok (.wrCtrl v) ∧
    decode (.busWrite 0x020#12 v) = .ok (.wrFreqIdx v) ∧
    decode (.busWrite 0x028#12 v) = .ok (.wrNodeIdx v) ∧
    decode (.busWrite 0x038#12 v) = .ok (.wrCodeIdx v)

/-- R111, R66: no read raises an error, changes an index or changes any other state; and the value of
every register that is no window and not `STATUS` (R22 to R38, R108). The answer in `resp` is the
model's choice (log 7), the agenda too (log 1). -/
def Obligations.ReadsGiveTheRegisters : Prop :=
  (∀ (s : State) (r : Reg), exec (.rdWindow r) s = .next { s with resp := .data (readReg r s) }) ∧
  (∀ (s : State) (r : Reg) (rest : List HostMove),
    s.agenda = .read r.offset .w32 :: rest →
    step s = .next { s with agenda := rest, resp := .data (readReg r s) }) ∧
  ∀ s : State,
    readReg .id s = 0x48554601#32 ∧ readReg .cmd s = 0 ∧
    (readReg .ctrl s).toNat = s.ctrl.toNat ∧
    (readReg .errCode s).toNat = s.errCode.toNat ∧
    (readReg .errInfo s).toNat = s.errInfo.toNat ∧
    (readReg .root s).toNat = s.root.toNat ∧
    (readReg .nleaf s).toNat = s.nleaf.toNat ∧
    (readReg .freqIdx s).toNat = s.freqIdx.toNat ∧
    (readReg .nodeIdx s).toNat = s.nodeIdx.toNat ∧
    (readReg .codeIdx s).toNat = s.codeIdx.toNat ∧
    (readReg .decCur s).toNat = s.decCur.toNat ∧
    readReg .encBitCntHi s ++ readReg .encBitCntLo s = s.encBitCnt ∧
    readReg .encSymCntHi s ++ readReg .encSymCntLo s = s.encSymCnt ∧
    readReg .decBitCntHi s ++ readReg .decBitCntLo s = s.decBitCnt ∧
    readReg .decSymCntHi s ++ readReg .decSymCntLo s = s.decSymCnt

/-- R31, R33, R35: what the three windows show. -/
def Obligations.WindowsShowTheArrays : Prop :=
  ∀ s : State,
    readReg .freqData s =
      (if 257 ≤ s.freqIdx.toNat ∨ s.active = .freqClr then 0 else freqAt s.freq s.freqIdx.toNat) ∧
    (∀ n, n = nodeAt s.node s.nodeIdx.toNat →
      (s.treeValid = true ∧ s.nodeIdx.toNat ≤ 512 ∧ n.valid = true →
        (readReg .nodeInfo s).extractLsb' 0 9 = n.sym ∧
        (readReg .nodeInfo s).extractLsb' 9 10 = n.zero ∧
        (readReg .nodeInfo s).extractLsb' 19 10 = n.one ∧
        (readReg .nodeInfo s).getLsbD 29 = n.internal ∧
        (readReg .nodeInfo s).getLsbD 30 = true ∧ (readReg .nodeInfo s).getLsbD 31 = false ∧
        readReg .nodeCntLo s = n.cnt.extractLsb' 0 32 ∧
        (readReg .nodeCntHi s).extractLsb' 0 9 = n.cnt.extractLsb' 32 9 ∧
        (readReg .nodeCntHi s).extractLsb' 9 23 = 0) ∧
      (¬ (s.treeValid = true ∧ s.nodeIdx.toNat ≤ 512 ∧ n.valid = true) →
        readReg .nodeInfo s = 0 ∧ readReg .nodeCntLo s = 0 ∧ readReg .nodeCntHi s = 0)) ∧
    (∀ c, c = codeAt s.code s.codeIdx.toNat →
      (s.mapValid = true ∧ s.codeIdx.toNat ≤ 256 →
        (readReg .codeInfo s).extractLsb' 0 9 = c.len ∧
        (readReg .codeInfo s).getLsbD 16 = c.valid ∧
        (readReg .codeInfo s).extractLsb' 9 7 = 0 ∧ (readReg .codeInfo s).extractLsb' 17 15 = 0 ∧
        ∀ (k : Fin 8) (j : Nat), j < 32 →
          (readReg (.codeBits k) s).getLsbD j = c.bits.getLsbD (32 * k.val + j)) ∧
      (¬ (s.mapValid = true ∧ s.codeIdx.toNat ≤ 256) →
        readReg .codeInfo s = 0 ∧ ∀ k, readReg (.codeBits k) s = 0))

/-- R63: reserved offsets, writes to read-only registers, the read of `CMD`. -/
def Obligations.ReservedOffsetsAreIgnored : Prop :=
  (∀ (s : State) (off : Offset) (rest : List HostMove),
    0x084#12 ≤ off → off.extractLsb' 0 2 = 0#2 →
    (s.agenda = .read off .w32 :: rest →
      step s = .next { s with agenda := rest, resp := .data 0 }) ∧
    (∀ v, s.agenda = .write off .w32 v :: rest →
      step s = .next { s with agenda := rest, resp := .written })) ∧
  (∀ (s : State) (r : Reg) (v : Word) (rest : List HostMove),
    r ∉ [Reg.ctrl, .cmd, .freqIdx, .freqData, .nodeIdx, .codeIdx] →
    s.agenda = .write r.offset .w32 v :: rest →
    step s = .next { s with agenda := rest, resp := .written }) ∧
  (∀ s : State, readReg .cmd s = 0)

/-- R65, R260: an access that is not 32 bits wide, or not aligned, gets a bus error and changes no
HUFCORE state; a read returns 0 together with the error. `resp` is the host's side (log 7). -/
def Obligations.BusErrorsChangeNothing : Prop :=
  ∀ (s : State) (off : Offset) (width : Width) (rest : List HostMove),
    (width ≠ .w32 ∨ off.toNat % 4 ≠ 0) →
    (s.agenda = .read off width :: rest →
      step s = .next { s with agenda := rest, resp := .busError (some 0) }) ∧
    (∀ v, s.agenda = .write off width v :: rest →
      step s = .next { s with agenda := rest, resp := .busError none })

/-- R25: the fields of `STATUS`, with `BUSY` and `ERR` computed. -/
def Obligations.StatusFields : Prop :=
  ∀ s : State,
    (readReg .status s).getLsbD 0 = decide (s.active ≠ .idle) ∧
    (readReg .status s).getLsbD 1 = s.treeValid ∧
    (readReg .status s).getLsbD 2 = s.mapValid ∧
    (readReg .status s).getLsbD 3 = s.done ∧
    (readReg .status s).getLsbD 4 = decide (s.errCode ≠ 0) ∧
    (readReg .status s).getLsbD 5 = s.emult ∧
    (readReg .status s).extractLsb' 6 2 = 0 ∧
    (readReg .status s).extractLsb' 8 3 =
      (match s.active with
        | .idle => 0#3
        | .freqClr => 1#3
        | .build => 2#3
        | .genmap => 3#3
        | .encode => 4#3
        | .decode => 5#3) ∧
    (readReg .status s).extractLsb' 11 21 = 0

/-- R44: the interrupt level; it is 0 after reset. -/
def Obligations.IrqIsALevel : Prop :=
  (∀ s : State, irq s = true ↔
    (s.ctrl.getLsbD 2 = true ∧ s.done = true) ∨ (s.ctrl.getLsbD 3 = true ∧ s.errCode ≠ 0)) ∧
  irq State.reset = false

/-- R280, R281, R282: reset sets every item to its reset value, whatever the state before; the platform
chooses, per channel, whether it empties it. The contents of the three arrays are free (U2, U3), and
nothing is said of them. -/
def Obligations.ResetValues : Prop :=
  ∀ (s : State) (a b c d : Bool) (rest : List HostMove),
    s.agenda = .reset a b c d :: rest →
    ∃ t, step s = .next t ∧
      readReg .id t = 0x48554601#32 ∧ readReg .ctrl t = 0x00000001#32 ∧ readReg .cmd t = 0 ∧
      readReg .status t = 0 ∧
      readReg .errCode t = 0 ∧ readReg .errInfo t = 0 ∧ readReg .root t = 0 ∧
      readReg .nleaf t = 0 ∧ readReg .freqIdx t = 0 ∧ readReg .nodeIdx t = 0 ∧
      readReg .codeIdx t = 0 ∧
      t.encBitCnt = 0 ∧ t.encSymCnt = 0 ∧ t.decBitCnt = 0 ∧ t.decSymCnt = 0 ∧ t.decCur = 0 ∧
      t.ebuf = [] ∧ t.efin = false ∧ t.eSink = true ∧ t.eOrd = false ∧ t.dbuf = [] ∧
      t.dOrd = false ∧ irq t = false ∧
      t.sin = (if a then [] else s.sin) ∧ t.bout = (if b then [] else s.bout) ∧
      t.bin = (if c then [] else s.bin) ∧ t.sout = (if d then [] else s.sout)

/-! ### Waiting -/

/-- R43, R182, R214: a channel step that is not enabled changes nothing (log 8). An item stays queued
while no session takes it, a session waits while its output channel is full, and inside a session a step
for another item, another byte or another state of the session does nothing (log 9). -/
def Obligations.DisabledStepsWait : Prop :=
  (∀ s : State, s.active ≠ .encode →
    (∀ v, exec (.sinByte v) s = .next s ∧ exec (.boutByte v) s = .next s) ∧
    exec .sinEnd s = .next s ∧ exec .boutEnd s = .next s) ∧
  (∀ s : State, s.active ≠ .decode →
    (∀ v, exec (.binByte v) s = .next s ∧ exec (.soutByte v) s = .next s) ∧
    exec .binEnd s = .next s ∧ exec .soutEnd s = .next s) ∧
  (∀ s : State, s.efin = true ∨ 8 ≤ s.ebuf.length →
    (∀ v, exec (.sinByte v) s = .next s) ∧ exec .sinEnd s = .next s) ∧
  (∀ (s : State) (v : Byte),
    (∀ it rest, s.sin = it :: rest → itemEnd it = true ∨ itemData it ≠ v) →
    exec (.sinByte v) s = .next s) ∧
  (∀ s : State, (∀ it rest, s.sin = it :: rest → itemEnd it = false) →
    exec .sinEnd s = .next s) ∧
  (∀ (s : State) (v : Byte),
    (s.eSink = false ∨ v ≠ pack (s.ebuf.take 8) s.eOrd ∨
      (s.ebuf.length < 8 ∧ (s.efin = false ∨ s.ebuf = []))) →
    exec (.boutByte v) s = .next s) ∧
  (∀ s : State, s.efin = false ∨ s.ebuf ≠ [] → exec .boutEnd s = .next s) ∧
  (∀ s : State, s.eSink = true → canAccept s.chDepth s.bout = false →
    (∀ v, exec (.boutByte v) s = .next s) ∧ exec .boutEnd s = .next s) ∧
  (∀ s : State, (nodeAt s.node s.decCur.toNat).sym ≠ 257#9 ∨ s.dbuf ≠ [] →
    (∀ v, exec (.binByte v) s = .next s) ∧ exec .binEnd s = .next s) ∧
  (∀ (s : State) (v : Byte),
    (∀ it rest, s.bin = it :: rest → itemEnd it = true ∨ itemData it ≠ v) →
    exec (.binByte v) s = .next s) ∧
  (∀ s : State, (∀ it rest, s.bin = it :: rest → itemEnd it = false) →
    exec .binEnd s = .next s) ∧
  (∀ (s : State) (v : Byte), (nodeAt s.node s.decCur.toNat).sym ≠ 0#1 ++ v →
    exec (.soutByte v) s = .next s) ∧
  (∀ s : State, (nodeAt s.node s.decCur.toNat).sym ≠ 256#9 → exec .soutEnd s = .next s) ∧
  (∀ s : State, canAccept s.chDepth s.sout = false →
    (∀ v, exec (.soutByte v) s = .next s) ∧ exec .soutEnd s = .next s) ∧
  (∀ s : State, s.active = .encode → s.efin = false → s.ebuf.length < 8 → s.sin = [] →
    coreStep s = .next s) ∧
  (∀ s : State, s.active = .decode → s.decCur.toNat ≤ 512 →
    (nodeAt s.node s.decCur.toNat).sym = 257#9 → s.dbuf = [] → s.bin = [] →
    coreStep s = .next s)

/-! ### The whole machine -/

/-- A step runs the decoded instruction: a register access of the agenda, or the channel item that the
core's turn takes or puts. Around `exec` the step removes the move from the agenda, and a write is
answered before the instruction runs (log 7). -/
def Obligations.StepRunsTheInstruction : Prop :=
  (∀ (s : State) (off : Offset) (v : Word) (i : Instr) (rest : List HostMove),
    s.agenda = .write off .w32 v :: rest → off.toNat % 4 = 0 →
    decode (.busWrite off v) = .ok i →
    step s = exec i { s with agenda := rest, resp := .written }) ∧
  (∀ (s : State) (off : Offset) (i : Instr) (rest : List HostMove),
    s.agenda = .read off .w32 :: rest → off.toNat % 4 = 0 → decode (.busRead off) = .ok i →
    step s = exec i { s with agenda := rest }) ∧
  (∀ (s : State) (rest : List HostMove), s.agenda = .core :: rest →
    step s = coreStep { s with agenda := rest }) ∧
  (∀ s : State, s.agenda = [] → step s = coreStep s) ∧
  (∀ (s : State) (it : Item) (rest : List Item), s.active = .encode → s.efin = false →
    s.ebuf.length < 8 → s.sin = it :: rest → coreStep s = exec (decodeItem .sin it) s) ∧
  (∀ s : State, s.active = .encode → s.eSink = true → 8 ≤ s.ebuf.length →
    coreStep s = exec (.boutByte (pack (s.ebuf.take 8) s.eOrd)) s) ∧
  (∀ s : State, s.active = .encode → s.eSink = true → s.efin = true → 0 < s.ebuf.length →
    s.ebuf.length < 8 → coreStep s = exec (.boutByte (pack s.ebuf s.eOrd)) s) ∧
  (∀ s : State, s.active = .encode → s.efin = true → s.ebuf = [] →
    coreStep s = exec .boutEnd s) ∧
  (∀ (s : State) (it : Item) (rest : List Item), s.active = .decode → s.decCur.toNat ≤ 512 →
    (nodeAt s.node s.decCur.toNat).sym = 257#9 → s.dbuf = [] → s.bin = it :: rest →
    coreStep s = exec (decodeItem .bin it) s) ∧
  (∀ (s : State) (v : Byte), s.active = .decode → s.decCur.toNat ≤ 512 →
    (nodeAt s.node s.decCur.toNat).sym = 0#1 ++ v → coreStep s = exec (.soutByte v) s) ∧
  (∀ s : State, s.active = .decode → s.decCur.toNat ≤ 512 →
    (nodeAt s.node s.decCur.toNat).sym = 256#9 → coreStep s = exec .soutEnd s)

/-- R26, R27: once an error is recorded, only `CLR_ERR` and reset change `ERRCODE` and `ERRINFO`. -/
def Obligations.ErrorRecordIsSticky : Prop :=
  ∀ s t : State, s.errCode ≠ 0 → step s = .next t →
    (t.errCode = s.errCode ∧ t.errInfo = s.errInfo) ∨
    (∃ rest, s.agenda = .write 0x008#12 .w32 0x00000008#32 :: rest) ∨
    (∃ a b c d rest, s.agenda = .reset a b c d :: rest)

/-- R107: `DONE` is set only by a completion, and then no operation is active and the error record is
unchanged; it is cleared only by the acceptance of an operation command, by `ABORT` or by reset. -/
def Obligations.DoneIsSetByCompletionOnly : Prop :=
  ∀ s t : State, step s = .next t →
    (s.done = false → t.done = true →
      t.active = .idle ∧ t.errCode = s.errCode ∧
        (s.active ≠ .idle ∨ ∃ rest, s.agenda = .write 0x008#12 .w32 0x00000006#32 :: rest)) ∧
    (s.done = true → t.done = false →
      (∃ w rest, s.agenda = .write 0x008#12 .w32 w :: rest ∧
        (w = 7#32 ∨ (1 ≤ w.toNat ∧ w.toNat ≤ 6 ∧ s.errCode = 0 ∧ s.active = .idle))) ∨
      (∃ a b c d rest, s.agenda = .reset a b c d :: rest))

/-- R30, R32, R34: what writes the three arrays. `FREQ`: `FREQ_DATA` writes and `FREQ_CLR` (its
completion, or its abort); `NODE`: `BUILD`; `CODE`: `GENMAP`; and reset, which leaves all three
unspecified. -/
def Obligations.ArraysHaveOneWriter : Prop :=
  ∀ s t : State, step s = .next t →
    (∀ a b c d rest, s.agenda ≠ .reset a b c d :: rest) →
    (t.freq = s.freq ∨ s.active = .freqClr ∨
      ∃ v rest, s.agenda = .write 0x024#12 .w32 v :: rest) ∧
    (t.node = s.node ∨ s.active = .build ∨
      ∃ rest, s.agenda = .write 0x008#12 .w32 0x00000002#32 :: rest) ∧
    (t.code = s.code ∨ s.active = .genmap)

/-- The invariant of the machine holds at reset (R281, R284). -/
def Obligations.ResetHasTheInvariant : Prop := Inv State.reset

/-- Every step keeps the invariant of the machine (R25, R28, R29, R41, R42, R45, R46, R107, R202). -/
def Obligations.StepKeepsTheInvariant : Prop :=
  ∀ s t : State, Inv s → step s = .next t → Inv t

/-- In every state of the invariant the machine goes on: the tree is never broken, so the fault is never
raised (R152, R202). -/
def Obligations.InvariantStatesNeverStop : Prop :=
  ∀ s : State, Inv s → ∃ t, step s = .next t

/-- R43, R70, R298: the four channels are FIFOs of `CH_DEPTH` items. A channel can accept while it
holds fewer; every step keeps the capacity and `CH_DEPTH`. The host places at the tail and takes the
head, and changes nothing else of HUFCORE; between sessions it may remove a leftover head of an input
channel (R290, log 20). A move that is not possible yet stays on the agenda and the core takes the turn
(log 13), or a draining host takes what the core has put (log 21). -/
def Obligations.ChannelsAreFifos : Prop :=
  (∀ s t : State, ChannelsFit s → step s = .next t → ChannelsFit t ∧ t.chDepth = s.chDepth) ∧
  (∀ (n : Nat) (ch : List Item),
    (canAccept (.items n) ch = true ↔ ch.length < n + 1) ∧ canAccept .unbounded ch = true) ∧
  (∀ (s : State) (it : Item) (rest : List HostMove),
    ((s.agenda = .placeSin it :: rest ∨ s.agenda = .feedSin it :: rest) →
      canAccept s.chDepth s.sin = true →
      step s = .next { s with agenda := rest, sin := s.sin ++ [it] }) ∧
    ((s.agenda = .placeBin it :: rest ∨ s.agenda = .feedBin it :: rest) →
      canAccept s.chDepth s.bin = true →
      step s = .next { s with agenda := rest, bin := s.bin ++ [it] })) ∧
  (∀ (s : State) (it : Item) (ch : List Item) (rest : List HostMove),
    (s.agenda = .takeBout :: rest → s.bout = it :: ch →
      step s = .next { s with
        agenda := rest, bout := ch, resp := .item it, boutGot := s.boutGot ++ [it] }) ∧
    (s.agenda = .takeSout :: rest → s.sout = it :: ch →
      step s = .next { s with
        agenda := rest, sout := ch, resp := .item it, soutGot := s.soutGot ++ [it] })) ∧
  (∀ (s : State) (rest : List HostMove),
    (s.agenda = .removeSin :: rest → s.active ≠ .encode →
      step s = .next { s with agenda := rest, sin := s.sin.tail }) ∧
    (s.agenda = .removeBin :: rest → s.active ≠ .decode →
      step s = .next { s with agenda := rest, bin := s.bin.tail }) ∧
    (s.agenda = .wait :: rest → s.active = .idle →
      step s = .next { s with agenda := rest, resp := .data (readReg .status s) }) ∧
    (s.agenda = .waitDrain :: rest → s.active = .idle → s.bout = [] → s.sout = [] →
      step s = .next { s with agenda := rest, resp := .data (readReg .status s) })) ∧
  (∀ (s : State) (m : HostMove) (rest : List HostMove), s.agenda = m :: rest →
    hostReady m s = false →
    (hostDrains m = false ∨ (s.bout = [] ∧ s.sout = []) →
      step s = coreStep s ∧ ∀ t, coreStep s = .next t → t.agenda = s.agenda) ∧
    (∀ it ch, hostDrains m = true → s.bout = it :: ch →
      step s = .next { s with bout := ch, resp := .item it, boutGot := s.boutGot ++ [it] }) ∧
    (∀ it ch, hostDrains m = true → s.bout = [] → s.sout = it :: ch →
      step s = .next { s with sout := ch, resp := .item it, soutGot := s.soutGot ++ [it] })) ∧
  (∀ (s : State) (it : Item),
    (hostReady (.placeSin it) s = canAccept s.chDepth s.sin) ∧
    (hostReady (.placeBin it) s = canAccept s.chDepth s.bin) ∧
    (hostReady (.feedSin it) s = canAccept s.chDepth s.sin) ∧
    (hostReady (.feedBin it) s = canAccept s.chDepth s.bin) ∧
    (hostReady .takeBout s = true ↔ s.bout ≠ []) ∧ (hostReady .takeSout s = true ↔ s.sout ≠ []) ∧
    (hostReady .removeSin s = true ↔ s.active ≠ .encode) ∧
    (hostReady .removeBin s = true ↔ s.active ≠ .decode) ∧
    (hostReady .wait s = true ↔ s.active = .idle) ∧
    (hostReady .waitDrain s = true ↔ s.active = .idle ∧ s.bout = [] ∧ s.sout = []))
end

