-- ==== Sys2Proof/Laws/State.lean ====
section
/-! SUPPORT. The fields of the state after each named update: one lemma per field per update, true by
`rfl`, so that no later proof unfolds a record update. -/

namespace Sys2Proof.Machine

/-! ### `raise` -/

@[simp] theorem raise_ctrl (e : ErrCause) (info : BitVec 16) (s : State) :
    (raise e info s).ctrl = s.ctrl := rfl
@[simp] theorem raise_treeValid (e : ErrCause) (info : BitVec 16) (s : State) :
    (raise e info s).treeValid = s.treeValid := rfl
@[simp] theorem raise_mapValid (e : ErrCause) (info : BitVec 16) (s : State) :
    (raise e info s).mapValid = s.mapValid := rfl
@[simp] theorem raise_done (e : ErrCause) (info : BitVec 16) (s : State) :
    (raise e info s).done = s.done := rfl
@[simp] theorem raise_emult (e : ErrCause) (info : BitVec 16) (s : State) :
    (raise e info s).emult = if s.errCode = 0 then s.emult else true := rfl
@[simp] theorem raise_active (e : ErrCause) (info : BitVec 16) (s : State) :
    (raise e info s).active = s.active := rfl
@[simp] theorem raise_errCode (e : ErrCause) (info : BitVec 16) (s : State) :
    (raise e info s).errCode = if s.errCode = 0 then e.code else s.errCode := rfl
@[simp] theorem raise_errInfo (e : ErrCause) (info : BitVec 16) (s : State) :
    (raise e info s).errInfo = if s.errCode = 0 then info else s.errInfo := rfl
@[simp] theorem raise_root (e : ErrCause) (info : BitVec 16) (s : State) :
    (raise e info s).root = s.root := rfl
@[simp] theorem raise_nleaf (e : ErrCause) (info : BitVec 16) (s : State) :
    (raise e info s).nleaf = s.nleaf := rfl
@[simp] theorem raise_freqIdx (e : ErrCause) (info : BitVec 16) (s : State) :
    (raise e info s).freqIdx = s.freqIdx := rfl
@[simp] theorem raise_freq (e : ErrCause) (info : BitVec 16) (s : State) :
    (raise e info s).freq = s.freq := rfl
@[simp] theorem raise_nodeIdx (e : ErrCause) (info : BitVec 16) (s : State) :
    (raise e info s).nodeIdx = s.nodeIdx := rfl
@[simp] theorem raise_node (e : ErrCause) (info : BitVec 16) (s : State) :
    (raise e info s).node = s.node := rfl
@[simp] theorem raise_codeIdx (e : ErrCause) (info : BitVec 16) (s : State) :
    (raise e info s).codeIdx = s.codeIdx := rfl
@[simp] theorem raise_code (e : ErrCause) (info : BitVec 16) (s : State) :
    (raise e info s).code = s.code := rfl
@[simp] theorem raise_encBitCnt (e : ErrCause) (info : BitVec 16) (s : State) :
    (raise e info s).encBitCnt = s.encBitCnt := rfl
@[simp] theorem raise_encSymCnt (e : ErrCause) (info : BitVec 16) (s : State) :
    (raise e info s).encSymCnt = s.encSymCnt := rfl
@[simp] theorem raise_decBitCnt (e : ErrCause) (info : BitVec 16) (s : State) :
    (raise e info s).decBitCnt = s.decBitCnt := rfl
@[simp] theorem raise_decSymCnt (e : ErrCause) (info : BitVec 16) (s : State) :
    (raise e info s).decSymCnt = s.decSymCnt := rfl
@[simp] theorem raise_decCur (e : ErrCause) (info : BitVec 16) (s : State) :
    (raise e info s).decCur = s.decCur := rfl
@[simp] theorem raise_ebuf (e : ErrCause) (info : BitVec 16) (s : State) :
    (raise e info s).ebuf = s.ebuf := rfl
@[simp] theorem raise_efin (e : ErrCause) (info : BitVec 16) (s : State) :
    (raise e info s).efin = s.efin := rfl
@[simp] theorem raise_eSink (e : ErrCause) (info : BitVec 16) (s : State) :
    (raise e info s).eSink = s.eSink := rfl
@[simp] theorem raise_eOrd (e : ErrCause) (info : BitVec 16) (s : State) :
    (raise e info s).eOrd = s.eOrd := rfl
@[simp] theorem raise_dbuf (e : ErrCause) (info : BitVec 16) (s : State) :
    (raise e info s).dbuf = s.dbuf := rfl
@[simp] theorem raise_dOrd (e : ErrCause) (info : BitVec 16) (s : State) :
    (raise e info s).dOrd = s.dOrd := rfl
@[simp] theorem raise_sin (e : ErrCause) (info : BitVec 16) (s : State) :
    (raise e info s).sin = s.sin := rfl
@[simp] theorem raise_bout (e : ErrCause) (info : BitVec 16) (s : State) :
    (raise e info s).bout = s.bout := rfl
@[simp] theorem raise_bin (e : ErrCause) (info : BitVec 16) (s : State) :
    (raise e info s).bin = s.bin := rfl
@[simp] theorem raise_sout (e : ErrCause) (info : BitVec 16) (s : State) :
    (raise e info s).sout = s.sout := rfl
@[simp] theorem raise_chDepth (e : ErrCause) (info : BitVec 16) (s : State) :
    (raise e info s).chDepth = s.chDepth := rfl
@[simp] theorem raise_agenda (e : ErrCause) (info : BitVec 16) (s : State) :
    (raise e info s).agenda = s.agenda := rfl
@[simp] theorem raise_resp (e : ErrCause) (info : BitVec 16) (s : State) :
    (raise e info s).resp = s.resp := rfl
@[simp] theorem raise_boutGot (e : ErrCause) (info : BitVec 16) (s : State) :
    (raise e info s).boutGot = s.boutGot := rfl
@[simp] theorem raise_soutGot (e : ErrCause) (info : BitVec 16) (s : State) :
    (raise e info s).soutGot = s.soutGot := rfl
@[simp] theorem raise_draws (e : ErrCause) (info : BitVec 16) (s : State) :
    (raise e info s).draws = s.draws := rfl

/-! ### `clearError` -/

@[simp] theorem clearError_ctrl (s : State) : (clearError s).ctrl = s.ctrl := rfl
@[simp] theorem clearError_treeValid (s : State) : (clearError s).treeValid = s.treeValid := rfl
@[simp] theorem clearError_mapValid (s : State) : (clearError s).mapValid = s.mapValid := rfl
@[simp] theorem clearError_done (s : State) : (clearError s).done = s.done := rfl
@[simp] theorem clearError_emult (s : State) : (clearError s).emult = false := rfl
@[simp] theorem clearError_active (s : State) : (clearError s).active = s.active := rfl
@[simp] theorem clearError_errCode (s : State) : (clearError s).errCode = 0 := rfl
@[simp] theorem clearError_errInfo (s : State) : (clearError s).errInfo = 0 := rfl
@[simp] theorem clearError_root (s : State) : (clearError s).root = s.root := rfl
@[simp] theorem clearError_nleaf (s : State) : (clearError s).nleaf = s.nleaf := rfl
@[simp] theorem clearError_freqIdx (s : State) : (clearError s).freqIdx = s.freqIdx := rfl
@[simp] theorem clearError_freq (s : State) : (clearError s).freq = s.freq := rfl
@[simp] theorem clearError_nodeIdx (s : State) : (clearError s).nodeIdx = s.nodeIdx := rfl
@[simp] theorem clearError_node (s : State) : (clearError s).node = s.node := rfl
@[simp] theorem clearError_codeIdx (s : State) : (clearError s).codeIdx = s.codeIdx := rfl
@[simp] theorem clearError_code (s : State) : (clearError s).code = s.code := rfl
@[simp] theorem clearError_encBitCnt (s : State) : (clearError s).encBitCnt = s.encBitCnt := rfl
@[simp] theorem clearError_encSymCnt (s : State) : (clearError s).encSymCnt = s.encSymCnt := rfl
@[simp] theorem clearError_decBitCnt (s : State) : (clearError s).decBitCnt = s.decBitCnt := rfl
@[simp] theorem clearError_decSymCnt (s : State) : (clearError s).decSymCnt = s.decSymCnt := rfl
@[simp] theorem clearError_decCur (s : State) : (clearError s).decCur = s.decCur := rfl
@[simp] theorem clearError_ebuf (s : State) : (clearError s).ebuf = s.ebuf := rfl
@[simp] theorem clearError_efin (s : State) : (clearError s).efin = s.efin := rfl
@[simp] theorem clearError_eSink (s : State) : (clearError s).eSink = s.eSink := rfl
@[simp] theorem clearError_eOrd (s : State) : (clearError s).eOrd = s.eOrd := rfl
@[simp] theorem clearError_dbuf (s : State) : (clearError s).dbuf = s.dbuf := rfl
@[simp] theorem clearError_dOrd (s : State) : (clearError s).dOrd = s.dOrd := rfl
@[simp] theorem clearError_sin (s : State) : (clearError s).sin = s.sin := rfl
@[simp] theorem clearError_bout (s : State) : (clearError s).bout = s.bout := rfl
@[simp] theorem clearError_bin (s : State) : (clearError s).bin = s.bin := rfl
@[simp] theorem clearError_sout (s : State) : (clearError s).sout = s.sout := rfl
@[simp] theorem clearError_chDepth (s : State) : (clearError s).chDepth = s.chDepth := rfl
@[simp] theorem clearError_agenda (s : State) : (clearError s).agenda = s.agenda := rfl
@[simp] theorem clearError_resp (s : State) : (clearError s).resp = s.resp := rfl
@[simp] theorem clearError_boutGot (s : State) : (clearError s).boutGot = s.boutGot := rfl
@[simp] theorem clearError_soutGot (s : State) : (clearError s).soutGot = s.soutGot := rfl
@[simp] theorem clearError_draws (s : State) : (clearError s).draws = s.draws := rfl

/-! ### `complete` -/

@[simp] theorem complete_ctrl (s : State) : (complete s).ctrl = s.ctrl := rfl
@[simp] theorem complete_treeValid (s : State) : (complete s).treeValid = s.treeValid := rfl
@[simp] theorem complete_mapValid (s : State) : (complete s).mapValid = s.mapValid := rfl
@[simp] theorem complete_done (s : State) : (complete s).done = true := rfl
@[simp] theorem complete_emult (s : State) : (complete s).emult = s.emult := rfl
@[simp] theorem complete_active (s : State) : (complete s).active = .idle := rfl
@[simp] theorem complete_errCode (s : State) : (complete s).errCode = s.errCode := rfl
@[simp] theorem complete_errInfo (s : State) : (complete s).errInfo = s.errInfo := rfl
@[simp] theorem complete_root (s : State) : (complete s).root = s.root := rfl
@[simp] theorem complete_nleaf (s : State) : (complete s).nleaf = s.nleaf := rfl
@[simp] theorem complete_freqIdx (s : State) : (complete s).freqIdx = s.freqIdx := rfl
@[simp] theorem complete_freq (s : State) : (complete s).freq = s.freq := rfl
@[simp] theorem complete_nodeIdx (s : State) : (complete s).nodeIdx = s.nodeIdx := rfl
@[simp] theorem complete_node (s : State) : (complete s).node = s.node := rfl
@[simp] theorem complete_codeIdx (s : State) : (complete s).codeIdx = s.codeIdx := rfl
@[simp] theorem complete_code (s : State) : (complete s).code = s.code := rfl
@[simp] theorem complete_encBitCnt (s : State) : (complete s).encBitCnt = s.encBitCnt := rfl
@[simp] theorem complete_encSymCnt (s : State) : (complete s).encSymCnt = s.encSymCnt := rfl
@[simp] theorem complete_decBitCnt (s : State) : (complete s).decBitCnt = s.decBitCnt := rfl
@[simp] theorem complete_decSymCnt (s : State) : (complete s).decSymCnt = s.decSymCnt := rfl
@[simp] theorem complete_decCur (s : State) : (complete s).decCur = s.decCur := rfl
@[simp] theorem complete_ebuf (s : State) : (complete s).ebuf = s.ebuf := rfl
@[simp] theorem complete_efin (s : State) : (complete s).efin = s.efin := rfl
@[simp] theorem complete_eSink (s : State) : (complete s).eSink = s.eSink := rfl
@[simp] theorem complete_eOrd (s : State) : (complete s).eOrd = s.eOrd := rfl
@[simp] theorem complete_dbuf (s : State) : (complete s).dbuf = s.dbuf := rfl
@[simp] theorem complete_dOrd (s : State) : (complete s).dOrd = s.dOrd := rfl
@[simp] theorem complete_sin (s : State) : (complete s).sin = s.sin := rfl
@[simp] theorem complete_bout (s : State) : (complete s).bout = s.bout := rfl
@[simp] theorem complete_bin (s : State) : (complete s).bin = s.bin := rfl
@[simp] theorem complete_sout (s : State) : (complete s).sout = s.sout := rfl
@[simp] theorem complete_chDepth (s : State) : (complete s).chDepth = s.chDepth := rfl
@[simp] theorem complete_agenda (s : State) : (complete s).agenda = s.agenda := rfl
@[simp] theorem complete_resp (s : State) : (complete s).resp = s.resp := rfl
@[simp] theorem complete_boutGot (s : State) : (complete s).boutGot = s.boutGot := rfl
@[simp] theorem complete_soutGot (s : State) : (complete s).soutGot = s.soutGot := rfl
@[simp] theorem complete_draws (s : State) : (complete s).draws = s.draws := rfl

/-! ### `abandon` -/

@[simp] theorem abandon_ctrl (s : State) : (abandon s).ctrl = s.ctrl := rfl
@[simp] theorem abandon_treeValid (s : State) : (abandon s).treeValid = s.treeValid := rfl
@[simp] theorem abandon_mapValid (s : State) : (abandon s).mapValid = s.mapValid := rfl
@[simp] theorem abandon_done (s : State) : (abandon s).done = s.done := rfl
@[simp] theorem abandon_emult (s : State) : (abandon s).emult = s.emult := rfl
@[simp] theorem abandon_active (s : State) : (abandon s).active = .idle := rfl
@[simp] theorem abandon_errCode (s : State) : (abandon s).errCode = s.errCode := rfl
@[simp] theorem abandon_errInfo (s : State) : (abandon s).errInfo = s.errInfo := rfl
@[simp] theorem abandon_root (s : State) : (abandon s).root = s.root := rfl
@[simp] theorem abandon_nleaf (s : State) : (abandon s).nleaf = s.nleaf := rfl
@[simp] theorem abandon_freqIdx (s : State) : (abandon s).freqIdx = s.freqIdx := rfl
@[simp] theorem abandon_freq (s : State) : (abandon s).freq = s.freq := rfl
@[simp] theorem abandon_nodeIdx (s : State) : (abandon s).nodeIdx = s.nodeIdx := rfl
@[simp] theorem abandon_node (s : State) : (abandon s).node = s.node := rfl
@[simp] theorem abandon_codeIdx (s : State) : (abandon s).codeIdx = s.codeIdx := rfl
@[simp] theorem abandon_code (s : State) : (abandon s).code = s.code := rfl
@[simp] theorem abandon_encBitCnt (s : State) : (abandon s).encBitCnt = s.encBitCnt := rfl
@[simp] theorem abandon_encSymCnt (s : State) : (abandon s).encSymCnt = s.encSymCnt := rfl
@[simp] theorem abandon_decBitCnt (s : State) : (abandon s).decBitCnt = s.decBitCnt := rfl
@[simp] theorem abandon_decSymCnt (s : State) : (abandon s).decSymCnt = s.decSymCnt := rfl
@[simp] theorem abandon_decCur (s : State) : (abandon s).decCur = s.decCur := rfl
@[simp] theorem abandon_ebuf (s : State) : (abandon s).ebuf = s.ebuf := rfl
@[simp] theorem abandon_efin (s : State) : (abandon s).efin = s.efin := rfl
@[simp] theorem abandon_eSink (s : State) : (abandon s).eSink = s.eSink := rfl
@[simp] theorem abandon_eOrd (s : State) : (abandon s).eOrd = s.eOrd := rfl
@[simp] theorem abandon_dbuf (s : State) : (abandon s).dbuf = s.dbuf := rfl
@[simp] theorem abandon_dOrd (s : State) : (abandon s).dOrd = s.dOrd := rfl
@[simp] theorem abandon_sin (s : State) : (abandon s).sin = s.sin := rfl
@[simp] theorem abandon_bout (s : State) : (abandon s).bout = s.bout := rfl
@[simp] theorem abandon_bin (s : State) : (abandon s).bin = s.bin := rfl
@[simp] theorem abandon_sout (s : State) : (abandon s).sout = s.sout := rfl
@[simp] theorem abandon_chDepth (s : State) : (abandon s).chDepth = s.chDepth := rfl
@[simp] theorem abandon_agenda (s : State) : (abandon s).agenda = s.agenda := rfl
@[simp] theorem abandon_resp (s : State) : (abandon s).resp = s.resp := rfl
@[simp] theorem abandon_boutGot (s : State) : (abandon s).boutGot = s.boutGot := rfl
@[simp] theorem abandon_soutGot (s : State) : (abandon s).soutGot = s.soutGot := rfl
@[simp] theorem abandon_draws (s : State) : (abandon s).draws = s.draws := rfl

/-! ### `putBout` -/

@[simp] theorem putBout_ctrl (it : Item) (s : State) : (putBout it s).ctrl = s.ctrl := rfl
@[simp] theorem putBout_treeValid (it : Item) (s : State) :
    (putBout it s).treeValid = s.treeValid := rfl
@[simp] theorem putBout_mapValid (it : Item) (s : State) :
    (putBout it s).mapValid = s.mapValid := rfl
@[simp] theorem putBout_done (it : Item) (s : State) : (putBout it s).done = s.done := rfl
@[simp] theorem putBout_emult (it : Item) (s : State) : (putBout it s).emult = s.emult := rfl
@[simp] theorem putBout_active (it : Item) (s : State) : (putBout it s).active = s.active := rfl
@[simp] theorem putBout_errCode (it : Item) (s : State) : (putBout it s).errCode = s.errCode := rfl
@[simp] theorem putBout_errInfo (it : Item) (s : State) : (putBout it s).errInfo = s.errInfo := rfl
@[simp] theorem putBout_root (it : Item) (s : State) : (putBout it s).root = s.root := rfl
@[simp] theorem putBout_nleaf (it : Item) (s : State) : (putBout it s).nleaf = s.nleaf := rfl
@[simp] theorem putBout_freqIdx (it : Item) (s : State) : (putBout it s).freqIdx = s.freqIdx := rfl
@[simp] theorem putBout_freq (it : Item) (s : State) : (putBout it s).freq = s.freq := rfl
@[simp] theorem putBout_nodeIdx (it : Item) (s : State) : (putBout it s).nodeIdx = s.nodeIdx := rfl
@[simp] theorem putBout_node (it : Item) (s : State) : (putBout it s).node = s.node := rfl
@[simp] theorem putBout_codeIdx (it : Item) (s : State) : (putBout it s).codeIdx = s.codeIdx := rfl
@[simp] theorem putBout_code (it : Item) (s : State) : (putBout it s).code = s.code := rfl
@[simp] theorem putBout_encBitCnt (it : Item) (s : State) :
    (putBout it s).encBitCnt = s.encBitCnt := rfl
@[simp] theorem putBout_encSymCnt (it : Item) (s : State) :
    (putBout it s).encSymCnt = s.encSymCnt := rfl
@[simp] theorem putBout_decBitCnt (it : Item) (s : State) :
    (putBout it s).decBitCnt = s.decBitCnt := rfl
@[simp] theorem putBout_decSymCnt (it : Item) (s : State) :
    (putBout it s).decSymCnt = s.decSymCnt := rfl
@[simp] theorem putBout_decCur (it : Item) (s : State) : (putBout it s).decCur = s.decCur := rfl
@[simp] theorem putBout_ebuf (it : Item) (s : State) : (putBout it s).ebuf = s.ebuf := rfl
@[simp] theorem putBout_efin (it : Item) (s : State) : (putBout it s).efin = s.efin := rfl
@[simp] theorem putBout_eSink (it : Item) (s : State) : (putBout it s).eSink = s.eSink := rfl
@[simp] theorem putBout_eOrd (it : Item) (s : State) : (putBout it s).eOrd = s.eOrd := rfl
@[simp] theorem putBout_dbuf (it : Item) (s : State) : (putBout it s).dbuf = s.dbuf := rfl
@[simp] theorem putBout_dOrd (it : Item) (s : State) : (putBout it s).dOrd = s.dOrd := rfl
@[simp] theorem putBout_sin (it : Item) (s : State) : (putBout it s).sin = s.sin := rfl
@[simp] theorem putBout_bout (it : Item) (s : State) : (putBout it s).bout = s.bout ++ [it] := rfl
@[simp] theorem putBout_bin (it : Item) (s : State) : (putBout it s).bin = s.bin := rfl
@[simp] theorem putBout_sout (it : Item) (s : State) : (putBout it s).sout = s.sout := rfl
@[simp] theorem putBout_chDepth (it : Item) (s : State) : (putBout it s).chDepth = s.chDepth := rfl
@[simp] theorem putBout_agenda (it : Item) (s : State) : (putBout it s).agenda = s.agenda := rfl
@[simp] theorem putBout_resp (it : Item) (s : State) : (putBout it s).resp = s.resp := rfl
@[simp] theorem putBout_boutGot (it : Item) (s : State) : (putBout it s).boutGot = s.boutGot := rfl
@[simp] theorem putBout_soutGot (it : Item) (s : State) : (putBout it s).soutGot = s.soutGot := rfl
@[simp] theorem putBout_draws (it : Item) (s : State) : (putBout it s).draws = s.draws := rfl

/-! ### `putSout` -/

@[simp] theorem putSout_ctrl (it : Item) (s : State) : (putSout it s).ctrl = s.ctrl := rfl
@[simp] theorem putSout_treeValid (it : Item) (s : State) :
    (putSout it s).treeValid = s.treeValid := rfl
@[simp] theorem putSout_mapValid (it : Item) (s : State) :
    (putSout it s).mapValid = s.mapValid := rfl
@[simp] theorem putSout_done (it : Item) (s : State) : (putSout it s).done = s.done := rfl
@[simp] theorem putSout_emult (it : Item) (s : State) : (putSout it s).emult = s.emult := rfl
@[simp] theorem putSout_active (it : Item) (s : State) : (putSout it s).active = s.active := rfl
@[simp] theorem putSout_errCode (it : Item) (s : State) : (putSout it s).errCode = s.errCode := rfl
@[simp] theorem putSout_errInfo (it : Item) (s : State) : (putSout it s).errInfo = s.errInfo := rfl
@[simp] theorem putSout_root (it : Item) (s : State) : (putSout it s).root = s.root := rfl
@[simp] theorem putSout_nleaf (it : Item) (s : State) : (putSout it s).nleaf = s.nleaf := rfl
@[simp] theorem putSout_freqIdx (it : Item) (s : State) : (putSout it s).freqIdx = s.freqIdx := rfl
@[simp] theorem putSout_freq (it : Item) (s : State) : (putSout it s).freq = s.freq := rfl
@[simp] theorem putSout_nodeIdx (it : Item) (s : State) : (putSout it s).nodeIdx = s.nodeIdx := rfl
@[simp] theorem putSout_node (it : Item) (s : State) : (putSout it s).node = s.node := rfl
@[simp] theorem putSout_codeIdx (it : Item) (s : State) : (putSout it s).codeIdx = s.codeIdx := rfl
@[simp] theorem putSout_code (it : Item) (s : State) : (putSout it s).code = s.code := rfl
@[simp] theorem putSout_encBitCnt (it : Item) (s : State) :
    (putSout it s).encBitCnt = s.encBitCnt := rfl
@[simp] theorem putSout_encSymCnt (it : Item) (s : State) :
    (putSout it s).encSymCnt = s.encSymCnt := rfl
@[simp] theorem putSout_decBitCnt (it : Item) (s : State) :
    (putSout it s).decBitCnt = s.decBitCnt := rfl
@[simp] theorem putSout_decSymCnt (it : Item) (s : State) :
    (putSout it s).decSymCnt = s.decSymCnt := rfl
@[simp] theorem putSout_decCur (it : Item) (s : State) : (putSout it s).decCur = s.decCur := rfl
@[simp] theorem putSout_ebuf (it : Item) (s : State) : (putSout it s).ebuf = s.ebuf := rfl
@[simp] theorem putSout_efin (it : Item) (s : State) : (putSout it s).efin = s.efin := rfl
@[simp] theorem putSout_eSink (it : Item) (s : State) : (putSout it s).eSink = s.eSink := rfl
@[simp] theorem putSout_eOrd (it : Item) (s : State) : (putSout it s).eOrd = s.eOrd := rfl
@[simp] theorem putSout_dbuf (it : Item) (s : State) : (putSout it s).dbuf = s.dbuf := rfl
@[simp] theorem putSout_dOrd (it : Item) (s : State) : (putSout it s).dOrd = s.dOrd := rfl
@[simp] theorem putSout_sin (it : Item) (s : State) : (putSout it s).sin = s.sin := rfl
@[simp] theorem putSout_bout (it : Item) (s : State) : (putSout it s).bout = s.bout := rfl
@[simp] theorem putSout_bin (it : Item) (s : State) : (putSout it s).bin = s.bin := rfl
@[simp] theorem putSout_sout (it : Item) (s : State) : (putSout it s).sout = s.sout ++ [it] := rfl
@[simp] theorem putSout_chDepth (it : Item) (s : State) : (putSout it s).chDepth = s.chDepth := rfl
@[simp] theorem putSout_agenda (it : Item) (s : State) : (putSout it s).agenda = s.agenda := rfl
@[simp] theorem putSout_resp (it : Item) (s : State) : (putSout it s).resp = s.resp := rfl
@[simp] theorem putSout_boutGot (it : Item) (s : State) : (putSout it s).boutGot = s.boutGot := rfl
@[simp] theorem putSout_soutGot (it : Item) (s : State) : (putSout it s).soutGot = s.soutGot := rfl
@[simp] theorem putSout_draws (it : Item) (s : State) : (putSout it s).draws = s.draws := rfl

/-! ### `takeSin` -/

@[simp] theorem takeSin_ctrl (s : State) : (takeSin s).ctrl = s.ctrl := rfl
@[simp] theorem takeSin_treeValid (s : State) : (takeSin s).treeValid = s.treeValid := rfl
@[simp] theorem takeSin_mapValid (s : State) : (takeSin s).mapValid = s.mapValid := rfl
@[simp] theorem takeSin_done (s : State) : (takeSin s).done = s.done := rfl
@[simp] theorem takeSin_emult (s : State) : (takeSin s).emult = s.emult := rfl
@[simp] theorem takeSin_active (s : State) : (takeSin s).active = s.active := rfl
@[simp] theorem takeSin_errCode (s : State) : (takeSin s).errCode = s.errCode := rfl
@[simp] theorem takeSin_errInfo (s : State) : (takeSin s).errInfo = s.errInfo := rfl
@[simp] theorem takeSin_root (s : State) : (takeSin s).root = s.root := rfl
@[simp] theorem takeSin_nleaf (s : State) : (takeSin s).nleaf = s.nleaf := rfl
@[simp] theorem takeSin_freqIdx (s : State) : (takeSin s).freqIdx = s.freqIdx := rfl
@[simp] theorem takeSin_freq (s : State) : (takeSin s).freq = s.freq := rfl
@[simp] theorem takeSin_nodeIdx (s : State) : (takeSin s).nodeIdx = s.nodeIdx := rfl
@[simp] theorem takeSin_node (s : State) : (takeSin s).node = s.node := rfl
@[simp] theorem takeSin_codeIdx (s : State) : (takeSin s).codeIdx = s.codeIdx := rfl
@[simp] theorem takeSin_code (s : State) : (takeSin s).code = s.code := rfl
@[simp] theorem takeSin_encBitCnt (s : State) : (takeSin s).encBitCnt = s.encBitCnt := rfl
@[simp] theorem takeSin_encSymCnt (s : State) : (takeSin s).encSymCnt = s.encSymCnt := rfl
@[simp] theorem takeSin_decBitCnt (s : State) : (takeSin s).decBitCnt = s.decBitCnt := rfl
@[simp] theorem takeSin_decSymCnt (s : State) : (takeSin s).decSymCnt = s.decSymCnt := rfl
@[simp] theorem takeSin_decCur (s : State) : (takeSin s).decCur = s.decCur := rfl
@[simp] theorem takeSin_ebuf (s : State) : (takeSin s).ebuf = s.ebuf := rfl
@[simp] theorem takeSin_efin (s : State) : (takeSin s).efin = s.efin := rfl
@[simp] theorem takeSin_eSink (s : State) : (takeSin s).eSink = s.eSink := rfl
@[simp] theorem takeSin_eOrd (s : State) : (takeSin s).eOrd = s.eOrd := rfl
@[simp] theorem takeSin_dbuf (s : State) : (takeSin s).dbuf = s.dbuf := rfl
@[simp] theorem takeSin_dOrd (s : State) : (takeSin s).dOrd = s.dOrd := rfl
@[simp] theorem takeSin_sin (s : State) : (takeSin s).sin = s.sin.tail := rfl
@[simp] theorem takeSin_bout (s : State) : (takeSin s).bout = s.bout := rfl
@[simp] theorem takeSin_bin (s : State) : (takeSin s).bin = s.bin := rfl
@[simp] theorem takeSin_sout (s : State) : (takeSin s).sout = s.sout := rfl
@[simp] theorem takeSin_chDepth (s : State) : (takeSin s).chDepth = s.chDepth := rfl
@[simp] theorem takeSin_agenda (s : State) : (takeSin s).agenda = s.agenda := rfl
@[simp] theorem takeSin_resp (s : State) : (takeSin s).resp = s.resp := rfl
@[simp] theorem takeSin_boutGot (s : State) : (takeSin s).boutGot = s.boutGot := rfl
@[simp] theorem takeSin_soutGot (s : State) : (takeSin s).soutGot = s.soutGot := rfl
@[simp] theorem takeSin_draws (s : State) : (takeSin s).draws = s.draws := rfl

/-! ### `takeBin` -/

@[simp] theorem takeBin_ctrl (s : State) : (takeBin s).ctrl = s.ctrl := rfl
@[simp] theorem takeBin_treeValid (s : State) : (takeBin s).treeValid = s.treeValid := rfl
@[simp] theorem takeBin_mapValid (s : State) : (takeBin s).mapValid = s.mapValid := rfl
@[simp] theorem takeBin_done (s : State) : (takeBin s).done = s.done := rfl
@[simp] theorem takeBin_emult (s : State) : (takeBin s).emult = s.emult := rfl
@[simp] theorem takeBin_active (s : State) : (takeBin s).active = s.active := rfl
@[simp] theorem takeBin_errCode (s : State) : (takeBin s).errCode = s.errCode := rfl
@[simp] theorem takeBin_errInfo (s : State) : (takeBin s).errInfo = s.errInfo := rfl
@[simp] theorem takeBin_root (s : State) : (takeBin s).root = s.root := rfl
@[simp] theorem takeBin_nleaf (s : State) : (takeBin s).nleaf = s.nleaf := rfl
@[simp] theorem takeBin_freqIdx (s : State) : (takeBin s).freqIdx = s.freqIdx := rfl
@[simp] theorem takeBin_freq (s : State) : (takeBin s).freq = s.freq := rfl
@[simp] theorem takeBin_nodeIdx (s : State) : (takeBin s).nodeIdx = s.nodeIdx := rfl
@[simp] theorem takeBin_node (s : State) : (takeBin s).node = s.node := rfl
@[simp] theorem takeBin_codeIdx (s : State) : (takeBin s).codeIdx = s.codeIdx := rfl
@[simp] theorem takeBin_code (s : State) : (takeBin s).code = s.code := rfl
@[simp] theorem takeBin_encBitCnt (s : State) : (takeBin s).encBitCnt = s.encBitCnt := rfl
@[simp] theorem takeBin_encSymCnt (s : State) : (takeBin s).encSymCnt = s.encSymCnt := rfl
@[simp] theorem takeBin_decBitCnt (s : State) : (takeBin s).decBitCnt = s.decBitCnt := rfl
@[simp] theorem takeBin_decSymCnt (s : State) : (takeBin s).decSymCnt = s.decSymCnt := rfl
@[simp] theorem takeBin_decCur (s : State) : (takeBin s).decCur = s.decCur := rfl
@[simp] theorem takeBin_ebuf (s : State) : (takeBin s).ebuf = s.ebuf := rfl
@[simp] theorem takeBin_efin (s : State) : (takeBin s).efin = s.efin := rfl
@[simp] theorem takeBin_eSink (s : State) : (takeBin s).eSink = s.eSink := rfl
@[simp] theorem takeBin_eOrd (s : State) : (takeBin s).eOrd = s.eOrd := rfl
@[simp] theorem takeBin_dbuf (s : State) : (takeBin s).dbuf = s.dbuf := rfl
@[simp] theorem takeBin_dOrd (s : State) : (takeBin s).dOrd = s.dOrd := rfl
@[simp] theorem takeBin_sin (s : State) : (takeBin s).sin = s.sin := rfl
@[simp] theorem takeBin_bout (s : State) : (takeBin s).bout = s.bout := rfl
@[simp] theorem takeBin_bin (s : State) : (takeBin s).bin = s.bin.tail := rfl
@[simp] theorem takeBin_sout (s : State) : (takeBin s).sout = s.sout := rfl
@[simp] theorem takeBin_chDepth (s : State) : (takeBin s).chDepth = s.chDepth := rfl
@[simp] theorem takeBin_agenda (s : State) : (takeBin s).agenda = s.agenda := rfl
@[simp] theorem takeBin_resp (s : State) : (takeBin s).resp = s.resp := rfl
@[simp] theorem takeBin_boutGot (s : State) : (takeBin s).boutGot = s.boutGot := rfl
@[simp] theorem takeBin_soutGot (s : State) : (takeBin s).soutGot = s.soutGot := rfl
@[simp] theorem takeBin_draws (s : State) : (takeBin s).draws = s.draws := rfl

/-! ### `answerRead` -/

@[simp] theorem answerRead_ctrl (r : Reg) (s : State) : (answerRead r s).ctrl = s.ctrl := rfl
@[simp] theorem answerRead_treeValid (r : Reg) (s : State) :
    (answerRead r s).treeValid = s.treeValid := rfl
@[simp] theorem answerRead_mapValid (r : Reg) (s : State) :
    (answerRead r s).mapValid = s.mapValid := rfl
@[simp] theorem answerRead_done (r : Reg) (s : State) : (answerRead r s).done = s.done := rfl
@[simp] theorem answerRead_emult (r : Reg) (s : State) : (answerRead r s).emult = s.emult := rfl
@[simp] theorem answerRead_active (r : Reg) (s : State) : (answerRead r s).active = s.active := rfl
@[simp] theorem answerRead_errCode (r : Reg) (s : State) :
    (answerRead r s).errCode = s.errCode := rfl
@[simp] theorem answerRead_errInfo (r : Reg) (s : State) :
    (answerRead r s).errInfo = s.errInfo := rfl
@[simp] theorem answerRead_root (r : Reg) (s : State) : (answerRead r s).root = s.root := rfl
@[simp] theorem answerRead_nleaf (r : Reg) (s : State) : (answerRead r s).nleaf = s.nleaf := rfl
@[simp] theorem answerRead_freqIdx (r : Reg) (s : State) :
    (answerRead r s).freqIdx = s.freqIdx := rfl
@[simp] theorem answerRead_freq (r : Reg) (s : State) : (answerRead r s).freq = s.freq := rfl
@[simp] theorem answerRead_nodeIdx (r : Reg) (s : State) :
    (answerRead r s).nodeIdx = s.nodeIdx := rfl
@[simp] theorem answerRead_node (r : Reg) (s : State) : (answerRead r s).node = s.node := rfl
@[simp] theorem answerRead_codeIdx (r : Reg) (s : State) :
    (answerRead r s).codeIdx = s.codeIdx := rfl
@[simp] theorem answerRead_code (r : Reg) (s : State) : (answerRead r s).code = s.code := rfl
@[simp] theorem answerRead_encBitCnt (r : Reg) (s : State) :
    (answerRead r s).encBitCnt = s.encBitCnt := rfl
@[simp] theorem answerRead_encSymCnt (r : Reg) (s : State) :
    (answerRead r s).encSymCnt = s.encSymCnt := rfl
@[simp] theorem answerRead_decBitCnt (r : Reg) (s : State) :
    (answerRead r s).decBitCnt = s.decBitCnt := rfl
@[simp] theorem answerRead_decSymCnt (r : Reg) (s : State) :
    (answerRead r s).decSymCnt = s.decSymCnt := rfl
@[simp] theorem answerRead_decCur (r : Reg) (s : State) : (answerRead r s).decCur = s.decCur := rfl
@[simp] theorem answerRead_ebuf (r : Reg) (s : State) : (answerRead r s).ebuf = s.ebuf := rfl
@[simp] theorem answerRead_efin (r : Reg) (s : State) : (answerRead r s).efin = s.efin := rfl
@[simp] theorem answerRead_eSink (r : Reg) (s : State) : (answerRead r s).eSink = s.eSink := rfl
@[simp] theorem answerRead_eOrd (r : Reg) (s : State) : (answerRead r s).eOrd = s.eOrd := rfl
@[simp] theorem answerRead_dbuf (r : Reg) (s : State) : (answerRead r s).dbuf = s.dbuf := rfl
@[simp] theorem answerRead_dOrd (r : Reg) (s : State) : (answerRead r s).dOrd = s.dOrd := rfl
@[simp] theorem answerRead_sin (r : Reg) (s : State) : (answerRead r s).sin = s.sin := rfl
@[simp] theorem answerRead_bout (r : Reg) (s : State) : (answerRead r s).bout = s.bout := rfl
@[simp] theorem answerRead_bin (r : Reg) (s : State) : (answerRead r s).bin = s.bin := rfl
@[simp] theorem answerRead_sout (r : Reg) (s : State) : (answerRead r s).sout = s.sout := rfl
@[simp] theorem answerRead_chDepth (r : Reg) (s : State) :
    (answerRead r s).chDepth = s.chDepth := rfl
@[simp] theorem answerRead_agenda (r : Reg) (s : State) : (answerRead r s).agenda = s.agenda := rfl
@[simp] theorem answerRead_resp (r : Reg) (s : State) :
    (answerRead r s).resp = .data (readReg r s) := rfl
@[simp] theorem answerRead_boutGot (r : Reg) (s : State) :
    (answerRead r s).boutGot = s.boutGot := rfl
@[simp] theorem answerRead_soutGot (r : Reg) (s : State) :
    (answerRead r s).soutGot = s.soutGot := rfl
@[simp] theorem answerRead_draws (r : Reg) (s : State) : (answerRead r s).draws = s.draws := rfl

/-! ### `busError` -/

@[simp] theorem busError_ctrl (data : Option Word) (s : State) :
    (busError data s).ctrl = s.ctrl := rfl
@[simp] theorem busError_treeValid (data : Option Word) (s : State) :
    (busError data s).treeValid = s.treeValid := rfl
@[simp] theorem busError_mapValid (data : Option Word) (s : State) :
    (busError data s).mapValid = s.mapValid := rfl
@[simp] theorem busError_done (data : Option Word) (s : State) :
    (busError data s).done = s.done := rfl
@[simp] theorem busError_emult (data : Option Word) (s : State) :
    (busError data s).emult = s.emult := rfl
@[simp] theorem busError_active (data : Option Word) (s : State) :
    (busError data s).active = s.active := rfl
@[simp] theorem busError_errCode (data : Option Word) (s : State) :
    (busError data s).errCode = s.errCode := rfl
@[simp] theorem busError_errInfo (data : Option Word) (s : State) :
    (busError data s).errInfo = s.errInfo := rfl
@[simp] theorem busError_root (data : Option Word) (s : State) :
    (busError data s).root = s.root := rfl
@[simp] theorem busError_nleaf (data : Option Word) (s : State) :
    (busError data s).nleaf = s.nleaf := rfl
@[simp] theorem busError_freqIdx (data : Option Word) (s : State) :
    (busError data s).freqIdx = s.freqIdx := rfl
@[simp] theorem busError_freq (data : Option Word) (s : State) :
    (busError data s).freq = s.freq := rfl
@[simp] theorem busError_nodeIdx (data : Option Word) (s : State) :
    (busError data s).nodeIdx = s.nodeIdx := rfl
@[simp] theorem busError_node (data : Option Word) (s : State) :
    (busError data s).node = s.node := rfl
@[simp] theorem busError_codeIdx (data : Option Word) (s : State) :
    (busError data s).codeIdx = s.codeIdx := rfl
@[simp] theorem busError_code (data : Option Word) (s : State) :
    (busError data s).code = s.code := rfl
@[simp] theorem busError_encBitCnt (data : Option Word) (s : State) :
    (busError data s).encBitCnt = s.encBitCnt := rfl
@[simp] theorem busError_encSymCnt (data : Option Word) (s : State) :
    (busError data s).encSymCnt = s.encSymCnt := rfl
@[simp] theorem busError_decBitCnt (data : Option Word) (s : State) :
    (busError data s).decBitCnt = s.decBitCnt := rfl
@[simp] theorem busError_decSymCnt (data : Option Word) (s : State) :
    (busError data s).decSymCnt = s.decSymCnt := rfl
@[simp] theorem busError_decCur (data : Option Word) (s : State) :
    (busError data s).decCur = s.decCur := rfl
@[simp] theorem busError_ebuf (data : Option Word) (s : State) :
    (busError data s).ebuf = s.ebuf := rfl
@[simp] theorem busError_efin (data : Option Word) (s : State) :
    (busError data s).efin = s.efin := rfl
@[simp] theorem busError_eSink (data : Option Word) (s : State) :
    (busError data s).eSink = s.eSink := rfl
@[simp] theorem busError_eOrd (data : Option Word) (s : State) :
    (busError data s).eOrd = s.eOrd := rfl
@[simp] theorem busError_dbuf (data : Option Word) (s : State) :
    (busError data s).dbuf = s.dbuf := rfl
@[simp] theorem busError_dOrd (data : Option Word) (s : State) :
    (busError data s).dOrd = s.dOrd := rfl
@[simp] theorem busError_sin (data : Option Word) (s : State) : (busError data s).sin = s.sin := rfl
@[simp] theorem busError_bout (data : Option Word) (s : State) :
    (busError data s).bout = s.bout := rfl
@[simp] theorem busError_bin (data : Option Word) (s : State) : (busError data s).bin = s.bin := rfl
@[simp] theorem busError_sout (data : Option Word) (s : State) :
    (busError data s).sout = s.sout := rfl
@[simp] theorem busError_chDepth (data : Option Word) (s : State) :
    (busError data s).chDepth = s.chDepth := rfl
@[simp] theorem busError_agenda (data : Option Word) (s : State) :
    (busError data s).agenda = s.agenda := rfl
@[simp] theorem busError_resp (data : Option Word) (s : State) :
    (busError data s).resp = .busError data := rfl
@[simp] theorem busError_boutGot (data : Option Word) (s : State) :
    (busError data s).boutGot = s.boutGot := rfl
@[simp] theorem busError_soutGot (data : Option Word) (s : State) :
    (busError data s).soutGot = s.soutGot := rfl
@[simp] theorem busError_draws (data : Option Word) (s : State) :
    (busError data s).draws = s.draws := rfl

/-! ### `hostPlaceSin` -/

@[simp] theorem hostPlaceSin_ctrl (it : Item) (s : State) : (hostPlaceSin it s).ctrl = s.ctrl := rfl
@[simp] theorem hostPlaceSin_treeValid (it : Item) (s : State) :
    (hostPlaceSin it s).treeValid = s.treeValid := rfl
@[simp] theorem hostPlaceSin_mapValid (it : Item) (s : State) :
    (hostPlaceSin it s).mapValid = s.mapValid := rfl
@[simp] theorem hostPlaceSin_done (it : Item) (s : State) : (hostPlaceSin it s).done = s.done := rfl
@[simp] theorem hostPlaceSin_emult (it : Item) (s : State) :
    (hostPlaceSin it s).emult = s.emult := rfl
@[simp] theorem hostPlaceSin_active (it : Item) (s : State) :
    (hostPlaceSin it s).active = s.active := rfl
@[simp] theorem hostPlaceSin_errCode (it : Item) (s : State) :
    (hostPlaceSin it s).errCode = s.errCode := rfl
@[simp] theorem hostPlaceSin_errInfo (it : Item) (s : State) :
    (hostPlaceSin it s).errInfo = s.errInfo := rfl
@[simp] theorem hostPlaceSin_root (it : Item) (s : State) : (hostPlaceSin it s).root = s.root := rfl
@[simp] theorem hostPlaceSin_nleaf (it : Item) (s : State) :
    (hostPlaceSin it s).nleaf = s.nleaf := rfl
@[simp] theorem hostPlaceSin_freqIdx (it : Item) (s : State) :
    (hostPlaceSin it s).freqIdx = s.freqIdx := rfl
@[simp] theorem hostPlaceSin_freq (it : Item) (s : State) : (hostPlaceSin it s).freq = s.freq := rfl
@[simp] theorem hostPlaceSin_nodeIdx (it : Item) (s : State) :
    (hostPlaceSin it s).nodeIdx = s.nodeIdx := rfl
@[simp] theorem hostPlaceSin_node (it : Item) (s : State) : (hostPlaceSin it s).node = s.node := rfl
@[simp] theorem hostPlaceSin_codeIdx (it : Item) (s : State) :
    (hostPlaceSin it s).codeIdx = s.codeIdx := rfl
@[simp] theorem hostPlaceSin_code (it : Item) (s : State) : (hostPlaceSin it s).code = s.code := rfl
@[simp] theorem hostPlaceSin_encBitCnt (it : Item) (s : State) :
    (hostPlaceSin it s).encBitCnt = s.encBitCnt := rfl
@[simp] theorem hostPlaceSin_encSymCnt (it : Item) (s : State) :
    (hostPlaceSin it s).encSymCnt = s.encSymCnt := rfl
@[simp] theorem hostPlaceSin_decBitCnt (it : Item) (s : State) :
    (hostPlaceSin it s).decBitCnt = s.decBitCnt := rfl
@[simp] theorem hostPlaceSin_decSymCnt (it : Item) (s : State) :
    (hostPlaceSin it s).decSymCnt = s.decSymCnt := rfl
@[simp] theorem hostPlaceSin_decCur (it : Item) (s : State) :
    (hostPlaceSin it s).decCur = s.decCur := rfl
@[simp] theorem hostPlaceSin_ebuf (it : Item) (s : State) : (hostPlaceSin it s).ebuf = s.ebuf := rfl
@[simp] theorem hostPlaceSin_efin (it : Item) (s : State) : (hostPlaceSin it s).efin = s.efin := rfl
@[simp] theorem hostPlaceSin_eSink (it : Item) (s : State) :
    (hostPlaceSin it s).eSink = s.eSink := rfl
@[simp] theorem hostPlaceSin_eOrd (it : Item) (s : State) : (hostPlaceSin it s).eOrd = s.eOrd := rfl
@[simp] theorem hostPlaceSin_dbuf (it : Item) (s : State) : (hostPlaceSin it s).dbuf = s.dbuf := rfl
@[simp] theorem hostPlaceSin_dOrd (it : Item) (s : State) : (hostPlaceSin it s).dOrd = s.dOrd := rfl
@[simp] theorem hostPlaceSin_sin (it : Item) (s : State) :
    (hostPlaceSin it s).sin = s.sin ++ [it] := rfl
@[simp] theorem hostPlaceSin_bout (it : Item) (s : State) : (hostPlaceSin it s).bout = s.bout := rfl
@[simp] theorem hostPlaceSin_bin (it : Item) (s : State) : (hostPlaceSin it s).bin = s.bin := rfl
@[simp] theorem hostPlaceSin_sout (it : Item) (s : State) : (hostPlaceSin it s).sout = s.sout := rfl
@[simp] theorem hostPlaceSin_chDepth (it : Item) (s : State) :
    (hostPlaceSin it s).chDepth = s.chDepth := rfl
@[simp] theorem hostPlaceSin_agenda (it : Item) (s : State) :
    (hostPlaceSin it s).agenda = s.agenda := rfl
@[simp] theorem hostPlaceSin_resp (it : Item) (s : State) : (hostPlaceSin it s).resp = s.resp := rfl
@[simp] theorem hostPlaceSin_boutGot (it : Item) (s : State) :
    (hostPlaceSin it s).boutGot = s.boutGot := rfl
@[simp] theorem hostPlaceSin_soutGot (it : Item) (s : State) :
    (hostPlaceSin it s).soutGot = s.soutGot := rfl
@[simp] theorem hostPlaceSin_draws (it : Item) (s : State) :
    (hostPlaceSin it s).draws = s.draws := rfl

/-! ### `hostPlaceBin` -/

@[simp] theorem hostPlaceBin_ctrl (it : Item) (s : State) : (hostPlaceBin it s).ctrl = s.ctrl := rfl
@[simp] theorem hostPlaceBin_treeValid (it : Item) (s : State) :
    (hostPlaceBin it s).treeValid = s.treeValid := rfl
@[simp] theorem hostPlaceBin_mapValid (it : Item) (s : State) :
    (hostPlaceBin it s).mapValid = s.mapValid := rfl
@[simp] theorem hostPlaceBin_done (it : Item) (s : State) : (hostPlaceBin it s).done = s.done := rfl
@[simp] theorem hostPlaceBin_emult (it : Item) (s : State) :
    (hostPlaceBin it s).emult = s.emult := rfl
@[simp] theorem hostPlaceBin_active (it : Item) (s : State) :
    (hostPlaceBin it s).active = s.active := rfl
@[simp] theorem hostPlaceBin_errCode (it : Item) (s : State) :
    (hostPlaceBin it s).errCode = s.errCode := rfl
@[simp] theorem hostPlaceBin_errInfo (it : Item) (s : State) :
    (hostPlaceBin it s).errInfo = s.errInfo := rfl
@[simp] theorem hostPlaceBin_root (it : Item) (s : State) : (hostPlaceBin it s).root = s.root := rfl
@[simp] theorem hostPlaceBin_nleaf (it : Item) (s : State) :
    (hostPlaceBin it s).nleaf = s.nleaf := rfl
@[simp] theorem hostPlaceBin_freqIdx (it : Item) (s : State) :
    (hostPlaceBin it s).freqIdx = s.freqIdx := rfl
@[simp] theorem hostPlaceBin_freq (it : Item) (s : State) : (hostPlaceBin it s).freq = s.freq := rfl
@[simp] theorem hostPlaceBin_nodeIdx (it : Item) (s : State) :
    (hostPlaceBin it s).nodeIdx = s.nodeIdx := rfl
@[simp] theorem hostPlaceBin_node (it : Item) (s : State) : (hostPlaceBin it s).node = s.node := rfl
@[simp] theorem hostPlaceBin_codeIdx (it : Item) (s : State) :
    (hostPlaceBin it s).codeIdx = s.codeIdx := rfl
@[simp] theorem hostPlaceBin_code (it : Item) (s : State) : (hostPlaceBin it s).code = s.code := rfl
@[simp] theorem hostPlaceBin_encBitCnt (it : Item) (s : State) :
    (hostPlaceBin it s).encBitCnt = s.encBitCnt := rfl
@[simp] theorem hostPlaceBin_encSymCnt (it : Item) (s : State) :
    (hostPlaceBin it s).encSymCnt = s.encSymCnt := rfl
@[simp] theorem hostPlaceBin_decBitCnt (it : Item) (s : State) :
    (hostPlaceBin it s).decBitCnt = s.decBitCnt := rfl
@[simp] theorem hostPlaceBin_decSymCnt (it : Item) (s : State) :
    (hostPlaceBin it s).decSymCnt = s.decSymCnt := rfl
@[simp] theorem hostPlaceBin_decCur (it : Item) (s : State) :
    (hostPlaceBin it s).decCur = s.decCur := rfl
@[simp] theorem hostPlaceBin_ebuf (it : Item) (s : State) : (hostPlaceBin it s).ebuf = s.ebuf := rfl
@[simp] theorem hostPlaceBin_efin (it : Item) (s : State) : (hostPlaceBin it s).efin = s.efin := rfl
@[simp] theorem hostPlaceBin_eSink (it : Item) (s : State) :
    (hostPlaceBin it s).eSink = s.eSink := rfl
@[simp] theorem hostPlaceBin_eOrd (it : Item) (s : State) : (hostPlaceBin it s).eOrd = s.eOrd := rfl
@[simp] theorem hostPlaceBin_dbuf (it : Item) (s : State) : (hostPlaceBin it s).dbuf = s.dbuf := rfl
@[simp] theorem hostPlaceBin_dOrd (it : Item) (s : State) : (hostPlaceBin it s).dOrd = s.dOrd := rfl
@[simp] theorem hostPlaceBin_sin (it : Item) (s : State) : (hostPlaceBin it s).sin = s.sin := rfl
@[simp] theorem hostPlaceBin_bout (it : Item) (s : State) : (hostPlaceBin it s).bout = s.bout := rfl
@[simp] theorem hostPlaceBin_bin (it : Item) (s : State) :
    (hostPlaceBin it s).bin = s.bin ++ [it] := rfl
@[simp] theorem hostPlaceBin_sout (it : Item) (s : State) : (hostPlaceBin it s).sout = s.sout := rfl
@[simp] theorem hostPlaceBin_chDepth (it : Item) (s : State) :
    (hostPlaceBin it s).chDepth = s.chDepth := rfl
@[simp] theorem hostPlaceBin_agenda (it : Item) (s : State) :
    (hostPlaceBin it s).agenda = s.agenda := rfl
@[simp] theorem hostPlaceBin_resp (it : Item) (s : State) : (hostPlaceBin it s).resp = s.resp := rfl
@[simp] theorem hostPlaceBin_boutGot (it : Item) (s : State) :
    (hostPlaceBin it s).boutGot = s.boutGot := rfl
@[simp] theorem hostPlaceBin_soutGot (it : Item) (s : State) :
    (hostPlaceBin it s).soutGot = s.soutGot := rfl
@[simp] theorem hostPlaceBin_draws (it : Item) (s : State) :
    (hostPlaceBin it s).draws = s.draws := rfl

/-! ### `appendCode` -/

@[simp] theorem appendCode_ctrl (x : Nat) (s : State) : (appendCode x s).ctrl = s.ctrl := rfl
@[simp] theorem appendCode_treeValid (x : Nat) (s : State) :
    (appendCode x s).treeValid = s.treeValid := rfl
@[simp] theorem appendCode_mapValid (x : Nat) (s : State) :
    (appendCode x s).mapValid = s.mapValid := rfl
@[simp] theorem appendCode_done (x : Nat) (s : State) : (appendCode x s).done = s.done := rfl
@[simp] theorem appendCode_emult (x : Nat) (s : State) : (appendCode x s).emult = s.emult := rfl
@[simp] theorem appendCode_active (x : Nat) (s : State) : (appendCode x s).active = s.active := rfl
@[simp] theorem appendCode_errCode (x : Nat) (s : State) :
    (appendCode x s).errCode = s.errCode := rfl
@[simp] theorem appendCode_errInfo (x : Nat) (s : State) :
    (appendCode x s).errInfo = s.errInfo := rfl
@[simp] theorem appendCode_root (x : Nat) (s : State) : (appendCode x s).root = s.root := rfl
@[simp] theorem appendCode_nleaf (x : Nat) (s : State) : (appendCode x s).nleaf = s.nleaf := rfl
@[simp] theorem appendCode_freqIdx (x : Nat) (s : State) :
    (appendCode x s).freqIdx = s.freqIdx := rfl
@[simp] theorem appendCode_freq (x : Nat) (s : State) : (appendCode x s).freq = s.freq := rfl
@[simp] theorem appendCode_nodeIdx (x : Nat) (s : State) :
    (appendCode x s).nodeIdx = s.nodeIdx := rfl
@[simp] theorem appendCode_node (x : Nat) (s : State) : (appendCode x s).node = s.node := rfl
@[simp] theorem appendCode_codeIdx (x : Nat) (s : State) :
    (appendCode x s).codeIdx = s.codeIdx := rfl
@[simp] theorem appendCode_code (x : Nat) (s : State) : (appendCode x s).code = s.code := rfl
@[simp] theorem appendCode_encBitCnt (x : Nat) (s : State) :
    (appendCode x s).encBitCnt = s.encBitCnt + (codeAt s.code x).len.setWidth 64 := rfl
@[simp] theorem appendCode_encSymCnt (x : Nat) (s : State) :
    (appendCode x s).encSymCnt = s.encSymCnt := rfl
@[simp] theorem appendCode_decBitCnt (x : Nat) (s : State) :
    (appendCode x s).decBitCnt = s.decBitCnt := rfl
@[simp] theorem appendCode_decSymCnt (x : Nat) (s : State) :
    (appendCode x s).decSymCnt = s.decSymCnt := rfl
@[simp] theorem appendCode_decCur (x : Nat) (s : State) : (appendCode x s).decCur = s.decCur := rfl
@[simp] theorem appendCode_ebuf (x : Nat) (s : State) :
    (appendCode x s).ebuf = if s.eSink then s.ebuf ++ codeString (codeAt s.code x) else s.ebuf := rfl
@[simp] theorem appendCode_efin (x : Nat) (s : State) : (appendCode x s).efin = s.efin := rfl
@[simp] theorem appendCode_eSink (x : Nat) (s : State) : (appendCode x s).eSink = s.eSink := rfl
@[simp] theorem appendCode_eOrd (x : Nat) (s : State) : (appendCode x s).eOrd = s.eOrd := rfl
@[simp] theorem appendCode_dbuf (x : Nat) (s : State) : (appendCode x s).dbuf = s.dbuf := rfl
@[simp] theorem appendCode_dOrd (x : Nat) (s : State) : (appendCode x s).dOrd = s.dOrd := rfl
@[simp] theorem appendCode_sin (x : Nat) (s : State) : (appendCode x s).sin = s.sin := rfl
@[simp] theorem appendCode_bout (x : Nat) (s : State) : (appendCode x s).bout = s.bout := rfl
@[simp] theorem appendCode_bin (x : Nat) (s : State) : (appendCode x s).bin = s.bin := rfl
@[simp] theorem appendCode_sout (x : Nat) (s : State) : (appendCode x s).sout = s.sout := rfl
@[simp] theorem appendCode_chDepth (x : Nat) (s : State) :
    (appendCode x s).chDepth = s.chDepth := rfl
@[simp] theorem appendCode_agenda (x : Nat) (s : State) : (appendCode x s).agenda = s.agenda := rfl
@[simp] theorem appendCode_resp (x : Nat) (s : State) : (appendCode x s).resp = s.resp := rfl
@[simp] theorem appendCode_boutGot (x : Nat) (s : State) :
    (appendCode x s).boutGot = s.boutGot := rfl
@[simp] theorem appendCode_soutGot (x : Nat) (s : State) :
    (appendCode x s).soutGot = s.soutGot := rfl
@[simp] theorem appendCode_draws (x : Nat) (s : State) : (appendCode x s).draws = s.draws := rfl

/-! ### `freqClrAccepted` -/

@[simp] theorem freqClrAccepted_ctrl (s : State) : (freqClrAccepted s).ctrl = s.ctrl := rfl
@[simp] theorem freqClrAccepted_treeValid (s : State) :
    (freqClrAccepted s).treeValid = s.treeValid := rfl
@[simp] theorem freqClrAccepted_mapValid (s : State) :
    (freqClrAccepted s).mapValid = s.mapValid := rfl
@[simp] theorem freqClrAccepted_done (s : State) : (freqClrAccepted s).done = s.done := rfl
@[simp] theorem freqClrAccepted_emult (s : State) : (freqClrAccepted s).emult = s.emult := rfl
@[simp] theorem freqClrAccepted_active (s : State) : (freqClrAccepted s).active = .freqClr := rfl
@[simp] theorem freqClrAccepted_errCode (s : State) : (freqClrAccepted s).errCode = s.errCode := rfl
@[simp] theorem freqClrAccepted_errInfo (s : State) : (freqClrAccepted s).errInfo = s.errInfo := rfl
@[simp] theorem freqClrAccepted_root (s : State) : (freqClrAccepted s).root = s.root := rfl
@[simp] theorem freqClrAccepted_nleaf (s : State) : (freqClrAccepted s).nleaf = s.nleaf := rfl
@[simp] theorem freqClrAccepted_freqIdx (s : State) : (freqClrAccepted s).freqIdx = 0 := rfl
@[simp] theorem freqClrAccepted_freq (s : State) : (freqClrAccepted s).freq = s.freq := rfl
@[simp] theorem freqClrAccepted_nodeIdx (s : State) : (freqClrAccepted s).nodeIdx = s.nodeIdx := rfl
@[simp] theorem freqClrAccepted_node (s : State) : (freqClrAccepted s).node = s.node := rfl
@[simp] theorem freqClrAccepted_codeIdx (s : State) : (freqClrAccepted s).codeIdx = s.codeIdx := rfl
@[simp] theorem freqClrAccepted_code (s : State) : (freqClrAccepted s).code = s.code := rfl
@[simp] theorem freqClrAccepted_encBitCnt (s : State) :
    (freqClrAccepted s).encBitCnt = s.encBitCnt := rfl
@[simp] theorem freqClrAccepted_encSymCnt (s : State) :
    (freqClrAccepted s).encSymCnt = s.encSymCnt := rfl
@[simp] theorem freqClrAccepted_decBitCnt (s : State) :
    (freqClrAccepted s).decBitCnt = s.decBitCnt := rfl
@[simp] theorem freqClrAccepted_decSymCnt (s : State) :
    (freqClrAccepted s).decSymCnt = s.decSymCnt := rfl
@[simp] theorem freqClrAccepted_decCur (s : State) : (freqClrAccepted s).decCur = s.decCur := rfl
@[simp] theorem freqClrAccepted_ebuf (s : State) : (freqClrAccepted s).ebuf = s.ebuf := rfl
@[simp] theorem freqClrAccepted_efin (s : State) : (freqClrAccepted s).efin = s.efin := rfl
@[simp] theorem freqClrAccepted_eSink (s : State) : (freqClrAccepted s).eSink = s.eSink := rfl
@[simp] theorem freqClrAccepted_eOrd (s : State) : (freqClrAccepted s).eOrd = s.eOrd := rfl
@[simp] theorem freqClrAccepted_dbuf (s : State) : (freqClrAccepted s).dbuf = s.dbuf := rfl
@[simp] theorem freqClrAccepted_dOrd (s : State) : (freqClrAccepted s).dOrd = s.dOrd := rfl
@[simp] theorem freqClrAccepted_sin (s : State) : (freqClrAccepted s).sin = s.sin := rfl
@[simp] theorem freqClrAccepted_bout (s : State) : (freqClrAccepted s).bout = s.bout := rfl
@[simp] theorem freqClrAccepted_bin (s : State) : (freqClrAccepted s).bin = s.bin := rfl
@[simp] theorem freqClrAccepted_sout (s : State) : (freqClrAccepted s).sout = s.sout := rfl
@[simp] theorem freqClrAccepted_chDepth (s : State) : (freqClrAccepted s).chDepth = s.chDepth := rfl
@[simp] theorem freqClrAccepted_agenda (s : State) : (freqClrAccepted s).agenda = s.agenda := rfl
@[simp] theorem freqClrAccepted_resp (s : State) : (freqClrAccepted s).resp = s.resp := rfl
@[simp] theorem freqClrAccepted_boutGot (s : State) : (freqClrAccepted s).boutGot = s.boutGot := rfl
@[simp] theorem freqClrAccepted_soutGot (s : State) : (freqClrAccepted s).soutGot = s.soutGot := rfl
@[simp] theorem freqClrAccepted_draws (s : State) : (freqClrAccepted s).draws = s.draws := rfl

/-! ### `freqClrComplete` -/

@[simp] theorem freqClrComplete_ctrl (s : State) : (freqClrComplete s).ctrl = s.ctrl := rfl
@[simp] theorem freqClrComplete_treeValid (s : State) :
    (freqClrComplete s).treeValid = s.treeValid := rfl
@[simp] theorem freqClrComplete_mapValid (s : State) :
    (freqClrComplete s).mapValid = s.mapValid := rfl
@[simp] theorem freqClrComplete_done (s : State) : (freqClrComplete s).done = true := rfl
@[simp] theorem freqClrComplete_emult (s : State) : (freqClrComplete s).emult = s.emult := rfl
@[simp] theorem freqClrComplete_active (s : State) : (freqClrComplete s).active = .idle := rfl
@[simp] theorem freqClrComplete_errCode (s : State) : (freqClrComplete s).errCode = s.errCode := rfl
@[simp] theorem freqClrComplete_errInfo (s : State) : (freqClrComplete s).errInfo = s.errInfo := rfl
@[simp] theorem freqClrComplete_root (s : State) : (freqClrComplete s).root = s.root := rfl
@[simp] theorem freqClrComplete_nleaf (s : State) : (freqClrComplete s).nleaf = s.nleaf := rfl
@[simp] theorem freqClrComplete_freqIdx (s : State) : (freqClrComplete s).freqIdx = s.freqIdx := rfl
@[simp] theorem freqClrComplete_freq (s : State) : (freqClrComplete s).freq = zeroFreq := rfl
@[simp] theorem freqClrComplete_nodeIdx (s : State) : (freqClrComplete s).nodeIdx = s.nodeIdx := rfl
@[simp] theorem freqClrComplete_node (s : State) : (freqClrComplete s).node = s.node := rfl
@[simp] theorem freqClrComplete_codeIdx (s : State) : (freqClrComplete s).codeIdx = s.codeIdx := rfl
@[simp] theorem freqClrComplete_code (s : State) : (freqClrComplete s).code = s.code := rfl
@[simp] theorem freqClrComplete_encBitCnt (s : State) :
    (freqClrComplete s).encBitCnt = s.encBitCnt := rfl
@[simp] theorem freqClrComplete_encSymCnt (s : State) :
    (freqClrComplete s).encSymCnt = s.encSymCnt := rfl
@[simp] theorem freqClrComplete_decBitCnt (s : State) :
    (freqClrComplete s).decBitCnt = s.decBitCnt := rfl
@[simp] theorem freqClrComplete_decSymCnt (s : State) :
    (freqClrComplete s).decSymCnt = s.decSymCnt := rfl
@[simp] theorem freqClrComplete_decCur (s : State) : (freqClrComplete s).decCur = s.decCur := rfl
@[simp] theorem freqClrComplete_ebuf (s : State) : (freqClrComplete s).ebuf = s.ebuf := rfl
@[simp] theorem freqClrComplete_efin (s : State) : (freqClrComplete s).efin = s.efin := rfl
@[simp] theorem freqClrComplete_eSink (s : State) : (freqClrComplete s).eSink = s.eSink := rfl
@[simp] theorem freqClrComplete_eOrd (s : State) : (freqClrComplete s).eOrd = s.eOrd := rfl
@[simp] theorem freqClrComplete_dbuf (s : State) : (freqClrComplete s).dbuf = s.dbuf := rfl
@[simp] theorem freqClrComplete_dOrd (s : State) : (freqClrComplete s).dOrd = s.dOrd := rfl
@[simp] theorem freqClrComplete_sin (s : State) : (freqClrComplete s).sin = s.sin := rfl
@[simp] theorem freqClrComplete_bout (s : State) : (freqClrComplete s).bout = s.bout := rfl
@[simp] theorem freqClrComplete_bin (s : State) : (freqClrComplete s).bin = s.bin := rfl
@[simp] theorem freqClrComplete_sout (s : State) : (freqClrComplete s).sout = s.sout := rfl
@[simp] theorem freqClrComplete_chDepth (s : State) : (freqClrComplete s).chDepth = s.chDepth := rfl
@[simp] theorem freqClrComplete_agenda (s : State) : (freqClrComplete s).agenda = s.agenda := rfl
@[simp] theorem freqClrComplete_resp (s : State) : (freqClrComplete s).resp = s.resp := rfl
@[simp] theorem freqClrComplete_boutGot (s : State) : (freqClrComplete s).boutGot = s.boutGot := rfl
@[simp] theorem freqClrComplete_soutGot (s : State) : (freqClrComplete s).soutGot = s.soutGot := rfl
@[simp] theorem freqClrComplete_draws (s : State) : (freqClrComplete s).draws = s.draws := rfl

/-! ### `treeFreeAccepted` -/

@[simp] theorem treeFreeAccepted_ctrl (s : State) : (treeFreeAccepted s).ctrl = s.ctrl := rfl
@[simp] theorem treeFreeAccepted_treeValid (s : State) :
    (treeFreeAccepted s).treeValid = false := rfl
@[simp] theorem treeFreeAccepted_mapValid (s : State) :
    (treeFreeAccepted s).mapValid = s.mapValid := rfl
@[simp] theorem treeFreeAccepted_done (s : State) : (treeFreeAccepted s).done = true := rfl
@[simp] theorem treeFreeAccepted_emult (s : State) : (treeFreeAccepted s).emult = s.emult := rfl
@[simp] theorem treeFreeAccepted_active (s : State) : (treeFreeAccepted s).active = .idle := rfl
@[simp] theorem treeFreeAccepted_errCode (s : State) :
    (treeFreeAccepted s).errCode = s.errCode := rfl
@[simp] theorem treeFreeAccepted_errInfo (s : State) :
    (treeFreeAccepted s).errInfo = s.errInfo := rfl
@[simp] theorem treeFreeAccepted_root (s : State) : (treeFreeAccepted s).root = 0 := rfl
@[simp] theorem treeFreeAccepted_nleaf (s : State) : (treeFreeAccepted s).nleaf = 0 := rfl
@[simp] theorem treeFreeAccepted_freqIdx (s : State) :
    (treeFreeAccepted s).freqIdx = s.freqIdx := rfl
@[simp] theorem treeFreeAccepted_freq (s : State) : (treeFreeAccepted s).freq = s.freq := rfl
@[simp] theorem treeFreeAccepted_nodeIdx (s : State) :
    (treeFreeAccepted s).nodeIdx = s.nodeIdx := rfl
@[simp] theorem treeFreeAccepted_node (s : State) : (treeFreeAccepted s).node = s.node := rfl
@[simp] theorem treeFreeAccepted_codeIdx (s : State) :
    (treeFreeAccepted s).codeIdx = s.codeIdx := rfl
@[simp] theorem treeFreeAccepted_code (s : State) : (treeFreeAccepted s).code = s.code := rfl
@[simp] theorem treeFreeAccepted_encBitCnt (s : State) :
    (treeFreeAccepted s).encBitCnt = s.encBitCnt := rfl
@[simp] theorem treeFreeAccepted_encSymCnt (s : State) :
    (treeFreeAccepted s).encSymCnt = s.encSymCnt := rfl
@[simp] theorem treeFreeAccepted_decBitCnt (s : State) :
    (treeFreeAccepted s).decBitCnt = s.decBitCnt := rfl
@[simp] theorem treeFreeAccepted_decSymCnt (s : State) :
    (treeFreeAccepted s).decSymCnt = s.decSymCnt := rfl
@[simp] theorem treeFreeAccepted_decCur (s : State) : (treeFreeAccepted s).decCur = s.decCur := rfl
@[simp] theorem treeFreeAccepted_ebuf (s : State) : (treeFreeAccepted s).ebuf = s.ebuf := rfl
@[simp] theorem treeFreeAccepted_efin (s : State) : (treeFreeAccepted s).efin = s.efin := rfl
@[simp] theorem treeFreeAccepted_eSink (s : State) : (treeFreeAccepted s).eSink = s.eSink := rfl
@[simp] theorem treeFreeAccepted_eOrd (s : State) : (treeFreeAccepted s).eOrd = s.eOrd := rfl
@[simp] theorem treeFreeAccepted_dbuf (s : State) : (treeFreeAccepted s).dbuf = s.dbuf := rfl
@[simp] theorem treeFreeAccepted_dOrd (s : State) : (treeFreeAccepted s).dOrd = s.dOrd := rfl
@[simp] theorem treeFreeAccepted_sin (s : State) : (treeFreeAccepted s).sin = s.sin := rfl
@[simp] theorem treeFreeAccepted_bout (s : State) : (treeFreeAccepted s).bout = s.bout := rfl
@[simp] theorem treeFreeAccepted_bin (s : State) : (treeFreeAccepted s).bin = s.bin := rfl
@[simp] theorem treeFreeAccepted_sout (s : State) : (treeFreeAccepted s).sout = s.sout := rfl
@[simp] theorem treeFreeAccepted_chDepth (s : State) :
    (treeFreeAccepted s).chDepth = s.chDepth := rfl
@[simp] theorem treeFreeAccepted_agenda (s : State) : (treeFreeAccepted s).agenda = s.agenda := rfl
@[simp] theorem treeFreeAccepted_resp (s : State) : (treeFreeAccepted s).resp = s.resp := rfl
@[simp] theorem treeFreeAccepted_boutGot (s : State) :
    (treeFreeAccepted s).boutGot = s.boutGot := rfl
@[simp] theorem treeFreeAccepted_soutGot (s : State) :
    (treeFreeAccepted s).soutGot = s.soutGot := rfl
@[simp] theorem treeFreeAccepted_draws (s : State) : (treeFreeAccepted s).draws = s.draws := rfl

/-! ### `buildAccepted` -/

@[simp] theorem buildAccepted_ctrl (s : State) : (buildAccepted s).ctrl = s.ctrl := rfl
@[simp] theorem buildAccepted_treeValid (s : State) : (buildAccepted s).treeValid = false := rfl
@[simp] theorem buildAccepted_mapValid (s : State) : (buildAccepted s).mapValid = false := rfl
@[simp] theorem buildAccepted_done (s : State) : (buildAccepted s).done = s.done := rfl
@[simp] theorem buildAccepted_emult (s : State) : (buildAccepted s).emult = s.emult := rfl
@[simp] theorem buildAccepted_active (s : State) : (buildAccepted s).active = .build := rfl
@[simp] theorem buildAccepted_errCode (s : State) : (buildAccepted s).errCode = s.errCode := rfl
@[simp] theorem buildAccepted_errInfo (s : State) : (buildAccepted s).errInfo = s.errInfo := rfl
@[simp] theorem buildAccepted_root (s : State) : (buildAccepted s).root = 0 := rfl
@[simp] theorem buildAccepted_nleaf (s : State) : (buildAccepted s).nleaf = 0 := rfl
@[simp] theorem buildAccepted_freqIdx (s : State) : (buildAccepted s).freqIdx = s.freqIdx := rfl
@[simp] theorem buildAccepted_freq (s : State) : (buildAccepted s).freq = s.freq := rfl
@[simp] theorem buildAccepted_nodeIdx (s : State) : (buildAccepted s).nodeIdx = s.nodeIdx := rfl
@[simp] theorem buildAccepted_node (s : State) :
    (buildAccepted s).node = invalidateNodes s.node := rfl
@[simp] theorem buildAccepted_codeIdx (s : State) : (buildAccepted s).codeIdx = s.codeIdx := rfl
@[simp] theorem buildAccepted_code (s : State) : (buildAccepted s).code = s.code := rfl
@[simp] theorem buildAccepted_encBitCnt (s : State) :
    (buildAccepted s).encBitCnt = s.encBitCnt := rfl
@[simp] theorem buildAccepted_encSymCnt (s : State) :
    (buildAccepted s).encSymCnt = s.encSymCnt := rfl
@[simp] theorem buildAccepted_decBitCnt (s : State) :
    (buildAccepted s).decBitCnt = s.decBitCnt := rfl
@[simp] theorem buildAccepted_decSymCnt (s : State) :
    (buildAccepted s).decSymCnt = s.decSymCnt := rfl
@[simp] theorem buildAccepted_decCur (s : State) : (buildAccepted s).decCur = s.decCur := rfl
@[simp] theorem buildAccepted_ebuf (s : State) : (buildAccepted s).ebuf = s.ebuf := rfl
@[simp] theorem buildAccepted_efin (s : State) : (buildAccepted s).efin = s.efin := rfl
@[simp] theorem buildAccepted_eSink (s : State) : (buildAccepted s).eSink = s.eSink := rfl
@[simp] theorem buildAccepted_eOrd (s : State) : (buildAccepted s).eOrd = s.eOrd := rfl
@[simp] theorem buildAccepted_dbuf (s : State) : (buildAccepted s).dbuf = s.dbuf := rfl
@[simp] theorem buildAccepted_dOrd (s : State) : (buildAccepted s).dOrd = s.dOrd := rfl
@[simp] theorem buildAccepted_sin (s : State) : (buildAccepted s).sin = s.sin := rfl
@[simp] theorem buildAccepted_bout (s : State) : (buildAccepted s).bout = s.bout := rfl
@[simp] theorem buildAccepted_bin (s : State) : (buildAccepted s).bin = s.bin := rfl
@[simp] theorem buildAccepted_sout (s : State) : (buildAccepted s).sout = s.sout := rfl
@[simp] theorem buildAccepted_chDepth (s : State) : (buildAccepted s).chDepth = s.chDepth := rfl
@[simp] theorem buildAccepted_agenda (s : State) : (buildAccepted s).agenda = s.agenda := rfl
@[simp] theorem buildAccepted_resp (s : State) : (buildAccepted s).resp = s.resp := rfl
@[simp] theorem buildAccepted_boutGot (s : State) : (buildAccepted s).boutGot = s.boutGot := rfl
@[simp] theorem buildAccepted_soutGot (s : State) : (buildAccepted s).soutGot = s.soutGot := rfl
@[simp] theorem buildAccepted_draws (s : State) : (buildAccepted s).draws = s.draws := rfl

end Sys2Proof.Machine
end

