-- ==== Sys2Proof/Laws/Ops.lean ====
section
/-! SUPPORT. What each shared operation can do, said once: the arrays (read after write), the error
record, acceptance, the channels, packing. -/

namespace Sys2Proof.Machine

/-! ### Arrays -/

@[simp] theorem getElem?_tabulate {α : Type} (n : Nat) (f : Nat → α) (i : Nat) :
    (tabulate n f)[i]? = if i < n then some (f i) else none := by
  by_cases h : i < n
  · have h' : i < (tabulate n f).toArray.size := by simp [tabulate, h]
    simp [tabulate, h]
  · simp [tabulate, h]

@[simp] theorem getElem?_mapEntries {α : Type} {n : Nat} (f : α → α) (v : Vector α n) (i : Nat) :
    (mapEntries f v)[i]? = (v[i]?).map f := by
  simp [mapEntries]

/-- Reading `FREQ` after a write (R110). -/
theorem freqAt_setFreq (f : FreqRam) (i j : Nat) (v : Word) (h : i < 257) :
    freqAt (setFreq f i v) j = if i = j then v else freqAt f j := by
  by_cases e : i = j
  · subst e; simp [freqAt, setFreq, h]
  · simp [freqAt, setFreq, e]

@[simp] theorem freqAt_zeroFreq (i : Nat) : freqAt zeroFreq i = 0 := by
  unfold freqAt zeroFreq
  rw [getElem?_tabulate]
  split <;> rfl

theorem freqAt_tabulate (g : Nat → Word) (i : Nat) (h : i < 257) :
    freqAt (tabulate 257 g) i = g i := by
  unfold freqAt
  rw [getElem?_tabulate, if_pos h]
  rfl

theorem freqAt_past (f : FreqRam) (i : Nat) (h : 257 ≤ i) : freqAt f i = 0 := by
  simp [freqAt, Vector.getElem?_eq_none h]

/-- Reading `NODE` after a write (R132). -/
theorem nodeAt_setNode (ram : NodeRam) (i j : Nat) (n : Node) (h : i < 513) :
    nodeAt (setNode ram i n) j = if i = j then n else nodeAt ram j := by
  by_cases e : i = j
  · subst e; simp [nodeAt, setNode, h]
  · simp [nodeAt, setNode, e]

theorem nodeAt_past (ram : NodeRam) (i : Nat) (h : 513 ≤ i) : nodeAt ram i = noNode := by
  simp [nodeAt, Vector.getElem?_eq_none h]

/-- `BUILD` acceptance clears `VALID` and nothing else of an entry (R131). -/
theorem nodeAt_invalidateNodes (ram : NodeRam) (i : Nat) :
    nodeAt (invalidateNodes ram) i = { nodeAt ram i with valid := false } := by
  simp only [nodeAt, invalidateNodes, getElem?_mapEntries]
  cases ram[i]? <;> rfl

@[simp] theorem nodeAt_invalidateNodes_valid (ram : NodeRam) (i : Nat) :
    (nodeAt (invalidateNodes ram) i).valid = false := by
  rw [nodeAt_invalidateNodes]

/-- A valid node is an entry of the array. -/
theorem lt_of_nodeAt_valid {ram : NodeRam} {i : Nat} (h : (nodeAt ram i).valid = true) : i < 513 := by
  by_contra hi
  rw [nodeAt_past ram i (by omega)] at h
  simp [noNode] at h

/-- Reading `CODE` after a write (R152). -/
theorem codeAt_setCode (rom : CodeRom) (i j : Nat) (c : CodeEntry) (h : i < 257) :
    codeAt (setCode rom i c) j = if i = j then c else codeAt rom j := by
  by_cases e : i = j
  · subst e; simp [codeAt, setCode, h]
  · simp [codeAt, setCode, e]

@[simp] theorem codeAt_emptyCode (i : Nat) : codeAt emptyCode i = noCode := by
  unfold codeAt emptyCode
  rw [getElem?_tabulate]
  split <;> rfl

/-! ### Flags -/

@[simp] theorem err_eq_false {s : State} : err s = false ↔ s.errCode = 0 := by simp [err]

@[simp] theorem err_eq_true {s : State} : err s = true ↔ s.errCode ≠ 0 := by simp [err]

@[simp] theorem busy_eq_false {s : State} : busy s = false ↔ s.active = .idle := by simp [busy]

@[simp] theorem busy_eq_true {s : State} : busy s = true ↔ s.active ≠ .idle := by simp [busy]

/-! ### Acceptance -/

theorem accept_of_err {op : BitVec 16} {body : State → State} {s : State} (h : s.errCode ≠ 0) :
    accept op body s = { s with emult := true } := by
  have e : err s = true := by simpa using h
  simp only [accept, e, if_true]

theorem accept_of_busy {op : BitVec 16} {body : State → State} {s : State} (h : s.errCode = 0)
    (hb : s.active ≠ .idle) : accept op body s = raise .busy op s := by
  have e : err s = false := by simpa using h
  have b : busy s = true := by simpa using hb
  simp [accept, e, b]

theorem accept_of_idle {op : BitVec 16} {body : State → State} {s : State} (h : s.errCode = 0)
    (hb : s.active = .idle) : accept op body s = body { s with done := false } := by
  have e : err s = false := by simpa using h
  have b : busy s = false := by simpa using hb
  simp [accept, e, b]

/-- Everything acceptance can do (R100). -/
theorem accept_cases (op : BitVec 16) (body : State → State) (s : State) :
    (s.errCode ≠ 0 ∧ accept op body s = { s with emult := true }) ∨
    (s.errCode = 0 ∧ s.active ≠ .idle ∧ accept op body s = raise .busy op s) ∨
    (s.errCode = 0 ∧ s.active = .idle ∧ accept op body s = body { s with done := false }) := by
  by_cases h : s.errCode = 0
  · by_cases hb : s.active = .idle
    · exact .inr (.inr ⟨h, hb, accept_of_idle h hb⟩)
    · exact .inr (.inl ⟨h, hb, accept_of_busy h hb⟩)
  · exact .inl ⟨h, accept_of_err h⟩

/-! ### Items and packing -/

@[simp] theorem itemEnd_byteItem (v : Byte) : itemEnd (byteItem v) = false := by
  unfold itemEnd byteItem
  rw [BitVec.getLsbD_append]
  rfl

@[simp] theorem itemData_byteItem (v : Byte) : itemData (byteItem v) = v := by
  apply BitVec.eq_of_getLsbD_eq
  intro i hi
  unfold itemData byteItem
  rw [BitVec.getLsbD_extractLsb', BitVec.getLsbD_append]
  simp [hi]

@[simp] theorem itemEnd_endItem : itemEnd endItem = true := by decide

@[simp] theorem unpack_length (v : Byte) (ord : Bool) : (unpack v ord).length = 8 := by
  simp [unpack]

@[simp] theorem codeString_length (c : CodeEntry) : (codeString c).length = c.len.toNat := by
  simp [codeString]

/-! ### The heads of the input channels -/

theorem sinHeadIsByte_iff {s : State} {v : Byte} :
    sinHeadIsByte s v = true ↔ ∃ it rest, s.sin = it :: rest ∧ itemEnd it = false ∧ itemData it = v := by
  unfold sinHeadIsByte
  cases s.sin <;> simp

theorem sinHeadIsEnd_iff {s : State} :
    sinHeadIsEnd s = true ↔ ∃ it rest, s.sin = it :: rest ∧ itemEnd it = true := by
  unfold sinHeadIsEnd
  cases s.sin <;> simp

theorem binHeadIsByte_iff {s : State} {v : Byte} :
    binHeadIsByte s v = true ↔ ∃ it rest, s.bin = it :: rest ∧ itemEnd it = false ∧ itemData it = v := by
  unfold binHeadIsByte
  cases s.bin <;> simp

theorem binHeadIsEnd_iff {s : State} :
    binHeadIsEnd s = true ↔ ∃ it rest, s.bin = it :: rest ∧ itemEnd it = true := by
  unfold binHeadIsEnd
  cases s.bin <;> simp

/-- Every enabled take step finds its condition (the table of 43_encoder). -/
theorem encTakes_iff {s : State} :
    encTakes s = true ↔ s.active = .encode ∧ s.efin = false ∧ s.ebuf.length < 8 := by
  simp [encTakes, and_assoc]

theorem atInternal_iff {s : State} :
    atInternal s = true ↔ s.active = .decode ∧ (curNode s).sym = 257#9 := by
  simp [atInternal]

theorem decTakes_iff {s : State} :
    decTakes s = true ↔ s.active = .decode ∧ (curNode s).sym = 257#9 ∧ s.dbuf = [] := by
  simp [decTakes, atInternal_iff, and_assoc]

/-! ### The queue of the tree builder -/

theorem minKey_mem (ram : NodeRam) (a : Nat) (q : List Nat) : minKey ram a q ∈ a :: q := by
  induction q generalizing a with
  | nil => simp [minKey]
  | cons b q ih =>
    simp only [minKey]
    split
    · exact List.mem_cons_of_mem _ (ih b)
    · have := ih a
      simp only [List.mem_cons] at this ⊢
      tauto

/-- A removal shortens the queue by one. -/
theorem popMin_length {ram : NodeRam} {q rest : List Nat} {a : Nat}
    (h : popMin ram q = some (a, rest)) : rest.length + 1 = q.length := by
  cases q with
  | nil => simp [popMin] at h
  | cons b q =>
    simp only [popMin, Option.some.injEq, Prod.mk.injEq] at h
    obtain ⟨ha, rfl⟩ := h
    rw [List.length_erase_of_mem (minKey_mem ram b q)]
    simp

theorem popMin_eq_none {ram : NodeRam} {q : List Nat} : popMin ram q = none ↔ q = [] := by
  cases q <;> simp [popMin]

end Sys2Proof.Machine
end

