-- ==== Sys2Proof/Machine/HostProgram.lean ====
section
/-! DEFINITION. The host's side (45_host_sequences): the host notation of R91 and R92 as moves of an
agenda, the reference frequency function (R230), and the load, compress and decompress sequences
(R231 to R233). It is what a conforming host does, not behaviour of the block (R4). -/

namespace Sys2Proof.Machine

/-- `WR <reg>, <value>` (R91). -/
def hostWr (r : Reg) (v : Word) : HostMove := .write r.offset .w32 v

/-- `RD <reg>` (R91). -/
def hostRd (r : Reg) : HostMove := .read r.offset .w32

/-- `CMD <mnemonic>` (R91): the opcode of the command (R81), written to `CMD`. -/
def hostCmd (op : Byte) : HostMove := hostWr .cmd (commandWord op)

/-- `CHECK` (R92): the read of `ERRCODE`. DESIGN CHOICE (log 22): R92 says that the program is in error
when the value is not 0, and not what the host does then; the agenda goes on with its next move. -/
def hostCheck : HostMove := hostRd .errCode

/-- `LDFREQ <s>, <c>` (R92). -/
def hostLdFreq (s : Nat) (c : Word) : List HostMove :=
  [hostWr .freqIdx (BitVec.ofNat 32 s), hostWr .freqData c]

/-- `SINS "<bytes>"` (R92): the bytes, then `END`. -/
def hostSins (bytes : List Byte) : List HostMove :=
  (bytes.map byteItem ++ [endItem]).map .placeSin

/-- `freq(S)[s]` (R230). -/
def refFreq (bytes : List Byte) (s : Nat) : Nat :=
  if s = 256 then 1 else (bytes.filter (fun v => v.toNat == s)).length

/-- A table a host may load (R230): no count of 2^32 or more. -/
def loadable (table : Nat → Nat) : Bool := (List.range 257).all (fun s => decide (table s < 2 ^ 32))

/-- The loading sequence of a table (R231): `FREQ_CLR`, `WAIT`, one `LDFREQ` per non-zero count,
ascending, and `CHECK`. `none` where the host must not load the table: a count of 2^32 or more does
not fit an entry, and such inputs are unsupported (R230, U15). -/
def hostLoad (table : Nat → Nat) : Option (List HostMove) :=
  if loadable table then
    some
      ([hostCmd 0x01#8, .wait] ++
        ((List.range 257).filter (fun s => table s != 0)).flatMap
          (fun s => hostLdFreq s (BitVec.ofNat 32 (table s))) ++
        [hostCheck])
  else none

/-- The compress sequence of R232, with the value written to `CTRL`. The host drains `BOUT` while it
feeds `SIN` and while it waits (R232, R294), so that no `CH_DEPTH` makes it hang (log 21). -/
def hostCompress (ctrl : Word) (bytes : List Byte) : Option (List HostMove) :=
  (hostLoad (refFreq bytes)).map (fun load =>
    load ++
      [hostCmd 0x02#8, .wait, hostCheck, hostCmd 0x03#8, .wait, hostCheck, hostWr .ctrl ctrl,
        hostCmd 0x04#8] ++
      (bytes.map byteItem ++ [endItem]).map .feedSin ++ [.waitDrain, hostCheck, hostCmd 0x06#8])

/-- The decompress sequence of R233 for the table read from the header (R234) and the packed bytes. The
host drains `SOUT` while it feeds `BIN` and while it waits (R233, R294). With `END` at the end, which
the decoder need not take, the feed may leave items on `BIN` (R209, R290). -/
def hostDecompress (ctrl : Word) (table : Nat → Nat) (packed : List Byte) :
    Option (List HostMove) :=
  (hostLoad table).map (fun load =>
    load ++ [hostCmd 0x02#8, .wait, hostCheck, hostWr .ctrl ctrl, hostCmd 0x05#8] ++
      (packed.map byteItem ++ [endItem]).map .feedBin ++ [.waitDrain, hostCheck, hostCmd 0x06#8])

/-- The removal of `n` leftover items of `SIN` and of `BIN` before the next session (R290, log 20). -/
def hostRemoveLeftovers (n : Nat) : List HostMove :=
  List.replicate n .removeSin ++ List.replicate n .removeBin

/-- The bytes of a stream of output items: the `BYTE` items before its `END` (R232, R233). `none` where
no `END` came: what a failed or aborted session put is no result (R179, R210, R105, R256, U27). -/
def streamBytes (items : List Item) : Option (List Byte) :=
  if items.any itemEnd then some ((items.takeWhile (fun it => !itemEnd it)).map itemData) else none

/-- What a session gives the host: the bytes of its stream, if the host's `CHECK` finds no error (R232,
R233). DESIGN CHOICE (log 23): with an error recorded there is no result, whatever the stream holds. -/
def sessionResult (items : List Item) (s : State) : Option (List Byte) :=
  if err s then none else streamBytes items

/-- The compressed artifact after the header (R232), at the end `s` of an encode session started in `s₀`:
the `BYTE` items the host took from `BOUT`, without the items put before the session. Its exact bit
length is `ENC_BITCNT`. `none` marks output that is no result (R256, U27, log 23). -/
def compressedBytes (s₀ s : State) : Option (List Byte) :=
  sessionResult (s.boutGot.drop (s₀.boutGot.length + s₀.bout.length)) s

/-- The decoded bytes (R233), at the end `s` of a decode session started in `s₀`: the `BYTE` items before
`END` that the host took from `SOUT`, without the items put before the session. `none` marks output
that is no result (R256, U27, log 23). -/
def decodedBytes (s₀ s : State) : Option (List Byte) :=
  sessionResult (s.soutGot.drop (s₀.soutGot.length + s₀.sout.length)) s

end Sys2Proof.Machine
end

