-- ==== Sys2Proof/Laws/HostProgram.lean ====
section
/-! SUPPORT. What the host's side computes, said once: which tables it loads, and which output is a
result. -/

namespace Sys2Proof.Machine

/-- The host loads a table exactly if no count is 2^32 or more (R230, U15). -/
theorem hostLoad_isSome {table : Nat → Nat} :
    (hostLoad table).isSome = true ↔ ∀ s, s < 257 → table s < 2 ^ 32 := by
  unfold hostLoad loadable
  split <;> simp_all

/-- The stream of a successful session is its bytes (R232, R233). -/
theorem streamBytes_of_end (bytes : List Byte) (rest : List Item) :
    streamBytes (bytes.map byteItem ++ endItem :: rest) = some bytes := by
  have h : (bytes.map byteItem ++ endItem :: rest).any itemEnd = true := by simp
  rw [streamBytes, if_pos h]
  congr 1
  induction bytes with
  | nil => simp
  | cons v bytes ih =>
    have ih := ih (by simp)
    simpa using ih

/-- Bytes with no `END` after them are no result (R256, U27). -/
theorem streamBytes_of_bytes (bytes : List Byte) : streamBytes (bytes.map byteItem) = none := by
  rw [streamBytes, if_neg (by simp)]

/-- With an error recorded there is no result (log 23). -/
theorem sessionResult_of_err {s : State} (h : s.errCode ≠ 0) (items : List Item) :
    sessionResult items s = none := by
  rw [sessionResult, if_pos (by simpa using h)]

end Sys2Proof.Machine
end

