-- ==== Sys2Proof/Laws/Huffman.lean ====
section
/-! SUPPORT. The arithmetic of R145, apart from the machine: what the greedy minimum-pair merge costs is
at most the weighted length of any lengths that satisfy Kraft's inequality, and the lengths of a
binary prefix code satisfy it. -/

namespace Sys2Proof.Huffman

/-- A multiset of (weight, length) pairs is one way to give lengths to weights; its weighted length. -/
def cost (p : Multiset (ℕ × ℕ)) : ℕ := (p.map (fun x => x.1 * x.2)).sum

/-- Kraft's sum of the lengths. -/
def kraft (p : Multiset (ℕ × ℕ)) : ℚ := (p.map (fun x => (1 / 2 : ℚ) ^ x.2)).sum

/-- `Greedy ws c`: merging the two smallest weights of `ws` until one is left costs `c`, the sum of the
merged weights (R130, R135). -/
inductive Greedy : Multiset ℕ → ℕ → Prop
  | one (w : ℕ) : Greedy {w} 0
  | merge (a b : ℕ) (q : Multiset ℕ) (c : ℕ) (hab : a ≤ b) (hbq : ∀ x ∈ q, b ≤ x)
      (h : Greedy ((a + b) ::ₘ q) c) : Greedy (a ::ₘ b ::ₘ q) (a + b + c)

@[simp] theorem cost_zero : cost 0 = 0 := rfl

@[simp] theorem kraft_zero : kraft 0 = 0 := rfl

@[simp] theorem cost_cons (x : ℕ × ℕ) (p : Multiset (ℕ × ℕ)) :
    cost (x ::ₘ p) = x.1 * x.2 + cost p := by simp [cost]

@[simp] theorem kraft_cons (x : ℕ × ℕ) (p : Multiset (ℕ × ℕ)) :
    kraft (x ::ₘ p) = (1 / 2 : ℚ) ^ x.2 + kraft p := by simp [kraft]

theorem kraft_nonneg (p : Multiset (ℕ × ℕ)) : 0 ≤ kraft p := by
  induction p using Multiset.induction_on with
  | empty => simp
  | cons x p ih => rw [kraft_cons]; positivity

/-- A smallest weight can be given the largest length: the weights and the lengths stay, and the
weighted length does not grow. -/
theorem exchange (a la : ℕ) (r : Multiset (ℕ × ℕ)) (ha : ∀ x ∈ r, a ≤ x.1) :
    ∃ (la' : ℕ) (r' : Multiset (ℕ × ℕ)), (∀ x ∈ r', x.2 ≤ la') ∧ la ≤ la' ∧
      r'.map Prod.fst = r.map Prod.fst ∧
      la' ::ₘ r'.map Prod.snd = la ::ₘ r.map Prod.snd ∧
      a * la' + cost r' ≤ a * la + cost r := by
  by_cases h : ∀ x ∈ r, x.2 ≤ la
  · exact ⟨la, r, h, le_rfl, rfl, rfl, le_rfl⟩
  · push Not at h
    obtain ⟨y, hy, hly⟩ := h
    obtain ⟨m, hm, hmax⟩ := Multiset.exists_max_image Prod.snd (s := r)
      (by rintro rfl; simp at hy)
    obtain ⟨r₀, rfl⟩ := Multiset.exists_cons_of_mem hm
    have hlm : la ≤ m.2 := hly.le.trans (hmax y hy)
    refine ⟨m.2, (m.1, la) ::ₘ r₀, ?_, hlm, by simp, by simp [Multiset.cons_swap], ?_⟩
    · intro x hx
      rw [Multiset.mem_cons] at hx
      obtain rfl | hx := hx
      · exact hlm
      · exact hmax x (Multiset.mem_cons_of_mem hx)
    · have := ha m hm
      rw [cost_cons, cost_cons]
      dsimp only
      nlinarith

/-- Kraft's sum depends on the lengths alone. -/
theorem kraft_eq_of_snd {p q : Multiset (ℕ × ℕ)} (h : p.map Prod.snd = q.map Prod.snd) :
    kraft p = kraft q := by
  have e : ∀ p : Multiset (ℕ × ℕ), kraft p = ((p.map Prod.snd).map (fun l => (1 / 2 : ℚ) ^ l)).sum := by
    intro p; rw [Multiset.map_map]; rfl
  rw [e, e, h]

/-- Kraft's sum of lengths up to `l` is a multiple of 2^-l. -/
theorem kraft_multiple (l : ℕ) (r : Multiset (ℕ × ℕ)) (h : ∀ x ∈ r, x.2 ≤ l) :
    ∃ n : ℕ, kraft r * 2 ^ l = n := by
  induction r using Multiset.induction_on with
  | empty => exact ⟨0, by simp⟩
  | cons x r ih =>
    obtain ⟨n, hn⟩ := ih (fun y hy => h y (Multiset.mem_cons_of_mem hy))
    refine ⟨2 ^ (l - x.2) + n, ?_⟩
    have hx : x.2 ≤ l := h x (Multiset.mem_cons_self x r)
    rw [kraft_cons, add_mul, hn]
    push_cast
    congr 1
    rw [one_div, inv_pow, pow_sub₀ _ two_ne_zero hx]
    ring

/-- The length that is largest can be cut down to the second largest: Kraft's inequality stays. -/
theorem kraft_shorten (la lb : ℕ) (r : Multiset (ℕ × ℕ)) (hb : ∀ x ∈ r, x.2 ≤ lb)
    (h : (1 / 2 : ℚ) ^ la + ((1 / 2 : ℚ) ^ lb + kraft r) ≤ 1) :
    (1 / 2 : ℚ) ^ lb + ((1 / 2 : ℚ) ^ lb + kraft r) ≤ 1 := by
  obtain ⟨n, hn⟩ := kraft_multiple lb r hb
  have hp : (0 : ℚ) < 2 ^ lb := by positivity
  have hl : (1 / 2 : ℚ) ^ lb * 2 ^ lb = 1 := by rw [← mul_pow]; norm_num
  have ha : (0 : ℚ) < (1 / 2 : ℚ) ^ la := by positivity
  have hlt : ((n + 1 : ℕ) : ℚ) < ((2 ^ lb : ℕ) : ℚ) := by
    push_cast
    have : ((1 / 2 : ℚ) ^ lb + kraft r) * 2 ^ lb < 1 * 2 ^ lb :=
      mul_lt_mul_of_pos_right (by linarith) hp
    rw [add_mul, hl, hn] at this
    linarith
  have hle : ((n + 1 + 1 : ℕ) : ℚ) ≤ ((2 ^ lb : ℕ) : ℚ) := by exact_mod_cast Nat.cast_lt.1 hlt
  push_cast at hle
  by_contra hc
  push Not at hc
  have : 1 * 2 ^ lb < ((1 / 2 : ℚ) ^ lb + ((1 / 2 : ℚ) ^ lb + kraft r)) * 2 ^ lb :=
    mul_lt_mul_of_pos_right hc hp
  rw [add_mul, add_mul, hl, hn] at this
  linarith

/-- The greedy merge is optimal among all lengths that satisfy Kraft's inequality (R145). -/
theorem greedy_le {ws : Multiset ℕ} {c : ℕ} (h : Greedy ws c) (p : Multiset (ℕ × ℕ))
    (hw : p.map Prod.fst = ws) (hk : kraft p ≤ 1) : c ≤ cost p := by
  induction h generalizing p with
  | one w => exact Nat.zero_le _
  | merge a b q c hab hbq _ ih =>
    have fst_cons : ∀ (x : ℕ) (t : Multiset ℕ) (p : Multiset (ℕ × ℕ)), p.map Prod.fst = x ::ₘ t →
        ∃ l r, p = (x, l) ::ₘ r ∧ r.map Prod.fst = t := by
      intro x t p hp
      have hx : x ∈ p.map Prod.fst := by rw [hp]; exact Multiset.mem_cons_self x t
      obtain ⟨y, hy, rfl⟩ := Multiset.mem_map.1 hx
      obtain ⟨r, rfl⟩ := Multiset.exists_cons_of_mem hy
      rw [Multiset.map_cons, Multiset.cons_inj_right] at hp
      exact ⟨y.2, r, rfl, hp⟩
    obtain ⟨la, r, rfl, hr⟩ := fst_cons a _ p hw
    have fst_mem : ∀ {r : Multiset (ℕ × ℕ)} {t : Multiset ℕ}, r.map Prod.fst = t → ∀ x ∈ r, x.1 ∈ t :=
      fun e x hx => e ▸ Multiset.mem_map_of_mem Prod.fst hx
    -- the smallest weight takes the largest length, then the second smallest the second largest
    obtain ⟨la', r₁, hmax, -, hf₁, hs₁, hc₁⟩ := exchange a la r (fun x hx => by
      have := fst_mem hr x hx
      rw [Multiset.mem_cons] at this
      obtain h | h := this
      · omega
      · exact hab.trans (hbq _ h))
    obtain ⟨lb, r₂, rfl, hr₂⟩ := fst_cons b q r₁ (hf₁.trans hr)
    obtain ⟨lb', r₃, hmax', -, hf₂, hs₂, hc₂⟩ := exchange b lb r₂ (fun x hx => hbq _ (fst_mem hr₂ x hx))
    have hk₃ : kraft ((a, la') ::ₘ (b, lb') ::ₘ r₃) ≤ 1 := by
      refine le_of_eq_of_le (kraft_eq_of_snd ?_) hk
      simp only [Multiset.map_cons] at hs₁ ⊢
      rw [hs₂, hs₁]
    have hlb : lb' ≤ la' := by
      have : lb' ∈ lb ::ₘ r₂.map Prod.snd := by rw [← hs₂]; exact Multiset.mem_cons_self _ _
      rw [Multiset.mem_cons] at this
      obtain rfl | h := this
      · exact hmax (b, lb') (Multiset.mem_cons_self _ _)
      · obtain ⟨x, hx, rfl⟩ := Multiset.mem_map.1 h
        exact hmax x (Multiset.mem_cons_of_mem hx)
    simp only [kraft_cons] at hk₃
    have hk₄ := kraft_shorten la' lb' r₃ hmax' hk₃
    -- merge the two, which now have one length
    obtain ⟨l, rfl⟩ : ∃ l, lb' = l + 1 := by
      cases lb' with
      | zero => have := kraft_nonneg r₃; norm_num at hk₄; linarith
      | succ l => exact ⟨l, rfl⟩
    have := ih ((a + b, l) ::ₘ r₃) (by rw [Multiset.map_cons, hf₂, hr₂]) (by
      rw [kraft_cons]
      rw [pow_succ] at hk₄
      linarith)
    rw [cost_cons] at this hc₁ ⊢
    dsimp only at this hc₁ ⊢
    have hal : a * (l + 1) ≤ a * la' := Nat.mul_le_mul_left a hlb
    nlinarith

theorem half_pow_le_one (l : ℕ) : (1 / 2 : ℚ) ^ l ≤ 1 := pow_le_one₀ (by norm_num) (by norm_num)

/-- Kraft's inequality for a binary prefix code, given as a list of bit strings (R145, R157). -/
theorem kraft_le_one (n : ℕ) (cs : List (List Bool)) (hn : ∀ c ∈ cs, c.length ≤ n)
    (hp : cs.Pairwise (fun c d => ¬ c <+: d ∧ ¬ d <+: c)) :
    (cs.map (fun c => (1 / 2 : ℚ) ^ c.length)).sum ≤ 1 := by
  induction n generalizing cs with
  | zero =>
    match cs, hn, hp with
    | [], _, _ => simp
    | [c], _, _ => rw [List.map_singleton, List.sum_singleton]; exact half_pow_le_one _
    | c :: d :: cs, hn, hp =>
      have hc : c = [] := List.length_eq_zero_iff.1 (by simpa using hn c (by simp))
      exact absurd (hc ▸ List.nil_prefix) (List.rel_of_pairwise_cons hp (by simp : d ∈ d :: cs)).1
  | succ n ih =>
    by_cases he : [] ∈ cs
    · -- the empty code is the only one
      have : cs.length ≤ 1 := by
        by_contra hl
        obtain ⟨i, hi, hc⟩ := List.getElem_of_mem he
        have key : ∀ j (hj : j < cs.length), j ≠ i → False := by
          intro j hj hji
          rw [List.pairwise_iff_getElem] at hp
          obtain h | h := Nat.lt_or_gt_of_ne hji
          · exact (hp j i hj hi h).2 (by rw [hc]; exact List.nil_prefix)
          · exact (hp i j hi hj h).1 (by rw [hc]; exact List.nil_prefix)
        by_cases h0 : i = 0
        · exact key 1 (by omega) (by omega)
        · exact key 0 (by omega) (by omega)
      match cs, this with
      | [], _ => simp
      | [c], _ => rw [List.map_singleton, List.sum_singleton]; exact half_pow_le_one _
    · -- split by the first bit
      let part (b : Bool) : List (List Bool) := (cs.filter (fun c => c.head? == some b)).map List.tail
      have hpart : ∀ b, ((part b).map (fun c => (1 / 2 : ℚ) ^ c.length)).sum ≤ 1 := by
        intro b
        refine ih _ ?_ ?_
        · intro c hc
          obtain ⟨d, hd, rfl⟩ := List.mem_map.1 hc
          have := hn d (List.mem_of_mem_filter hd)
          rw [List.length_tail]; omega
        · rw [List.pairwise_map]
          refine (hp.filter _).imp_of_mem ?_
          intro c d hc hd hcd
          have hc := List.mem_filter.1 hc
          have hd := List.mem_filter.1 hd
          obtain ⟨c', rfl⟩ : ∃ c', c = b :: c' := by
            cases c with
            | nil => exact absurd hc.1 he
            | cons x c => exact ⟨c, by simpa using hc.2⟩
          obtain ⟨d', rfl⟩ : ∃ d', d = b :: d' := by
            cases d with
            | nil => exact absurd hd.1 he
            | cons x d => exact ⟨d, by simpa using hd.2⟩
          simpa using hcd
      have hsum : ∀ ds : List (List Bool), [] ∉ ds →
          (ds.map (fun c => (1 / 2 : ℚ) ^ c.length)).sum =
            1 / 2 * (((ds.filter (fun c => c.head? == some false)).map List.tail).map
              (fun c => (1 / 2 : ℚ) ^ c.length)).sum +
            1 / 2 * (((ds.filter (fun c => c.head? == some true)).map List.tail).map
              (fun c => (1 / 2 : ℚ) ^ c.length)).sum := by
        intro ds
        induction ds with
        | nil => simp
        | cons c ds ihd =>
          intro hne
          simp only [List.mem_cons, not_or] at hne
          cases c with
          | nil => exact absurd rfl hne.1
          | cons x c =>
            rw [List.map_cons, List.sum_cons, ihd hne.2]
            cases x <;> simp [pow_succ] <;> ring
      rw [hsum cs he]
      have h0 := hpart false
      have h1 := hpart true
      simp only [part] at h0 h1
      linarith

end Sys2Proof.Huffman
end

