-- ==== Sys2Proof/Laws/Step.lean ====
section
/-! SUPPORT. What a step can do, said once: an instruction always answers a next state, and a step is a
host move or a turn of the core; the cases of each. -/

namespace Sys2Proof.Machine

/-- The state an instruction leaves: every meaning answers a next state. -/
theorem exec_total (i : Instr) (s : State) : ∃ t, exec i s = .next t := by
  cases i <;> exact ⟨_, rfl⟩

/-- No instruction ends in a fault. -/
theorem exec_ne_fault (i : Instr) (s : State) (r : Fault) : exec i s ≠ .fault r := by
  obtain ⟨t, h⟩ := exec_total i s
  simp [h]

/-- What a step does while the host's next move is not possible yet: the host drains or the core takes
the turn (log 13, log 21). -/
theorem blockedStep_cases (m : HostMove) (s : State) :
    blockedStep m s = coreStep s ∨
    (hostDrains m = true ∧ s.bout ≠ [] ∧ blockedStep m s = .next (hostTakeBout s)) ∨
    (hostDrains m = true ∧ s.bout = [] ∧ s.sout ≠ [] ∧ blockedStep m s = .next (hostTakeSout s)) := by
  unfold blockedStep
  cases hostDrains m <;> cases s.bout <;> cases s.sout <;> simp

/-- A step is a turn of the core, a move of the host or its draining of an output channel (R10, R69). -/
theorem step_cases {s t : State} (h : step s = .next t) :
    coreStep s = .next t ∨
    (∃ m rest, s.agenda = m :: rest ∧ hostReady m s = true ∧
      hostMove m { s with agenda := rest } = .next t) ∨
    t = hostTakeBout s ∨ t = hostTakeSout s := by
  unfold step machineStep at h
  split at h
  · exact .inl h
  · rename_i m rest hm
    split at h
    · exact .inr (.inl ⟨m, rest, hm, ‹_›, h⟩)
    · obtain hc | ⟨-, -, hc⟩ | ⟨-, -, -, hc⟩ := blockedStep_cases m s <;> rw [hc] at h
      · exact .inl h
      · cases h; exact .inr (.inr (.inl rfl))
      · cases h; exact .inr (.inr (.inr rfl))

/-- Taking from `BOUT` moves its head to the host and changes no other field but the answer. -/
theorem hostTakeBout_eq (s : State) :
    (hostTakeBout s = s ∧ s.bout = []) ∨
    ∃ it rest, s.bout = it :: rest ∧
      hostTakeBout s =
        { s with bout := rest, resp := .item it, boutGot := s.boutGot ++ [it] } := by
  unfold hostTakeBout
  cases h : s.bout with
  | nil => exact .inl ⟨rfl, rfl⟩
  | cons it rest => exact .inr ⟨it, rest, rfl, rfl⟩

/-- Taking from `SOUT` moves its head to the host and changes no other field but the answer. -/
theorem hostTakeSout_eq (s : State) :
    (hostTakeSout s = s ∧ s.sout = []) ∨
    ∃ it rest, s.sout = it :: rest ∧
      hostTakeSout s =
        { s with sout := rest, resp := .item it, soutGot := s.soutGot ++ [it] } := by
  unfold hostTakeSout
  cases h : s.sout with
  | nil => exact .inl ⟨rfl, rfl⟩
  | cons it rest => exact .inr ⟨it, rest, rfl, rfl⟩

/-- A turn of the core, by the operation that is active (R25). -/
theorem coreStep_cases {s t : State} (h : coreStep s = .next t) :
    (s.active = .idle ∧ t = s) ∨
    (s.active = .freqClr ∧ t = freqClrComplete s) ∨
    (s.active = .build ∧ t = buildComplete s) ∨
    (s.active = .genmap ∧ ∃ rom, genMap s.node s.root.toNat = some rom ∧
      t = complete { s with code := rom, mapValid := true }) ∨
    (s.active = .encode ∧ encodeStep s = none ∧ t = s) ∨
    (s.active = .encode ∧ ∃ i, encodeStep s = some i ∧ exec i s = .next t) ∨
    (s.active = .decode ∧ decodeStep s = .wait ∧ t = s) ∨
    (s.active = .decode ∧ decodeStep s = .bit ∧ t = consumeBit s) ∨
    (s.active = .decode ∧ ∃ i, decodeStep s = .channel i ∧ exec i s = .next t) := by
  unfold coreStep at h
  cases ha : s.active with
  | idle => simp only [ha] at h; cases h; exact .inl ⟨rfl, rfl⟩
  | freqClr => simp only [ha] at h; cases h; exact .inr (.inl ⟨rfl, rfl⟩)
  | build => simp only [ha] at h; cases h; exact .inr (.inr (.inl ⟨rfl, rfl⟩))
  | genmap =>
    simp only [ha, genmapComplete] at h
    cases hg : genMap s.node s.root.toNat with
    | none => simp [hg] at h
    | some rom =>
      simp only [hg] at h; cases h
      exact .inr (.inr (.inr (.inl ⟨rfl, rom, rfl, rfl⟩)))
  | encode =>
    simp only [ha] at h
    cases he : encodeStep s with
    | none => simp only [he] at h; cases h; simp
    | some i => simp only [he] at h; simp [h]
  | decode =>
    simp only [ha] at h
    cases hd : decodeStep s with
    | channel i => simp only [hd] at h; simp [h]
    | bit => simp only [hd] at h; cases h; simp
    | wait => simp only [hd] at h; cases h; simp
    | broken => simp [hd] at h

/-- A turn of the core stops only over a node RAM that is no tree (log 10). -/
theorem coreStep_fault {s : State} {r : Fault} (h : coreStep s = .fault r) :
    (s.active = .genmap ∧ genMap s.node s.root.toNat = none) ∨
    (s.active = .decode ∧ decodeStep s = .broken) := by
  unfold coreStep at h
  cases ha : s.active with
  | idle => simp [ha] at h
  | freqClr => simp [ha] at h
  | build => simp [ha] at h
  | genmap =>
    simp only [ha, genmapComplete] at h
    cases hg : genMap s.node s.root.toNat with
    | none => simp
    | some rom => simp [hg] at h
  | encode =>
    simp only [ha] at h
    cases he : encodeStep s with
    | none => simp [he] at h
    | some i => simp only [he] at h; exact absurd h (exec_ne_fault i s r)
  | decode =>
    simp only [ha] at h
    cases hd : decodeStep s with
    | channel i => simp only [hd] at h; exact absurd h (exec_ne_fault i s r)
    | bit => simp [hd] at h
    | wait => simp [hd] at h
    | broken => simp

/-- What a bus write can do (R61 to R65). -/
theorem busWrite_cases {off : Offset} {width : Width} {v : Word} {s t : State}
    (h : busWrite off width v s = .next t) :
    (accessDefined off width = false ∧ t = busError none s) ∨
    (∃ i, decode (.busWrite off v) = .ok i ∧ exec i { s with resp := .written } = .next t) ∨
    (∃ w, decode (.busWrite off v) = .error (.illegalCommand w) ∧
      t = illegalCommand w { s with resp := .written }) ∨
    t = { s with resp := .written } := by
  unfold busWrite at h
  split at h
  · split at h
    · exact .inr (.inl ⟨_, ‹_›, h⟩)
    · cases h; exact .inr (.inr (.inl ⟨_, ‹_›, rfl⟩))
    all_goals cases h; exact .inr (.inr (.inr rfl))
  · cases h; exact .inl ⟨eq_false_of_ne_true ‹_›, rfl⟩

/-- What a bus read does: it changes nothing but the answer (R66, R111). -/
theorem busRead_cases {off : Offset} {width : Width} {s t : State}
    (h : busRead off width s = .next t) : ∃ a, t = { s with resp := a } := by
  unfold busRead at h
  split at h
  · split at h
    · rename_i i hd
      have hi : ∃ r, i = .rdWindow r := by
        simp only [decode, decodeRead] at hd
        split at hd
        · split at hd
          · cases hd; exact ⟨_, rfl⟩
          · cases hd
        · cases hd
      obtain ⟨r, rfl⟩ := hi
      cases h; exact ⟨_, rfl⟩
    · cases h; exact ⟨_, rfl⟩
    all_goals cases h; exact ⟨_, rfl⟩
  · cases h; exact ⟨_, rfl⟩

/-- A host move never faults, except a turn of the core. -/
theorem hostMove_fault {m : HostMove} {s : State} {r : Fault} (h : hostMove m s = .fault r) :
    m = .core ∧ coreStep s = .fault r := by
  cases m with
  | core => exact ⟨rfl, h⟩
  | read off width =>
    simp only [hostMove, busRead] at h
    split at h
    · split at h
      · exact absurd h (exec_ne_fault _ _ r)
      all_goals cases h
    · cases h
  | write off width v =>
    simp only [hostMove, busWrite] at h
    split at h
    · split at h
      · exact absurd h (exec_ne_fault _ _ r)
      all_goals cases h
    · cases h
  | placeSin it => cases h
  | placeBin it => cases h
  | takeBout => cases h
  | takeSout => cases h
  | wait => cases h
  | removeSin => cases h
  | removeBin => cases h
  | feedSin it => cases h
  | feedBin it => cases h
  | waitDrain => cases h
  | reset a b c d => cases h

end Sys2Proof.Machine
end

