-- ==== Sys2Proof/Laws/PerInstr.lean ====
section
/-! SUPPORT. The family `TableRow`: what every instruction encodes to lies in its row of
spec/opcode_table.json, the row's "match" and "mask" written out from the table. -/

namespace Sys2Proof.Laws.TableRow

/-- The signal lies in the command row with this match word, mask 0xFFFFFFFF, written to offset 0x008. -/
def InCommandRow (m : Word) : Signal → Prop
  | .busWrite off w => off = 0x008#12 ∧ w &&& 0xFFFFFFFF#32 = m
  | .busRead _ => False
  | .item _ _ => False

/-- The signal lies in the item row of this channel with this match, mask 0x100. -/
def InItemRow (ch : Channel) (m : Item) : Signal → Prop
  | .busWrite _ _ => False
  | .busRead _ => False
  | .item c it => c = ch ∧ it &&& 0x100#9 = m

/-- The signal is a 32-bit write at this offset, mask 0xFFC. -/
def InWriteRow (o : Offset) : Signal → Prop
  | .busWrite off _ => off &&& 0xFFC#12 = o
  | .busRead _ => False
  | .item _ _ => False

/-- The offsets of the row `RD window`. -/
def windowOffsets : List Offset :=
  [0x024#12, 0x02C#12, 0x030#12, 0x034#12, 0x03C#12, 0x040#12, 0x044#12, 0x048#12, 0x04C#12,
    0x050#12, 0x054#12, 0x058#12, 0x05C#12]

/-- The signal is a 32-bit read at a window offset, mask 0xFFC. -/
def InWindowRow : Signal → Prop
  | .busWrite _ _ => False
  | .busRead off => off &&& 0xFFC#12 ∈ windowOffsets
  | .item _ _ => False

/-- The row of an instruction holds its encoding. -/
def Statement (i : Instr) : Prop :=
  WellFormed i = true →
    match i with
    | .nop => InCommandRow 0x00000000#32 (encode i)
    | .freqClr => InCommandRow 0x00000001#32 (encode i)
    | .build => InCommandRow 0x00000002#32 (encode i)
    | .genmap => InCommandRow 0x00000003#32 (encode i)
    | .encStart => InCommandRow 0x00000004#32 (encode i)
    | .decStart => InCommandRow 0x00000005#32 (encode i)
    | .treeFree => InCommandRow 0x00000006#32 (encode i)
    | .abort => InCommandRow 0x00000007#32 (encode i)
    | .clrErr => InCommandRow 0x00000008#32 (encode i)
    | .sinByte _ => InItemRow .sin 0x000#9 (encode i)
    | .sinEnd => InItemRow .sin 0x100#9 (encode i)
    | .binByte _ => InItemRow .bin 0x000#9 (encode i)
    | .binEnd => InItemRow .bin 0x100#9 (encode i)
    | .boutByte _ => InItemRow .bout 0x000#9 (encode i)
    | .boutEnd => InItemRow .bout 0x100#9 (encode i)
    | .soutByte _ => InItemRow .sout 0x000#9 (encode i)
    | .soutEnd => InItemRow .sout 0x100#9 (encode i)
    | .wrFreqData _ => InWriteRow 0x024#12 (encode i)
    | .wrCtrl _ => InWriteRow 0x004#12 (encode i)
    | .wrFreqIdx _ => InWriteRow 0x020#12 (encode i)
    | .wrNodeIdx _ => InWriteRow 0x028#12 (encode i)
    | .wrCodeIdx _ => InWriteRow 0x038#12 (encode i)
    | .rdWindow _ => InWindowRow (encode i)

/-- A data item has bit 8 clear. -/
theorem byteItem_mask (v : Byte) : byteItem v &&& 0x100#9 = 0x000#9 := by
  revert v; decide

theorem nop : Statement .nop := fun _ => by simp [InCommandRow, encode, commandWord]
theorem freqClr : Statement .freqClr := fun _ => by simp [InCommandRow, encode, commandWord]
theorem build : Statement .build := fun _ => by simp [InCommandRow, encode, commandWord]
theorem genmap : Statement .genmap := fun _ => by simp [InCommandRow, encode, commandWord]
theorem encStart : Statement .encStart := fun _ => by simp [InCommandRow, encode, commandWord]
theorem decStart : Statement .decStart := fun _ => by simp [InCommandRow, encode, commandWord]
theorem treeFree : Statement .treeFree := fun _ => by simp [InCommandRow, encode, commandWord]
theorem abort : Statement .abort := fun _ => by simp [InCommandRow, encode, commandWord]
theorem clrErr : Statement .clrErr := fun _ => by simp [InCommandRow, encode, commandWord]
theorem sinByte (v : Byte) : Statement (.sinByte v) := fun _ => ⟨rfl, byteItem_mask v⟩
theorem sinEnd : Statement .sinEnd := fun _ => ⟨rfl, by decide⟩
theorem binByte (v : Byte) : Statement (.binByte v) := fun _ => ⟨rfl, byteItem_mask v⟩
theorem binEnd : Statement .binEnd := fun _ => ⟨rfl, by decide⟩
theorem boutByte (v : Byte) : Statement (.boutByte v) := fun _ => ⟨rfl, byteItem_mask v⟩
theorem boutEnd : Statement .boutEnd := fun _ => ⟨rfl, by decide⟩
theorem soutByte (v : Byte) : Statement (.soutByte v) := fun _ => ⟨rfl, byteItem_mask v⟩
theorem soutEnd : Statement .soutEnd := fun _ => ⟨rfl, by decide⟩
theorem wrFreqData (v : Word) : Statement (.wrFreqData v) := fun _ => by
  simp [InWriteRow, encode]
theorem wrCtrl (v : Word) : Statement (.wrCtrl v) := fun _ => by simp [InWriteRow, encode]
theorem wrFreqIdx (v : Word) : Statement (.wrFreqIdx v) := fun _ => by simp [InWriteRow, encode]
theorem wrNodeIdx (v : Word) : Statement (.wrNodeIdx v) := fun _ => by simp [InWriteRow, encode]
theorem wrCodeIdx (v : Word) : Statement (.wrCodeIdx v) := fun _ => by simp [InWriteRow, encode]

/-- The offset of a window register is one of the row's. -/
theorem windowOffset_mem (r : Reg) (h : r.isWindow = true) :
    r.offset &&& 0xFFC#12 ∈ windowOffsets := by
  cases r with
  | codeBits k => revert k; decide
  | _ => first | (cases h; done) | decide

theorem rdWindow (r : Reg) : Statement (.rdWindow r) := fun h => windowOffset_mem r h

end Sys2Proof.Laws.TableRow
end

