-- ==== Sys2Proof/Tests/Slice0.lean ====
section
/-! SUPPORT. The model's own tests: the well-formedness smoke test, decoding of words written out from
the encodings of spec/, single steps against the examples and vectors of spec/ (named in each
comment), and a witness for the hypotheses of every statement that has some. -/

namespace Sys2Proof.Tests

open Sys2Proof.Machine

-- One theorem at a time: the whole package is compiled as one text, and a thread for each test
-- that waits for the kernel does not fit in its memory.
set_option Elab.async false

/-! ### Helpers -/

/-- A field of the next state, if there is one. -/
def get {α : Type} (f : State → α) : Host.Outcome State Fault Refusal → Option α
  | .next t => some (f t)
  | .fault _ => none
  | .refused _ => none

/-- The reset state with every array empty. -/
def quiet : State :=
  { State.reset with freq := zeroFreq, node := tabulate 513 (fun _ => noNode), code := emptyCode }

/-- The tree of "AAAAA" (V-BLD-1). -/
def aaTree : NodeRam :=
  setNode
    (setNode (setNode (tabulate 513 (fun _ => noNode)) 65 (leafNode 65 5)) 256 (leafNode 256 1)) 257
    { valid := true, internal := true, sym := 257, cnt := 6, zero := 256, one := 65 }

/-- The map of "AAAAA" (V-MAP-1). -/
def aaCode : CodeRom :=
  setCode (setCode emptyCode 65 { valid := true, len := 1, bits := 1 }) 256
    { valid := true, len := 1, bits := 0 }

/-- The table {65: 5, 256: 1}. -/
def aaFreq : FreqRam := setFreq (setFreq zeroFreq 65 5) 256 1

/-- Idle, with the tree and the map of "AAAAA". -/
def aaIdle : State :=
  { quiet with
    freq := aaFreq, node := aaTree, code := aaCode, treeValid := true, mapValid := true
    root := 257, nleaf := 2 }

/-- An encode session over the map of "AAAAA". -/
def aaEnc : State := { aaIdle with active := .encode }

/-- A decode session over the tree of "AAAAA", at the root. -/
def aaDec : State := { aaIdle with active := .decode, decCur := 257 }

/-! ### Well-formedness -/

/-- A read of `STATUS` is no window read. -/
theorem test_illformed_rdWindow : WellFormed (.rdWindow .status) = false := by decide

theorem test_wellformed_rdWindow : WellFormed (.rdWindow (.codeBits 7)) = true := by decide

/-! ### Decoding, from R81, R85 and R62 -/

theorem test_decode_nop :
    decodeCommand 0b00000000000000000000000000000000#32 = .ok .nop := by rfl
theorem test_decode_freqClr :
    decodeCommand 0b00000000000000000000000000000001#32 = .ok .freqClr := by rfl
theorem test_decode_build :
    decodeCommand 0b00000000000000000000000000000010#32 = .ok .build := by rfl
theorem test_decode_genmap :
    decodeCommand 0b00000000000000000000000000000011#32 = .ok .genmap := by rfl
theorem test_decode_encStart :
    decodeCommand 0b00000000000000000000000000000100#32 = .ok .encStart := by rfl
theorem test_decode_decStart :
    decodeCommand 0b00000000000000000000000000000101#32 = .ok .decStart := by rfl
theorem test_decode_treeFree :
    decodeCommand 0b00000000000000000000000000000110#32 = .ok .treeFree := by rfl
theorem test_decode_abort :
    decodeCommand 0b00000000000000000000000000000111#32 = .ok .abort := by rfl
theorem test_decode_clrErr :
    decodeCommand 0b00000000000000000000000000001000#32 = .ok .clrErr := by rfl
theorem test_decode_sinByte : decodeItem .sin 0b001000001#9 = .sinByte 65#8 := by rfl
theorem test_decode_sinEnd : decodeItem .sin 0b100000000#9 = .sinEnd := by rfl
theorem test_decode_binByte : decodeItem .bin 0b000011111#9 = .binByte 31#8 := by rfl
theorem test_decode_binEnd : decodeItem .bin 0b111111111#9 = .binEnd := by rfl
theorem test_decode_boutByte : decodeItem .bout 0b011111000#9 = .boutByte 0xF8#8 := by rfl
theorem test_decode_boutEnd : decodeItem .bout 0b100000000#9 = .boutEnd := by rfl
theorem test_decode_soutByte : decodeItem .sout 0b001000010#9 = .soutByte 66#8 := by rfl
theorem test_decode_soutEnd : decodeItem .sout 0b100000000#9 = .soutEnd := by rfl
theorem test_decode_wrFreqData : decode (.busWrite 0x024#12 5) = .ok (.wrFreqData 5) := by rfl
theorem test_decode_wrCtrl : decode (.busWrite 0x004#12 3) = .ok (.wrCtrl 3) := by rfl
theorem test_decode_wrFreqIdx : decode (.busWrite 0x020#12 65) = .ok (.wrFreqIdx 65) := by rfl
theorem test_decode_wrNodeIdx : decode (.busWrite 0x028#12 9) = .ok (.wrNodeIdx 9) := by rfl
theorem test_decode_wrCodeIdx : decode (.busWrite 0x038#12 9) = .ok (.wrCodeIdx 9) := by rfl
theorem test_decode_rdWindow : decode (.busRead 0x05C#12) = .ok (.rdWindow (.codeBits 7)) := by rfl

/-- The table's bit numbering: a command word, an item, and an illegal word. -/
theorem test_decodeTableWord :
    decodeTableWord 32 0x00000003 = some .genmap ∧ decodeTableWord 16 0x0041 = some (.sinByte 65) ∧
      decodeTableWord 16 0x0100 = some .sinEnd ∧ decodeTableWord 32 0x00000102 = none := by
  decide

/-- A table word placed at reset is run by the very next step. -/
theorem test_withFetchWord_build :
    get (·.active) (step (State.reset.withFetchWord 32 2)) = some .build := by decide

theorem test_withFetchWord_sinEnd :
    get (·.efin) (step (State.reset.withFetchWord 16 0x100)) = some true := by decide

/-! ### Single steps -/

/-- R101, example. -/
theorem test_nop :
    get statusWord (exec .nop { quiet with active := .build }) = some 0x00000201#32 := by decide

/-- V-CTL-3, the acceptance step. -/
theorem test_freqClr : get (fun t => (statusWord t, t.freqIdx))
    (exec .freqClr { quiet with freqIdx := 12 }) = some (0x00000101#32, 0) := by decide

/-- V-CTL-3, the completion step. -/
theorem test_freqClr_complete : get (fun t => (statusWord t, freqAt t.freq 65))
    (coreStep { quiet with freq := aaFreq, active := .freqClr }) = some (0x00000008#32, 0) := by
  decide

/-- R131, example. -/
theorem test_build : get statusWord (exec .build aaIdle) = some 0x00000201#32 := by decide

/-- V-BLD-1: one merge (257, 6, 256, 65). -/
theorem test_build_complete :
    get (fun t => (statusWord t, t.root, t.nleaf, nodeInfoWord (nodeAt t.node 257),
        (nodeAt t.node 257).cnt))
      (coreStep { quiet with freq := aaFreq, active := .build }) =
      some (0x0000000A#32, 257, 2, 0x620A0101#32, 6) := by
  decide +kernel

/-- V-BLD-12, V-BLD-13: `EMPTY_TABLE`, `NO_EOF`. -/
theorem test_build_errors :
    get (fun t => (t.errCode, t.errInfo, statusWord t)) (coreStep { quiet with active := .build }) =
        some (1, 0, 0x00000010#32) ∧
      get (fun t => (t.errCode, t.errInfo))
        (coreStep { quiet with active := .build, freq := setFreq zeroFreq 65 3 }) =
        some (2, 0x0100#16) := by
  decide +kernel

/-- R151, example, and V-MAP-11. -/
theorem test_genmap :
    get statusWord (exec .genmap { aaIdle with mapValid := false }) = some 0x00000303#32 ∧
      get (fun t => (t.errCode, t.errInfo)) (exec .genmap quiet) = some (3, 3) := by
  decide

/-- V-MAP-1. -/
theorem test_genmap_complete :
    get (fun t => (statusWord t, codeAt t.code 65, codeAt t.code 256, codeAt t.code 66))
      (coreStep { aaIdle with active := .genmap, mapValid := false, code := emptyCode }) =
      some (0x0000000E#32, { valid := true, len := 1, bits := 1 },
        { valid := true, len := 1, bits := 0 }, noCode) := by
  decide +kernel

/-- R171, example, and V-ENC-17. -/
theorem test_encStart :
    get (fun t => (statusWord t, t.eSink, t.eOrd)) (exec .encStart aaIdle) =
        some (0x00000407#32, true, false) ∧
      get (fun t => (t.errCode, t.errInfo)) (exec .encStart quiet) = some (4, 4) := by
  decide

/-- R201, example, and V-DEC-13. -/
theorem test_decStart :
    get (fun t => (statusWord t, t.decCur)) (exec .decStart { aaIdle with mapValid := false }) =
        some (0x00000503#32, 257) ∧
      get (fun t => (t.errCode, t.errInfo)) (exec .decStart quiet) = some (3, 5) := by
  decide

/-- V-CTL-14, V-CTL-15. -/
theorem test_treeFree :
    get (fun t => (statusWord t, t.root, t.nleaf)) (exec .treeFree aaIdle) =
        some (0x0000000C#32, 0, 0) ∧
      get statusWord (exec .treeFree quiet) = some 0x00000008#32 := by
  decide

/-- V-CTL-16, V-CTL-17. -/
theorem test_abort :
    get (fun t => (statusWord t, t.encSymCnt)) (exec .abort { aaEnc with encSymCnt := 3 }) =
        some (0x00000006#32, 3) ∧
      get statusWord (exec .abort { quiet with done := true }) = some 0 := by
  decide

/-- V-CTL-13. -/
theorem test_clrErr : get (fun t => (t.errCode, t.errInfo, statusWord t))
    (exec .clrErr { quiet with errCode := 4, errInfo := 4, emult := true }) = some (0, 0, 0) := by
  decide

/-- R172, example; V-ENC-15: a byte with no code. -/
theorem test_sinByte :
    get (fun t => (t.ebuf, t.encBitCnt, t.encSymCnt, t.sin))
        (exec (.sinByte 65) { aaEnc with sin := [0x041#9, 0x100#9] }) =
        some ([true], 1, 1, [0x100#9]) ∧
      get (fun t => (t.errCode, t.errInfo, t.ebuf, t.sin, t.active))
        (exec (.sinByte 90) { aaEnc with sin := [0x05A#9, 0x100#9], ebuf := [false] }) =
        some (5, 0x005A#16, [], [0x100#9], .idle) := by
  decide +kernel

/-- R173, example. -/
theorem test_sinEnd :
    get (fun t => (t.ebuf, t.encBitCnt, t.efin))
      (exec .sinEnd { aaEnc with sin := [0x1AB#9], ebuf := [true, true, true, true, true]
                                 encBitCnt := 5 }) =
      some ([true, true, true, true, true, false], 6, true) := by
  decide +kernel

/-- R174, example: 01011100 111 puts 0x3A and leaves 111. -/
theorem test_boutByte_full :
    get (fun t => (t.bout, t.ebuf))
      (coreStep { aaEnc with
        ebuf := [false, true, false, true, true, true, false, false, true, true, true] }) =
      some ([0x03A#9], [true, true, true]) := by
  decide

/-- R175, example: 111110 puts 0x1F in LSB order and 0xF8 in MSB order. -/
theorem test_boutByte_last :
    get (fun t => (t.bout, t.ebuf))
        (coreStep { aaEnc with efin := true, ebuf := [true, true, true, true, true, false] }) =
        some ([0x01F#9], []) ∧
      get (·.bout) (coreStep { aaEnc with
          efin := true, eOrd := true, ebuf := [true, true, true, true, true, false] }) =
        some [0x0F8#9] := by
  decide

/-- R176, example; V-ENC-14: nothing is put in counting mode. -/
theorem test_boutEnd :
    get (fun t => (t.bout, statusWord t)) (exec .boutEnd { aaEnc with efin := true }) =
        some ([0x100#9], 0x0000000E#32) ∧
      get (fun t => (t.bout, statusWord t))
        (exec .boutEnd { aaEnc with efin := true, eSink := false }) = some ([], 0x0000000E#32) := by
  decide

/-- R204, example. -/
theorem test_binByte :
    get (·.dbuf) (exec (.binByte 0x1F) { aaDec with bin := [0x01F#9] }) =
      some [true, true, true, true, true, false, false, false] := by
  decide +kernel

/-- V-DEC-7: `TRUNC`, `ERRINFO` = 0x0101, `DONE` = 0. -/
theorem test_binEnd :
    get (fun t => (t.errCode, t.errInfo, t.bin, t.sout, statusWord t))
      (exec .binEnd { aaDec with bin := [0x100#9] }) =
      some (6, 0x0101#16, [], [], 0x00000016#32) := by
  decide +kernel

/-- R205, example of the kind: bit 1 at the root goes to `ONE`. -/
theorem test_consumeBit :
    get (fun t => (t.decCur, t.dbuf, t.decBitCnt)) (coreStep { aaDec with dbuf := [true, false] }) =
      some (65, [false], 1) := by
  decide +kernel

/-- R203, example. -/
theorem test_soutByte :
    get (fun t => (t.sout, t.decCur, t.decSymCnt)) (exec (.soutByte 65) { aaDec with decCur := 65 }) =
      some ([0x041#9], 257, 1) := by
  decide +kernel

/-- R206, example: the two bits left are discarded. -/
theorem test_soutEnd :
    get (fun t => (t.sout, t.dbuf, t.decCur, statusWord t))
      (exec .soutEnd { aaDec with decCur := 256, dbuf := [false, false] }) =
      some ([0x100#9], [], 256, 0x0000000E#32) := by
  decide +kernel

/-- V-CTL-4, V-CTL-5. -/
theorem test_wrFreqData :
    get (fun t => (freqAt t.freq 65, t.freqIdx)) (exec (.wrFreqData 5) { quiet with freqIdx := 65 }) =
        some (5, 66) ∧
      get (fun t => (t.errCode, t.errInfo, t.freqIdx))
        (exec (.wrFreqData 7) { quiet with freqIdx := 257 }) = some (9, 0x0101#16, 257) := by
  decide +kernel

/-- V-CTL-7, V-ERR-2: `BUSY` is checked before `BAD_INDEX`. -/
theorem test_wrFreqData_busy :
    get (fun t => (t.errCode, t.errInfo, t.active))
      (exec (.wrFreqData 3) { quiet with active := .build, freqIdx := 300 }) =
      some (7, 0x8024#16, .build) := by
  decide

/-- V-CTL-6. -/
theorem test_wrFreqIdx :
    get (·.freqIdx) (exec (.wrFreqIdx 0xFFFFFFFF#32) quiet) = some 0x1FF#9 := by decide

theorem test_wrCtrl : get (·.ctrl) (exec (.wrCtrl 0xFFFFFFF6#32) quiet) = some 0x6#4 := by decide

theorem test_wrNodeIdx : get (·.nodeIdx) (exec (.wrNodeIdx 600) quiet) = some 600 := by decide

theorem test_wrCodeIdx : get (·.codeIdx) (exec (.wrCodeIdx 0x241#32) quiet) = some 65 := by decide

/-- The node window after V-BLD-1, at 257 and past the end. -/
theorem test_rdWindow_node :
    get (·.resp) (exec (.rdWindow .nodeInfo) { aaIdle with nodeIdx := 257 }) =
        some (.data 0x620A0101#32) ∧
      get (·.resp) (exec (.rdWindow .nodeInfo) { aaIdle with nodeIdx := 600 }) =
        some (.data 0) := by
  decide +kernel

/-- The code window of V-MAP-1. -/
theorem test_rdWindow_code :
    get (·.resp) (exec (.rdWindow .codeInfo) { aaIdle with codeIdx := 65 }) =
        some (.data 0x00010001#32) ∧
      get (·.resp) (exec (.rdWindow (.codeBits 0)) { aaIdle with codeIdx := 65 }) =
        some (.data 1) := by
  decide +kernel

/-- V-CTL-8: an operation command while `BUSY` = 1. -/
theorem test_busy_rejects :
    get (fun t => (t.errCode, t.errInfo, t.active)) (exec .genmap { quiet with active := .build }) =
      some (7, 3, .build) := by
  decide

/-- V-CTL-11, V-ERR-1: an illegal word, checked before `BUSY`. -/
theorem test_badCmd :
    get (fun t => (t.errCode, t.errInfo, t.active))
        (step { quiet with agenda := [.write 0x008#12 .w32 0x00000102#32] }) = some (8, 2, .idle) ∧
      get (fun t => (t.errCode, t.errInfo))
        (step { quiet with active := .build, agenda := [.write 0x008#12 .w32 0x00000109#32] }) =
        some (8, 9) := by
  decide

/-- V-ERR-7: a 16-bit write to `CTRL`. -/
theorem test_busError :
    get (fun t => (t.resp, t.ctrl, t.errCode))
      (step { quiet with agenda := [.write 0x004#12 .w16 0xF#32] }) =
        some (.busError none, 1, 0) ∧
      get (fun t => t.resp) (step { quiet with agenda := [.read 0x006#12 .w32] }) =
        some (.busError (some 0)) := by
  decide

/-- R290 (P2 leaves `END` on `BIN`): the host removes a leftover item, but not during a session. -/
theorem test_removeBin :
    get (fun t => (t.bin, t.sin)) (step { quiet with bin := [0x100#9], agenda := [.removeBin] }) =
        some ([], []) ∧
      get (fun t => (t.bin, t.agenda))
        (step { aaDec with dbuf := [true], bin := [0x100#9], agenda := [.removeBin] }) =
        some ([0x100#9], [.removeBin]) := by
  decide +kernel

/-- R294: a host that waits drains `BOUT` first, and the wait goes on. -/
theorem test_waitDrain :
    get (fun t => (t.bout, t.boutGot, t.agenda))
      (step { aaEnc with bout := [0x01F#9, 0x100#9], agenda := [.waitDrain] }) =
      some ([0x100#9], [0x01F#9], [.waitDrain]) := by
  decide +kernel

/-- R230, U15: a table with a count of 2^32 is not loaded, one with 2^32 - 1 is. -/
theorem test_hostLoad_refuses :
    hostLoad (fun s => if s = 65 then 2 ^ 32 else 1) = none ∧
      (hostLoad (fun s => if s = 65 then 2 ^ 32 - 1 else if s = 256 then 1 else 0)).map List.length =
        some 7 := by
  decide +kernel

/-- R232: the artifact is the `BYTE` items before `END` ("AAAAA", LSB-first: L1-1), without the item
0xAA that was on `BOUT` before the session. -/
theorem test_compressedBytes :
    compressedBytes { quiet with bout := [0x0AA#9] }
      { quiet with boutGot := [0x0AA#9, 0x01F#9, 0x100#9] } = some [0x1F#8] := by decide

/-- R256, U27: the items of a session that put no `END`, or that ended with an error, are no result. -/
theorem test_noResult :
    decodedBytes quiet { quiet with soutGot := [0x041#9, 0x042#9] } = none ∧
      decodedBytes quiet { quiet with errCode := 6, soutGot := [0x041#9, 0x100#9] } = none := by decide

/-- V-CTL-19: the completion interrupt. -/
theorem test_irq : irq { quiet with ctrl := 0xC, done := true } = true ∧
    irq { quiet with ctrl := 0xC } = false := by decide

/-- V-RST-1. -/
theorem test_reset :
    get (fun t => (statusWord t, t.errCode, readReg .ctrl t, readReg .id t, t.bin))
      (step { aaDec with errCode := 6, bin := [0x100#9], agenda := [.reset false false false false] }) =
      some (0, 0, 1, 0x48554601#32, [0x100#9]) := by
  decide

end Sys2Proof.Tests
end

