-- ==== Sys2Proof/Tests/Witnesses.lean ====
section
/-! SUPPORT. For every statement with hypotheses, a concrete state and operands that meet all of them
together: one theorem `witness_<statement>` (with `_1`, `_2`, … where its clauses need states of their
own, at a boundary of the clause's range). -/

namespace Sys2Proof.Tests

open Sys2Proof.Machine

-- One theorem at a time: the whole package is compiled as one text, and a thread for each test
-- that waits for the kernel does not fit in its memory.
set_option Elab.async false

/-! ### Two trees and a map -/

theorem nodeAt_noNodes (i : Nat) : nodeAt (tabulate 513 (fun _ => noNode)) i = noNode := by
  unfold nodeAt
  rw [getElem?_tabulate]
  split <;> rfl

theorem nodeAt_aaTree (i : Nat) :
    nodeAt aaTree i =
      if 257 = i then
        { valid := true, internal := true, sym := 257, cnt := 6, zero := 256, one := 65 }
      else if 256 = i then leafNode 256 1
      else if 65 = i then leafNode 65 5
      else noNode := by
  unfold aaTree
  rw [nodeAt_setNode _ _ _ _ (by omega), nodeAt_setNode _ _ _ _ (by omega),
    nodeAt_setNode _ _ _ _ (by omega), nodeAt_noNodes]

/-- The valid nodes of the tree of "AAAAA". -/
theorem aaTree_valid {i : Nat} (h : (nodeAt aaTree i).valid = true) : i = 257 ∨ i = 256 ∨ i = 65 := by
  rw [nodeAt_aaTree] at h
  by_contra hn
  simp only [not_or] at hn
  rw [if_neg (Ne.symm hn.1), if_neg (Ne.symm hn.2.1), if_neg (Ne.symm hn.2.2)] at h
  cases h

theorem aaTree_isParent {k i : Nat} (h : IsParent aaTree k i) : k = 257 ∧ (i = 256 ∨ i = 65) := by
  obtain ⟨hk, -, hv, hc⟩ := h
  obtain rfl | rfl | rfl := aaTree_valid hv
  · rw [nodeAt_aaTree] at hc
    simp at hc
    omega
  · omega
  · omega

theorem aaTree_ok : TreeOk aaTree 257 2 where
  leafCount := by decide +kernel
  leafShape i hi hv := by
    obtain rfl | rfl | rfl := aaTree_valid hv
    · omega
    · rw [nodeAt_aaTree]; decide
    · rw [nodeAt_aaTree]; decide
  internalSlots i h1 h2 := by
    constructor
    · intro hv
      obtain rfl | rfl | rfl := aaTree_valid hv <;> omega
    · intro h
      have : i = 257 := by omega
      subst this; rw [nodeAt_aaTree]; rfl
  internalShape i h1 h2 hv := by
    obtain rfl | rfl | rfl := aaTree_valid hv
    · decide +kernel
    · omega
    · omega
  children i h1 h2 hv := by
    obtain rfl | rfl | rfl := aaTree_valid hv
    · decide +kernel
    · omega
    · omega
  oneParent i h1 hv hr := by
    refine ⟨257, ?_, fun k' h => (aaTree_isParent h).1⟩
    obtain rfl | rfl | rfl := aaTree_valid hv
    · exact absurd rfl hr
    · exact ⟨by omega, by omega, by decide +kernel, .inl (by decide +kernel)⟩
    · exact ⟨by omega, by omega, by decide +kernel, .inr (by decide +kernel)⟩
  rootNoParent k h := by have := (aaTree_isParent h).2; omega
  rootValid := by decide +kernel
  rootIndex := by decide
  eosLeaf := by decide +kernel

/-- The one-leaf tree of the empty input (V-BLD-6). -/
def oneTree : NodeRam := setNode (tabulate 513 (fun _ => noNode)) 256 (leafNode 256 1)

theorem oneTree_valid {i : Nat} (h : (nodeAt oneTree i).valid = true) : i = 256 := by
  unfold oneTree at h
  rw [nodeAt_setNode _ _ _ _ (by omega), nodeAt_noNodes] at h
  by_contra hn
  rw [if_neg (Ne.symm hn)] at h
  cases h

theorem oneTree_ok : TreeOk oneTree 256 1 where
  leafCount := by decide +kernel
  leafShape i hi hv := by cases oneTree_valid hv; decide +kernel
  internalSlots i h1 h2 := by
    constructor
    · intro hv; cases oneTree_valid hv; omega
    · intro h; omega
  internalShape i h1 h2 hv := by cases oneTree_valid hv; omega
  children i h1 h2 hv := by cases oneTree_valid hv; omega
  oneParent i h1 hv hr := absurd (oneTree_valid hv) hr
  rootNoParent k h := by
    obtain ⟨hk, -, hv, -⟩ := h
    cases oneTree_valid hv; omega
  rootValid := by decide +kernel
  rootIndex := by decide
  eosLeaf := by decide +kernel

theorem codeAt_aaCode (x : Nat) :
    codeAt aaCode x =
      if 256 = x then { valid := true, len := 1, bits := 0 }
      else if 65 = x then { valid := true, len := 1, bits := 1 }
      else noCode := by
  unfold aaCode
  rw [codeAt_setCode _ _ _ _ (by omega), codeAt_setCode _ _ _ _ (by omega), codeAt_emptyCode]

theorem aaCode_valid {x : Nat} (h : (codeAt aaCode x).valid = true) : x = 256 ∨ x = 65 := by
  rw [codeAt_aaCode] at h
  by_contra hn
  simp only [not_or] at hn
  rw [if_neg (Ne.symm hn.1), if_neg (Ne.symm hn.2)] at h
  cases h

theorem aaCode_ok : MapOk aaCode where
  codeShape x hx hv := by
    obtain rfl | rfl := aaCode_valid hv
    · rw [codeAt_aaCode]; exact ⟨by decide, fun j _ => by simp⟩
    · rw [codeAt_aaCode]
      refine ⟨by decide, fun j hj => ?_⟩
      have : 1 ≤ j := hj
      simp [BitVec.getLsbD_one]; omega
  noCodeShape x hx hv := by
    rw [codeAt_aaCode] at hv ⊢
    split at hv
    · cases hv
    · split at hv
      · cases hv
      · rw [if_neg ‹_›, if_neg ‹_›]
  prefixFree a b ha hb hab hva hvb := by
    obtain rfl | rfl := aaCode_valid hva <;> obtain rfl | rfl := aaCode_valid hvb
    · exact absurd rfl hab
    · decide +kernel
    · decide +kernel
    · exact absurd rfl hab
  eosCode := by decide +kernel

/-- The decode session of the tests keeps the invariant. -/
theorem aaDec_inv : Inv { aaDec with mapValid := false } where
  tree _ := aaTree_ok
  noTree h := by cases h
  map h := by cases h
  running _ := rfl
  building h := by cases h
  mapping h := by cases h
  encoding h := by cases h
  decoding _ := ⟨rfl, by decide +kernel⟩
  dbufLength := by decide

/-- So does the session at the end-of-stream leaf. -/
theorem aaEos_inv : Inv { aaDec with mapValid := false, decCur := 256 } where
  tree _ := aaTree_ok
  noTree h := by cases h
  map h := by cases h
  running _ := rfl
  building h := by cases h
  mapping h := by cases h
  encoding h := by cases h
  decoding _ := ⟨rfl, by decide +kernel⟩
  dbufLength := by decide

/-- Idle with the one-leaf tree. -/
def oneIdle : State := { quiet with node := oneTree, treeValid := true, root := 256, nleaf := 1 }

theorem oneIdle_inv : Inv oneIdle where
  tree _ := oneTree_ok
  noTree h := by cases h
  map h := by cases h
  running h := absurd rfl h
  building h := by cases h
  mapping h := by cases h
  encoding h := by cases h
  decoding h := by cases h
  dbufLength := by decide

theorem quiet_invalid (i : Nat) : (nodeAt quiet.node i).valid = false := by
  change (nodeAt (tabulate 513 (fun _ => noNode)) i).valid = false
  rw [nodeAt_noNodes]; rfl

theorem aaTree_genMap : genMap aaTree 257 = some aaCode := by decide +kernel

/-- A `BUILD` of the table of "AAAAA" is running. -/
def aaBuild : State := { quiet with freq := aaFreq, active := .build }

/-- `GENMAP` is running over a tree. -/
def aaMap : State := { aaIdle with active := .genmap, mapValid := false }

/-! ### Encodings -/

theorem witness_DecodeOfEncode : WellFormed (.rdWindow (.codeBits 7)) = true := by decide

theorem witness_EncodeOfDecode_1 : decode (.busRead 0x05C#12) = .ok (.rdWindow (.codeBits 7)) := rfl

theorem witness_EncodeOfDecode_2 : decode (.item .sout 0x1FF#9) = .ok .soutEnd := rfl

theorem witness_SpecWordsDecode : (3 : Nat) < 4 ∧ (7 : Nat) < 8 := by decide

theorem witness_PackingInBothOrders :
    [true, false, false, false, false, false, false, true].length = 8 ∧ (7 : Nat) < 8 := by decide

theorem witness_PackedStreamLayout :
    (15 : Nat) < 8 * (([true, false, false, false, false, false, false, true, true].length + 7) / 8) := by
  decide

/-! ### The error record and acceptance -/

theorem witness_RaiseKeepsTheFirstError :
    quiet.errCode = 0 ∧ ({ quiet with errCode := 4 } : State).errCode ≠ 0 := by decide

theorem witness_IllegalCommand_1 :
    ∃ (s : State) (w : Word) (rest : List HostMove),
      s.agenda = .write 0x008#12 .w32 w :: rest ∧ 8 < (w.extractLsb' 0 8).toNat ∧ s.errCode = 0 :=
  ⟨{ quiet with agenda := [.write 0x008#12 .w32 9] }, 9, [], rfl, by decide, by decide⟩

theorem witness_IllegalCommand_2 :
    ∃ (s : State) (w : Word) (rest : List HostMove),
      s.agenda = .write 0x008#12 .w32 w :: rest ∧ w.extractLsb' 8 24 ≠ 0#24 ∧ s.errCode ≠ 0 :=
  ⟨{ quiet with errCode := 4, agenda := [.write 0x008#12 .w32 0x100] }, 0x100, [], rfl, by decide,
    by decide⟩

theorem witness_StickyErrorBlocksCommands :
    ∃ s : State, s.errCode ≠ 0 ∧ s.active ≠ .freqClr ∧ s.active ≠ .build ∧ s.freqIdx.toNat ≤ 256 ∧
      s.freqIdx = 256 :=
  ⟨{ quiet with errCode := 1, freqIdx := 256 }, by decide⟩

/-- The two premises of `TurnedAway`. -/
theorem witness_TurnedAway :
    ({ quiet with errCode := 1 } : State).errCode ≠ 0 ∧
      ({ quiet with active := .build } : State).errCode = 0 ∧
      ({ quiet with active := .build } : State).active ≠ .idle := by decide

theorem witness_Accepts : Accepts quiet ∧ Accepts aaIdle := by
  exact ⟨⟨rfl, rfl⟩, rfl, rfl⟩

theorem witness_FreqClrEmptiesTheTable :
    Accepts quiet ∧ ({ quiet with active := .freqClr } : State).active = .freqClr :=
  ⟨⟨rfl, rfl⟩, rfl⟩

theorem witness_TreeFreeReleasesTheTree : Accepts aaIdle := ⟨rfl, rfl⟩

theorem witness_AbortEndsTheOperation :
    aaEnc.active ≠ .freqClr ∧ ({ quiet with active := .freqClr } : State).active = .freqClr := by
  decide

/-! ### The tree builder and the map generator -/

theorem witness_BuildAcceptance : Accepts aaIdle ∧ aaIdle.emult = false := ⟨⟨rfl, rfl⟩, rfl⟩

theorem witness_BuildErrorsAbandon_1 :
    ∃ s : State, s.active = .build ∧ ∀ i, i < 257 → freqAt s.freq i = 0 :=
  ⟨{ quiet with active := .build }, rfl, fun i _ => freqAt_zeroFreq i⟩

theorem witness_BuildErrorsAbandon_2 :
    ∃ s : State, s.active = .build ∧ (∃ i, i < 257 ∧ freqAt s.freq i ≠ 0) ∧ freqAt s.freq 256 = 0 :=
  ⟨{ quiet with active := .build, freq := setFreq zeroFreq 255 3 }, rfl,
    ⟨255, by decide, by decide +kernel⟩, by decide +kernel⟩

/-- The hypotheses that the statements about a successful `BUILD` share. -/
theorem witness_BuildMakesTheTree :
    aaBuild.active = .build ∧ (∀ i, (nodeAt aaBuild.node i).valid = false) ∧
      freqAt aaBuild.freq 256 ≠ 0 :=
  ⟨rfl, quiet_invalid, by decide +kernel⟩

theorem witness_BuildNodeCounts_1 :
    aaBuild.active = .build ∧ (∀ i, (nodeAt aaBuild.node i).valid = false) ∧
      freqAt aaBuild.freq 256 ≠ 0 ∧
      2 = ((List.range 257).filter (fun i => freqAt aaBuild.freq i != 0)).length :=
  ⟨rfl, quiet_invalid, by decide +kernel, by decide +kernel⟩

theorem witness_BuildNodeCounts_2 :
    ∃ s : State, s.active = .build ∧ (∀ i, (nodeAt s.node i).valid = false) ∧
      freqAt s.freq 256 ≠ 0 ∧
      1 = ((List.range 257).filter (fun i => freqAt s.freq i != 0)).length :=
  ⟨{ quiet with active := .build, freq := setFreq zeroFreq 256 1 }, rfl, quiet_invalid,
    by decide +kernel, by decide +kernel⟩

theorem witness_BuildLeavesAreTheTable :
    freqAt aaBuild.freq 256 ≠ 0 ∧ freqAt aaBuild.freq 65 ≠ 0 ∧ freqAt aaBuild.freq 66 = 0 := by
  decide +kernel

theorem witness_PopTakesTheSmallestKey : popMin aaTree [65, 256] = some (256, [65]) := by
  decide +kernel

theorem witness_MergeStepTakesTheTwoSmallest :
    [65, 256].Nodup ∧ 2 ≤ [65, 256].length ∧ ∀ c, c ∈ [65, 256] → c < 257 + 0 := by decide

theorem witness_BuildCountsAreExact :
    aaBuild.active = .build ∧ (∀ i, (nodeAt aaBuild.node i).valid = false) ∧
      freqAt aaBuild.freq 256 ≠ 0 :=
  ⟨rfl, quiet_invalid, by decide +kernel⟩

theorem witness_BuildIsAFunctionOfTheTable :
    ∃ s s' : State, s.active = .build ∧ s'.active = .build ∧ s ≠ s' ∧
      (∀ i, (nodeAt s.node i).valid = false) ∧ (∀ i, (nodeAt s'.node i).valid = false) ∧
      freqAt s.freq 256 ≠ 0 ∧ s.freq = s'.freq :=
  ⟨aaBuild, { aaBuild with ctrl := 3 }, rfl, rfl,
    fun h => absurd (congrArg State.ctrl h) (by decide), quiet_invalid, quiet_invalid,
    by decide +kernel, rfl⟩

theorem witness_GenmapAcceptance :
    Accepts quiet ∧ quiet.treeValid = false ∧ Accepts aaIdle ∧ aaIdle.treeValid = true :=
  ⟨⟨rfl, rfl⟩, rfl, ⟨rfl, rfl⟩, rfl⟩

theorem witness_GenmapAcceptance_twice :
    ∃ s s' t t' : State, s.active = .genmap ∧ s'.active = .genmap ∧ s.node = s'.node ∧
      s.root = s'.root ∧ s ≠ s' ∧ coreStep s = .next t ∧ coreStep s' = .next t' := by
  have step : ∀ s : State, s.active = .genmap → s.node = aaTree → s.root = 257 →
      coreStep s = .next (complete { s with code := aaCode, mapValid := true }) := by
    intro s ha hn hr
    simp only [coreStep, ha, genmapComplete, hn, hr]
    rw [show (257 : BitVec 10).toNat = 257 from rfl, aaTree_genMap]
  exact ⟨aaMap, { aaMap with ctrl := 3 }, _, _, rfl, rfl, rfl, rfl,
    fun h => absurd (congrArg State.ctrl h) (by decide), step _ rfl rfl rfl, step _ rfl rfl rfl⟩

theorem witness_WeightedPathLengthIsTheSumOfCounts :
    aaBuild.active = .build ∧ (∀ i, (nodeAt aaBuild.node i).valid = false) ∧
      freqAt aaBuild.freq 256 ≠ 0 :=
  ⟨rfl, quiet_invalid, by decide +kernel⟩

/-- The symbols of the table of "AAAAA". -/
theorem aaFreq_present {x : Nat} (hx : x < 257) (h : freqAt aaFreq x ≠ 0) : x = 256 ∨ x = 65 := by
  have hx' : x ∈ present aaFreq := List.mem_filter.2 ⟨List.mem_range.2 hx, bne_iff_ne.2 h⟩
  have : present aaFreq = [65, 256] := by decide +kernel
  rw [this] at hx'
  simp at hx'
  exact hx'.symm

/-- The codes 1 and 01 are a prefix code for the table of "AAAAA". -/
theorem witness_BuildIsOptimal :
    aaBuild.active = .build ∧ (∀ i, (nodeAt aaBuild.node i).valid = false) ∧
      freqAt aaBuild.freq 256 ≠ 0 ∧
      PrefixFreeOver aaBuild.freq (fun x => if x = 65 then [true] else [false, true]) := by
  refine ⟨rfl, quiet_invalid, by decide +kernel, ?_⟩
  intro a b ha hb hab hfa hfb
  obtain rfl | rfl := aaFreq_present ha hfa <;> obtain rfl | rfl := aaFreq_present hb hfb
  · exact absurd rfl hab
  · decide
  · decide
  · exact absurd rfl hab

/-- The hypotheses that the statements about the `GENMAP` completion share. -/
theorem witness_GenmapRecordsEveryLeaf :
    aaMap.active = .genmap ∧ TreeOk aaMap.node aaMap.root.toNat aaMap.nleaf.toNat :=
  ⟨rfl, aaTree_ok⟩

theorem witness_CodeLengthsAreBounded :
    ∃ s : State, s.active = .genmap ∧ TreeOk s.node s.root.toNat s.nleaf.toNat ∧
      s.nleaf.toNat = 1 :=
  ⟨{ oneIdle with active := .genmap }, rfl, oneTree_ok, rfl⟩

theorem witness_MapIsPrefixFree :
    aaMap.active = .genmap ∧ TreeOk aaMap.node aaMap.root.toNat aaMap.nleaf.toNat :=
  ⟨rfl, aaTree_ok⟩

/-! ### The encoder -/

theorem witness_EncStartOpensASession :
    Accepts quiet ∧ quiet.mapValid = false ∧ Accepts aaIdle ∧ aaIdle.mapValid = true :=
  ⟨⟨rfl, rfl⟩, rfl, ⟨rfl, rfl⟩, rfl⟩

theorem witness_EncoderTakesAByte_1 :
    ∃ (s : State) (it : Item) (v : Byte) (rest : List Item),
      s.active = .encode ∧ s.efin = false ∧ s.ebuf.length < 8 ∧ s.ebuf.length = 7 ∧
      s.sin = it :: rest ∧ itemEnd it = false ∧ itemData it = v ∧
      (codeAt s.code v.toNat).valid = true ∧ MapOk s.code :=
  ⟨{ aaEnc with sin := [0x041#9], ebuf := [true, true, true, true, true, true, true] }, 0x041#9, 65,
    [], rfl, rfl, by decide, by decide, rfl, by decide, by decide, by decide +kernel, aaCode_ok⟩

theorem witness_EncoderTakesAByte_2 :
    ∃ (s : State) (it : Item) (v : Byte) (rest : List Item),
      s.active = .encode ∧ s.efin = false ∧ s.ebuf.length < 8 ∧
      s.sin = it :: rest ∧ itemEnd it = false ∧ itemData it = v ∧
      (codeAt s.code v.toNat).valid = false :=
  ⟨{ aaEnc with sin := [0x0FF#9] }, 0x0FF#9, 255, [], rfl, rfl, by decide, rfl, by decide, by decide,
    by decide +kernel⟩

theorem witness_EncoderTakesTheEnd :
    ∃ (s : State) (it : Item) (rest : List Item),
      s.active = .encode ∧ s.efin = false ∧ s.ebuf.length < 8 ∧ s.sin = it :: rest ∧
      itemEnd it = true :=
  ⟨{ aaEnc with sin := [0x1FF#9] }, 0x1FF#9, [], rfl, rfl, by decide, rfl, by decide⟩

theorem witness_EncoderPutsBytes_full :
    ∃ s : State, s.active = .encode ∧ s.eSink = true ∧ s.ebuf.length = 8 ∧
      canAccept s.chDepth s.bout = true ∧ s.chDepth = .items 0 :=
  ⟨{ aaEnc with ebuf := [true, true, true, true, true, true, true, true], chDepth := .items 0 }, rfl,
    rfl, rfl, rfl, rfl⟩

theorem witness_EncoderPutsBytes_last :
    ∃ s : State, s.active = .encode ∧ s.eSink = true ∧ s.efin = true ∧ 0 < s.ebuf.length ∧
      s.ebuf.length < 8 ∧ canAccept s.chDepth s.bout = true :=
  ⟨{ aaEnc with ebuf := [true], efin := true }, rfl, rfl, rfl, by decide, by decide, rfl⟩

theorem witness_EncoderClosesTheStream :
    ∃ s : State, s.active = .encode ∧ s.efin = true ∧ s.ebuf = [] ∧ s.eSink = true ∧
      canAccept s.chDepth s.bout = true :=
  ⟨{ aaEnc with efin := true }, rfl, rfl, rfl, rfl, rfl⟩

theorem witness_EncoderClosesTheStream_counting :
    ∃ s : State, s.active = .encode ∧ s.efin = true ∧ s.ebuf = [] ∧ s.eSink = false :=
  ⟨{ aaEnc with efin := true, eSink := false }, rfl, rfl, rfl, rfl⟩

theorem witness_EncodeSessionOutput :
    ∃ (s : State) (bytes : List Byte) (it : Item) (rest : List Item),
      s.active = .encode ∧ s.efin = false ∧ s.ebuf = [] ∧ s.encBitCnt = 0 ∧ s.encSymCnt = 0 ∧
      s.agenda = [] ∧ s.chDepth = .unbounded ∧ s.sin = bytes.map byteItem ++ it :: rest ∧
      itemEnd it = true ∧ (∀ v, v ∈ bytes → (codeAt s.code v.toNat).valid = true) ∧ bytes ≠ [] :=
  ⟨{ aaEnc with sin := [0x041#9, 0x100#9, 0x042#9] }, [65], 0x100#9, [0x042#9], rfl, rfl, rfl, rfl,
    rfl, rfl, rfl, by decide, by decide, by decide +kernel, by decide⟩

/-! ### The decoder -/

theorem witness_DecStartOpensASession :
    Accepts quiet ∧ quiet.treeValid = false ∧ Accepts aaIdle ∧ aaIdle.treeValid = true :=
  ⟨⟨rfl, rfl⟩, rfl, ⟨rfl, rfl⟩, rfl⟩

theorem witness_DecodeStepSelection :
    Inv { aaDec with mapValid := false } ∧ aaDec.active = .decode :=
  ⟨aaDec_inv, rfl⟩

theorem witness_DecoderEmitsASymbol :
    ∃ (s : State) (v : Byte), s.active = .decode ∧
      (nodeAt s.node s.decCur.toNat).sym = 0#1 ++ v ∧ canAccept s.chDepth s.sout = true :=
  ⟨{ aaDec with decCur := 65 }, 65, rfl, by decide +kernel, rfl⟩

theorem witness_DecoderTakesAnItem_byte :
    ∃ (s : State) (it : Item) (rest : List Item), s.active = .decode ∧
      (nodeAt s.node s.decCur.toNat).sym = 257#9 ∧ s.dbuf = [] ∧ s.bin = it :: rest ∧
      itemEnd it = false :=
  ⟨{ aaDec with bin := [0x0FF#9] }, 0x0FF#9, [], rfl, by decide +kernel, rfl, rfl, by decide⟩

theorem witness_DecoderTakesAnItem_end :
    ∃ (s : State) (it : Item) (rest : List Item), s.active = .decode ∧
      (nodeAt s.node s.decCur.toNat).sym = 257#9 ∧ s.dbuf = [] ∧ s.bin = it :: rest ∧
      itemEnd it = true :=
  ⟨{ aaDec with bin := [0x100#9] }, 0x100#9, [], rfl, by decide +kernel, rfl, rfl, by decide⟩

theorem witness_DecoderConsumesABit :
    ∃ (s : State) (b : Bool) (rest : Bits), s.active = .decode ∧ s.decCur.toNat ≤ 512 ∧
      (nodeAt s.node s.decCur.toNat).sym = 257#9 ∧ s.dbuf = b :: rest :=
  ⟨{ aaDec with dbuf := [true] }, true, [], rfl, by decide, by decide +kernel, rfl⟩

theorem witness_DecoderEndsAtTheEosLeaf :
    ∃ s : State, s.active = .decode ∧ (nodeAt s.node s.decCur.toNat).sym = 256#9 ∧
      canAccept s.chDepth s.sout = true ∧ Inv s :=
  ⟨{ aaDec with mapValid := false, decCur := 256 }, rfl, by decide +kernel, rfl, aaEos_inv⟩

theorem witness_RootLeafDecodesToNothing :
    Inv oneIdle ∧ Accepts oneIdle ∧ oneIdle.treeValid = true ∧ oneIdle.root = 256 ∧
      canAccept oneIdle.chDepth oneIdle.sout = true :=
  ⟨oneIdle_inv, ⟨rfl, rfl⟩, rfl, rfl, rfl⟩

theorem witness_DecodeSessionRecoversTheBytes :
    ∃ (s : State) (rom : CodeRom) (bytes : List Byte) (rest : List Item),
      TreeOk s.node s.root.toNat s.nleaf.toNat ∧ genMap s.node s.root.toNat = some rom ∧
      s.active = .decode ∧ s.decCur = s.root ∧ s.dbuf = [] ∧ s.decBitCnt = 0 ∧ s.decSymCnt = 0 ∧
      s.agenda = [] ∧ s.chDepth = .unbounded ∧
      (∀ v, v ∈ bytes → (codeAt rom v.toNat).valid = true) ∧ bytes ≠ [] ∧
      s.bin = (packStream (encodedBits rom bytes) s.dOrd).map byteItem ++ rest :=
  ⟨{ aaDec with bin := (packStream (encodedBits aaCode [65]) false).map byteItem ++ [endItem] },
    aaCode, [65], [endItem], aaTree_ok, aaTree_genMap, rfl, rfl, rfl, rfl, rfl, rfl, rfl,
    by decide +kernel, by decide, rfl⟩

theorem witness_RoundTrip :
    ∃ (s d : State) (bytes : List Byte) (rest : List Item),
      TreeOk d.node d.root.toNat d.nleaf.toNat ∧ genMap d.node d.root.toNat = some s.code ∧
      s.active = .encode ∧ s.efin = false ∧ s.ebuf = [] ∧ s.eSink = true ∧ s.bout = [] ∧
      s.encBitCnt = 0 ∧ s.encSymCnt = 0 ∧ s.agenda = [] ∧ s.chDepth = .unbounded ∧
      s.sin = bytes.map byteItem ++ endItem :: rest ∧
      (∀ v, v ∈ bytes → (codeAt s.code v.toNat).valid = true) ∧ bytes ≠ [] ∧
      d.active = .decode ∧ d.decCur = d.root ∧ d.dbuf = [] ∧ d.dOrd = s.eOrd ∧
      d.decBitCnt = 0 ∧ d.decSymCnt = 0 ∧ d.agenda = [] ∧ d.chDepth = .unbounded ∧ d.sout = [] :=
  ⟨{ aaEnc with sin := [0x041#9, 0x100#9] }, aaDec, [65], [], aaTree_ok, aaTree_genMap, rfl, rfl,
    rfl, rfl, rfl, rfl, rfl, rfl, rfl, by decide, by decide +kernel, by decide, rfl, rfl, rfl, rfl,
    rfl, rfl, rfl, rfl, rfl⟩

/-! ### Registers, waiting, the whole machine -/

theorem witness_FreqDataWrite :
    (∃ s : State, s.active = .freqClr) ∧
    (∃ s : State, s.active ≠ .freqClr ∧ s.active ≠ .build ∧ s.freqIdx.toNat = 257) ∧
    (∃ s : State, s.active ≠ .freqClr ∧ s.active ≠ .build ∧ s.freqIdx.toNat = 256) :=
  ⟨⟨{ quiet with active := .freqClr }, rfl⟩, ⟨{ quiet with freqIdx := 257 }, by decide⟩,
    ⟨{ quiet with freqIdx := 256 }, by decide⟩⟩

theorem witness_ReadsGiveTheRegisters :
    ∃ (s : State) (r : Reg) (rest : List HostMove), s.agenda = .read r.offset .w32 :: rest :=
  ⟨{ quiet with agenda := [.read 0x080#12 .w32] }, .decCur, [], rfl⟩

theorem witness_WindowsShowTheArrays :
    ∃ s : State, s.treeValid = true ∧ s.nodeIdx.toNat ≤ 512 ∧
      (nodeAt s.node s.nodeIdx.toNat).valid = true ∧ s.mapValid = true ∧ s.codeIdx.toNat = 256 :=
  ⟨{ aaIdle with nodeIdx := 257, codeIdx := 256 }, by decide +kernel⟩

theorem witness_ReservedOffsetsAreIgnored :
    (∃ (s : State) (off : Offset) (rest : List HostMove),
      0x084#12 ≤ off ∧ off.extractLsb' 0 2 = 0#2 ∧ s.agenda = .read off .w32 :: rest) ∧
    (∃ (s : State) (r : Reg) (v : Word) (rest : List HostMove),
      r ∉ [Reg.ctrl, .cmd, .freqIdx, .freqData, .nodeIdx, .codeIdx] ∧
      s.agenda = .write r.offset .w32 v :: rest) :=
  ⟨⟨{ quiet with agenda := [.read 0x084#12 .w32] }, 0x084#12, [], by decide, by decide, rfl⟩,
    ⟨{ quiet with agenda := [.write 0x000#12 .w32 1] }, .id, 1, [], by decide, rfl⟩⟩

theorem witness_BusErrorsChangeNothing :
    ∃ (s : State) (off : Offset) (width : Width) (rest : List HostMove),
      (width ≠ .w32 ∨ off.toNat % 4 ≠ 0) ∧ s.agenda = .read off width :: rest :=
  ⟨{ quiet with agenda := [.read 0x005#12 .w32] }, 0x005#12, .w32, [], .inr (by decide), rfl⟩

theorem witness_ResetValues :
    ∃ (s : State) (rest : List HostMove), s.agenda = .reset true false true false :: rest :=
  ⟨{ aaDec with agenda := [.reset true false true false] }, [], rfl⟩

theorem witness_DisabledStepsWait :
    quiet.active ≠ .encode ∧ quiet.active ≠ .decode ∧
    (∃ s : State, s.active = .encode ∧ s.eSink = true ∧ canAccept s.chDepth s.bout = false) ∧
    (∃ s : State, s.active = .decode ∧ canAccept s.chDepth s.sout = false) ∧
    (∃ s : State, s.active = .encode ∧ s.efin = false ∧ s.ebuf.length < 8 ∧ s.sin = []) ∧
    (∃ s : State, s.active = .decode ∧ s.decCur.toNat ≤ 512 ∧
      (nodeAt s.node s.decCur.toNat).sym = 257#9 ∧ s.dbuf = [] ∧ s.bin = []) :=
  ⟨by decide, by decide, ⟨{ aaEnc with chDepth := .items 0, bout := [0] }, rfl, rfl, by decide⟩,
    ⟨{ aaDec with chDepth := .items 0, sout := [0] }, rfl, by decide⟩,
    ⟨aaEnc, rfl, rfl, by decide, rfl⟩, ⟨aaDec, rfl, by decide, by decide +kernel, rfl, rfl⟩⟩

/-- Inside an encode session: the end taken, a full byte waiting, another item at the head of `SIN`. -/
theorem witness_DisabledStepsWait_encode :
    (∃ s : State, s.active = .encode ∧ s.efin = true) ∧
    (∃ s : State, s.active = .encode ∧ s.ebuf.length = 8) ∧
    (∃ s : State, s.active = .encode ∧
      ∀ it rest, s.sin = it :: rest → itemEnd it = true ∨ itemData it ≠ 65) ∧
    (∃ s : State, s.active = .encode ∧ ∀ it rest, s.sin = it :: rest → itemEnd it = false) ∧
    (∃ s : State, s.active = .encode ∧ s.eSink = false) ∧
    (∃ (s : State) (v : Byte), s.active = .encode ∧ v ≠ pack (s.ebuf.take 8) s.eOrd) ∧
    (∃ s : State, s.active = .encode ∧ s.ebuf.length < 8 ∧ s.ebuf.length = 7 ∧ s.efin = false) ∧
    (∃ s : State, s.active = .encode ∧ s.ebuf ≠ []) :=
  ⟨⟨{ aaEnc with efin := true }, rfl, rfl⟩,
    ⟨{ aaEnc with ebuf := List.replicate 8 true }, rfl, rfl⟩,
    ⟨{ aaEnc with sin := [0x042#9] }, rfl, fun it rest h => by cases h; exact .inr (by decide)⟩,
    ⟨{ aaEnc with sin := [0x042#9] }, rfl, fun it rest h => by cases h; decide⟩,
    ⟨{ aaEnc with eSink := false }, rfl, rfl⟩, ⟨aaEnc, 1, rfl, by decide⟩,
    ⟨{ aaEnc with ebuf := List.replicate 7 true }, rfl, by decide, rfl, rfl⟩,
    ⟨{ aaEnc with ebuf := [true] }, rfl, by decide⟩⟩

/-- Inside a decode session: at a leaf, with bits left, another item at the head of `BIN`, a node of
another kind. -/
theorem witness_DisabledStepsWait_decode :
    (∃ s : State, s.active = .decode ∧ (nodeAt s.node s.decCur.toNat).sym ≠ 257#9) ∧
    (∃ s : State, s.active = .decode ∧ s.dbuf ≠ []) ∧
    (∃ s : State, s.active = .decode ∧
      ∀ it rest, s.bin = it :: rest → itemEnd it = true ∨ itemData it ≠ 65) ∧
    (∃ s : State, s.active = .decode ∧ ∀ it rest, s.bin = it :: rest → itemEnd it = false) ∧
    (∃ s : State, s.active = .decode ∧ (nodeAt s.node s.decCur.toNat).sym ≠ 0#1 ++ 66#8) ∧
    (∃ s : State, s.active = .decode ∧ (nodeAt s.node s.decCur.toNat).sym ≠ 256#9) :=
  ⟨⟨{ aaDec with decCur := 65 }, rfl, by decide +kernel⟩, ⟨{ aaDec with dbuf := [true] }, rfl, by decide⟩,
    ⟨{ aaDec with bin := [0x100#9] }, rfl, fun it rest h => by cases h; exact .inl (by decide)⟩,
    ⟨{ aaDec with bin := [0x042#9] }, rfl, fun it rest h => by cases h; decide⟩,
    ⟨{ aaDec with decCur := 65 }, rfl, by decide +kernel⟩,
    ⟨{ aaDec with decCur := 65 }, rfl, by decide +kernel⟩⟩

theorem witness_StepRunsTheInstruction_write :
    ∃ (s : State) (off : Offset) (v : Word) (i : Instr) (rest : List HostMove),
      s.agenda = .write off .w32 v :: rest ∧ off.toNat % 4 = 0 ∧ decode (.busWrite off v) = .ok i :=
  ⟨{ quiet with agenda := [.write 0x008#12 .w32 2] }, 0x008#12, 2, .build, [], rfl, by decide, rfl⟩

theorem witness_StepRunsTheInstruction_read :
    ∃ (s : State) (off : Offset) (i : Instr) (rest : List HostMove),
      s.agenda = .read off .w32 :: rest ∧ off.toNat % 4 = 0 ∧ decode (.busRead off) = .ok i :=
  ⟨{ quiet with agenda := [.read 0x024#12 .w32] }, 0x024#12, .rdWindow .freqData, [], rfl, by decide,
    rfl⟩

theorem witness_StepRunsTheInstruction_core :
    (∃ (s : State) (rest : List HostMove), s.agenda = .core :: rest) ∧ quiet.agenda = [] :=
  ⟨⟨{ quiet with agenda := [.core] }, [], rfl⟩, rfl⟩

theorem witness_StepRunsTheInstruction_sin :
    ∃ (s : State) (it : Item) (rest : List Item), s.active = .encode ∧ s.efin = false ∧
      s.ebuf.length < 8 ∧ s.sin = it :: rest :=
  ⟨{ aaEnc with sin := [0x041#9] }, 0x041#9, [], rfl, rfl, by decide, rfl⟩

theorem witness_StepRunsTheInstruction_bout :
    (∃ s : State, s.active = .encode ∧ s.eSink = true ∧ s.ebuf.length = 8) ∧
    (∃ s : State, s.active = .encode ∧ s.eSink = true ∧ s.efin = true ∧ 0 < s.ebuf.length ∧
      s.ebuf.length = 7) ∧
    (∃ s : State, s.active = .encode ∧ s.efin = true ∧ s.ebuf = []) :=
  ⟨⟨{ aaEnc with ebuf := [true, true, true, true, true, true, true, true] }, rfl, rfl, rfl⟩,
    ⟨{ aaEnc with efin := true, ebuf := [true, true, true, true, true, true, true] }, rfl, rfl, rfl,
      by decide, rfl⟩,
    ⟨{ aaEnc with efin := true }, rfl, rfl, rfl⟩⟩

theorem witness_StepRunsTheInstruction_bin :
    ∃ (s : State) (it : Item) (rest : List Item), s.active = .decode ∧ s.decCur.toNat ≤ 512 ∧
      (nodeAt s.node s.decCur.toNat).sym = 257#9 ∧ s.dbuf = [] ∧ s.bin = it :: rest :=
  ⟨{ aaDec with bin := [0x0FF#9] }, 0x0FF#9, [], rfl, by decide, by decide +kernel, rfl, rfl⟩

theorem witness_StepRunsTheInstruction_sout :
    (∃ (s : State) (v : Byte), s.active = .decode ∧ s.decCur.toNat ≤ 512 ∧
      (nodeAt s.node s.decCur.toNat).sym = 0#1 ++ v) ∧
    (∃ s : State, s.active = .decode ∧ s.decCur.toNat ≤ 512 ∧
      (nodeAt s.node s.decCur.toNat).sym = 256#9) :=
  ⟨⟨{ aaDec with decCur := 65 }, 65, rfl, by decide, by decide +kernel⟩,
    ⟨{ aaDec with decCur := 256 }, rfl, by decide, by decide +kernel⟩⟩

theorem witness_ErrorRecordIsSticky :
    ∃ s t : State, s.errCode ≠ 0 ∧ step s = .next t :=
  ⟨{ quiet with errCode := 6 }, _, by decide, rfl⟩

theorem witness_DoneIsSetByCompletionOnly :
    (∃ s t : State, step s = .next t ∧ s.done = false ∧ t.done = true) ∧
    (∃ s t : State, step s = .next t ∧ s.done = true ∧ t.done = false) :=
  ⟨⟨{ quiet with agenda := [.write 0x008#12 .w32 6] }, _, rfl, rfl, rfl⟩,
    ⟨{ quiet with done := true, agenda := [.write 0x008#12 .w32 7] }, _, rfl, rfl, rfl⟩⟩

theorem witness_ArraysHaveOneWriter :
    ∃ s t : State, step s = .next t ∧ (∀ a b c d rest, s.agenda ≠ .reset a b c d :: rest) ∧
      t.freq ≠ s.freq :=
  ⟨{ quiet with agenda := [.write 0x024#12 .w32 5] }, _, rfl, by simp, by decide +kernel⟩

theorem witness_StepKeepsTheInvariant :
    ∃ s t : State, Inv s ∧ step s = .next t :=
  ⟨oneIdle, _, oneIdle_inv, rfl⟩

theorem witness_InvariantStatesNeverStop : Inv { aaDec with mapValid := false } := aaDec_inv

theorem witness_ChannelsAreFifos_depth :
    ∃ s t : State, ChannelsFit s ∧ s.chDepth = .items 0 ∧ s.sin.length = 1 ∧ step s = .next t :=
  ⟨{ quiet with chDepth := .items 0, sin := [0x041#9] }, _,
    ⟨by simp [FitsDepth], by simp [FitsDepth, quiet, State.reset, State.afterReset],
      by simp [FitsDepth, quiet, State.reset, State.afterReset],
      by simp [FitsDepth, quiet, State.reset, State.afterReset]⟩, rfl, rfl, rfl⟩

theorem witness_ChannelsAreFifos_place :
    (∃ (s : State) (it : Item) (rest : List HostMove), s.agenda = .placeSin it :: rest ∧
      canAccept s.chDepth s.sin = true ∧ s.chDepth = .items 0) ∧
    (∃ (s : State) (it : Item) (rest : List HostMove), s.agenda = .feedBin it :: rest ∧
      canAccept s.chDepth s.bin = true) :=
  ⟨⟨{ quiet with chDepth := .items 0, agenda := [.placeSin 1] }, 1, [], rfl, rfl, rfl⟩,
    ⟨{ quiet with agenda := [.feedBin 1] }, 1, [], rfl, rfl⟩⟩

theorem witness_ChannelsAreFifos_take :
    (∃ (s : State) (it : Item) (ch : List Item) (rest : List HostMove),
      s.agenda = .takeBout :: rest ∧ s.bout = it :: ch) ∧
    (∃ (s : State) (it : Item) (ch : List Item) (rest : List HostMove),
      s.agenda = .takeSout :: rest ∧ s.sout = it :: ch) :=
  ⟨⟨{ quiet with bout := [1, 2], agenda := [.takeBout] }, 1, [2], [], rfl, rfl⟩,
    ⟨{ quiet with sout := [1, 2], agenda := [.takeSout] }, 1, [2], [], rfl, rfl⟩⟩

theorem witness_ChannelsAreFifos_between :
    (∃ (s : State) (rest : List HostMove), s.agenda = .removeSin :: rest ∧ s.active ≠ .encode) ∧
    (∃ (s : State) (rest : List HostMove), s.agenda = .removeBin :: rest ∧ s.active ≠ .decode) ∧
    (∃ (s : State) (rest : List HostMove), s.agenda = .wait :: rest ∧ s.active = .idle) ∧
    (∃ (s : State) (rest : List HostMove), s.agenda = .waitDrain :: rest ∧ s.active = .idle ∧
      s.bout = [] ∧ s.sout = []) :=
  ⟨⟨{ quiet with agenda := [.removeSin] }, [], rfl, by decide⟩,
    ⟨{ quiet with agenda := [.removeBin] }, [], rfl, by decide⟩,
    ⟨{ quiet with agenda := [.wait] }, [], rfl, rfl⟩,
    ⟨{ quiet with agenda := [.waitDrain] }, [], rfl, rfl, rfl, rfl⟩⟩

theorem witness_ChannelsAreFifos_blocked :
    (∃ (s t : State) (m : HostMove) (rest : List HostMove), s.agenda = m :: rest ∧
      hostReady m s = false ∧ hostDrains m = false ∧ coreStep s = .next t) ∧
    (∃ (s : State) (m : HostMove) (rest : List HostMove), s.agenda = m :: rest ∧
      hostReady m s = false ∧ hostDrains m = true ∧ s.bout = [] ∧ s.sout = []) ∧
    (∃ (s : State) (m : HostMove) (rest : List HostMove) (it : Item) (ch : List Item),
      s.agenda = m :: rest ∧ hostReady m s = false ∧ hostDrains m = true ∧ s.bout = it :: ch) ∧
    (∃ (s : State) (m : HostMove) (rest : List HostMove) (it : Item) (ch : List Item),
      s.agenda = m :: rest ∧ hostReady m s = false ∧ hostDrains m = true ∧ s.bout = [] ∧
      s.sout = it :: ch) :=
  ⟨⟨{ quiet with agenda := [.takeBout] }, _, .takeBout, [], rfl, rfl, rfl, rfl⟩,
    ⟨{ aaEnc with agenda := [.waitDrain] }, .waitDrain, [], rfl, by decide, rfl, rfl, rfl⟩,
    ⟨{ aaEnc with bout := [1], agenda := [.waitDrain] }, .waitDrain, [], 1, [], rfl, by decide, rfl, rfl⟩,
    ⟨{ aaDec with sout := [1], agenda := [.waitDrain] }, .waitDrain, [], 1, [], rfl, by decide, rfl, rfl,
      rfl⟩⟩

end Sys2Proof.Tests
end

section
/-! The interrupt output (R44) as a condition on `CTRL`, `DONE` and `ERRCODE`, and obligation O50. -/

namespace Sys2Proof.Machine

/-- R44 over the bits of `CTRL` (R23). -/
theorem irq_eq_true_iff (s : State) : irq s = true ↔
    (s.ctrl.getLsbD 2 = true ∧ s.done = true) ∨ (s.ctrl.getLsbD 3 = true ∧ s.errCode ≠ 0) := by
  rw [irq, Bool.or_eq_true, Bool.and_eq_true, Bool.and_eq_true, err_eq_true, ieDone, ieErr]

/-- Whatever `CTRL` enables, the level is low while there is nothing to report. -/
theorem irq_eq_false_of_not_done_of_no_err {s : State} (hdone : s.done = false) (herr : s.errCode = 0) :
    irq s = false := by
  have hlow : ¬ irq s = true := by simp [irq_eq_true_iff, hdone, herr]
  exact Bool.eq_false_of_not_eq_true hlow

@[simp] theorem reset_done : State.reset.done = false := rfl

@[simp] theorem reset_errCode : State.reset.errCode = 0 := rfl

/-- Settles O50: the level is the stated condition in every state, and reset clears both `DONE` and
`ERRCODE`. -/
theorem irqIsALevel : Obligations.IrqIsALevel :=
  ⟨irq_eq_true_iff, irq_eq_false_of_not_done_of_no_err reset_done reset_errCode⟩

end Sys2Proof.Machine
end

section
/-! Packing bit by bit (R88): which bit of the string stands at each position of the packed byte and which
bit of the byte stands at each place of the unpacked string, the round trip, and obligation O4. -/

namespace Sys2Proof.Machine

/-! ### Positions -/

/-- `pos` over the first 8 places (R88). -/
theorem bitPos_of_lt {k : Nat} (hk : k < 8) (ord : Bool) :
    bitPos k ord = if ord then 7 - k else k := by
  rw [bitPos, Nat.mod_eq_of_lt hk]

theorem bitPos_lt (k : Nat) (ord : Bool) : bitPos k ord < 8 := by
  unfold bitPos
  split <;> omega

/-- No two of the 8 places share a position, so no bit of a packed byte is written twice. -/
theorem bitPos_inj {j k : Nat} (hj : j < 8) (hk : k < 8) (ord : Bool) :
    bitPos j ord = bitPos k ord ↔ j = k := by
  rw [bitPos_of_lt hj, bitPos_of_lt hk]
  split <;> omega

/-! ### `pack` -/

theorem getLsbD_foldl_or {α : Type} {w : Nat} (f : α → BitVec w) (i : Nat) (l : List α) (a : BitVec w) :
    (l.foldl (fun acc x => acc ||| f x) a).getLsbD i =
      (a.getLsbD i || l.any (fun x => (f x).getLsbD i)) := by
  induction l generalizing a with
  | nil => simp
  | cons x xs ih => rw [List.foldl_cons, ih, BitVec.getLsbD_or, List.any_cons, Bool.or_assoc]

/-- A single bit shifted to position `p` of a byte stands there and nowhere else. -/
theorem getLsbD_ofBool_shiftLeft (c : Bool) {p i : Nat} (hi : i < 8) :
    ((BitVec.ofBool c).setWidth 8 <<< p).getLsbD i = (c && decide (p = i)) := by
  rw [BitVec.getLsbD_shiftLeft, BitVec.getLsbD_setWidth, BitVec.getLsbD_ofBool]
  cases c with
  | false => simp
  | true =>
    have hplace : (p ≤ i ∧ i - p < 8 ∧ i - p = 0) ↔ p = i := by omega
    rw [Bool.eq_iff_iff]
    simpa [hi] using hplace

/-- `pack` puts bit `k` at `pos(k, ord)`, whatever the length of the string: a bit it does not have is 0
(R88, R89). -/
theorem getLsbD_pack_bitPos (b : Bits) (ord : Bool) {k : Nat} (hk : k < 8) :
    (pack b ord).getLsbD (bitPos k ord) = b.getD k false := by
  have hplaced : ∀ j ∈ List.range 8,
      ((BitVec.ofBool (b.getD j false)).setWidth 8 <<< bitPos j ord).getLsbD (bitPos k ord) =
        (b.getD j false && decide (j = k)) := by
    intro j hj
    rw [getLsbD_ofBool_shiftLeft _ (bitPos_lt k ord),
      decide_eq_decide.mpr (bitPos_inj (List.mem_range.mp hj) hk ord)]
  rw [pack, getLsbD_foldl_or, BitVec.ofNat_eq_ofNat, BitVec.getLsbD_zero, Bool.false_or,
    Bool.eq_iff_iff, List.any_eq_true]
  constructor
  · rintro ⟨j, hj, hbit⟩
    rw [hplaced j hj, Bool.and_eq_true, decide_eq_true_eq] at hbit
    obtain ⟨hset, rfl⟩ := hbit
    exact hset
  · intro hset
    have hmem : k ∈ List.range 8 := List.mem_range.mpr hk
    exact ⟨k, hmem, by rw [hplaced k hmem, hset, decide_eq_true rfl, Bool.and_self]⟩

/-! ### `unpack` -/

/-- `unpack` reads its bit `k` at `pos(k, ord)` (R88). -/
theorem getD_unpack (v : Byte) (ord : Bool) {k : Nat} (hk : k < 8) :
    (unpack v ord).getD k false = v.getLsbD (bitPos k ord) := by
  simp [unpack, hk]

theorem unpack_pack {b : Bits} (hb : b.length = 8) (ord : Bool) : unpack (pack b ord) ord = b := by
  refine List.ext_getElem (by rw [unpack_length, hb]) fun k hunpack hk => ?_
  have hk8 : k < 8 := hb ▸ hk
  calc (unpack (pack b ord) ord)[k]
      = (unpack (pack b ord) ord).getD k false := List.getElem_eq_getD false
    _ = (pack b ord).getLsbD (bitPos k ord) := getD_unpack _ _ hk8
    _ = b.getD k false := getLsbD_pack_bitPos b ord hk8
    _ = b[k] := (List.getElem_eq_getD false).symm

/-- Settles O4: the two placement laws at `pos(k, ord)`, written out by `bitPos_of_lt`, and the round trip
that follows from them. -/
theorem packingInBothOrders : Obligations.PackingInBothOrders := by
  refine fun ord => ⟨fun b k _ hk => ?_, fun v k hk => ⟨unpack_length v ord, ?_⟩,
    fun b hb => unpack_pack hb ord⟩
  · rw [← bitPos_of_lt hk, getLsbD_pack_bitPos b ord hk]
  · rw [← bitPos_of_lt hk, getD_unpack v ord hk]

end Sys2Proof.Machine
end

section
/-! Command acceptance (R100): `FREQ_CLR`, `TREE_FREE` and the two commands that
need a tree as `accept` of their own parts; what turns a command away; what an accepted one does. -/

namespace Sys2Proof.Machine

/-- With no error recorded, `raise` writes the record and nothing else (R252). -/
theorem raise_of_no_err {e : ErrCause} {info : BitVec 16} {s : State} (h : s.errCode = 0) :
    raise e info s = { s with errCode := e.code, errInfo := info } := by
  simp only [raise, if_pos h]

/-- A completion with no operation active only sets `DONE` (R9). -/
theorem complete_of_idle {s : State} (h : s.active = .idle) : complete s = { s with done := true } := by
  rw [complete, ← h]

theorem exec_freqClr (s : State) :
    exec .freqClr s = .next (accept 0x0001#16 freqClrAccepted s) := rfl

theorem exec_treeFree (s : State) :
    exec .treeFree s = .next (accept 0x0006#16 treeFreeAccepted s) := rfl

theorem exec_genmap (s : State) :
    exec .genmap s = .next (accept 0x0003#16 genmapAccepted s) := rfl

theorem exec_decStart (s : State) :
    exec .decStart s = .next (accept 0x0005#16 decStartAccepted s) := rfl

/-- Every command that goes through acceptance is turned away in the two ways of R100, whatever its own
part is. -/
theorem turnedAway_of_exec_eq_accept {i : Instr} {op : BitVec 16} {body : State → State}
    (hexec : ∀ s, exec i s = .next (accept op body s)) : TurnedAway i op := by
  refine ⟨fun s herr => ?_, fun s herr hactive => ?_⟩
  · rw [hexec, accept_of_err herr]
  · rw [hexec, accept_of_busy herr hactive, raise_of_no_err herr, ErrCause.code]

/-- An accepted command clears `DONE` and does its own part (R100). -/
theorem accept_of_accepts {op : BitVec 16} {body : State → State} {s : State} (hs : Accepts s) :
    accept op body s = body { s with done := false } := by
  obtain ⟨herr, hidle⟩ := hs
  exact accept_of_idle herr hidle

end Sys2Proof.Machine
end

section
/-! The frequency table from the host's side: the store through `FREQ_DATA` in its three cases (R110), the
window (R31), `FREQ_CLR` (R102), and obligations O43 and O9. -/

namespace Sys2Proof.Machine

/-! ### The store -/

theorem exec_wrFreqData (v : Word) (s : State) :
    exec (.wrFreqData v) s = .next (writeFreqData v s) := rfl

theorem tableLocked_iff {s : State} :
    tableLocked s = true ↔ s.active = .freqClr ∨ s.active = .build := by
  simp [tableLocked]

theorem writeFreqData_of_locked {v : Word} {s : State} (h : s.active = .freqClr ∨ s.active = .build) :
    writeFreqData v s = raise .busy 0x8024#16 s := by
  rw [writeFreqData, if_pos (tableLocked_iff.mpr h)]

theorem writeFreqData_of_past {v : Word} {s : State}
    (hopen : ¬ (s.active = .freqClr ∨ s.active = .build)) (hidx : 256 < s.freqIdx.toNat) :
    writeFreqData v s = raise .badIndex (s.freqIdx.setWidth 16) s := by
  rw [writeFreqData, if_neg (mt tableLocked_iff.mp hopen), if_pos hidx]

theorem writeFreqData_of_entry {v : Word} {s : State}
    (hopen : ¬ (s.active = .freqClr ∨ s.active = .build)) (hidx : s.freqIdx.toNat ≤ 256) :
    writeFreqData v s =
      { s with freq := setFreq s.freq s.freqIdx.toNat v, freqIdx := s.freqIdx + 1 } := by
  rw [writeFreqData, if_neg (mt tableLocked_iff.mp hopen), if_neg (Nat.not_lt.mpr hidx)]

/-- The post-increment of an index that names an entry does not wrap (R110). -/
theorem toNat_freqIdx_add_one {x : BitVec 9} (h : x.toNat ≤ 256) : (x + 1).toNat = x.toNat + 1 := by
  bv_omega

/-- `zext_16` of an index, written as the zeros in front of it (R110). -/
theorem setWidth_freqIdx (x : BitVec 9) : x.setWidth 16 = 0#7 ++ x := by
  have hfits : x.toNat < 2 ^ 16 := by omega
  refine BitVec.eq_of_toNat_eq ?_
  rw [BitVec.toNat_setWidth, Nat.mod_eq_of_lt hfits, BitVec.toNat_append, BitVec.toNat_ofNat,
    Nat.zero_mod, Nat.zero_shiftLeft, Nat.zero_or]

/-- Settles O43: a write decodes to the store, and the three cases of `writeFreqData` are those of R110 in
its order. -/
theorem freqDataWrite : Obligations.FreqDataWrite := by
  refine fun s v => ⟨rfl, fun hlocked => ?_, fun hclr hbuild hidx => ?_, fun hclr hbuild hidx => ?_⟩
  · rw [exec_wrFreqData, writeFreqData_of_locked hlocked]
  · rw [exec_wrFreqData, writeFreqData_of_past (not_or.mpr ⟨hclr, hbuild⟩) hidx, setWidth_freqIdx]
  · have hnext := toNat_freqIdx_add_one hidx
    refine ⟨setFreq s.freq s.freqIdx.toNat v, s.freqIdx + 1, ?_, hnext, by omega, fun i _ => ?_⟩
    · rw [exec_wrFreqData, writeFreqData_of_entry (not_or.mpr ⟨hclr, hbuild⟩) hidx]
    · rw [freqAt_setFreq _ _ _ _ (Nat.lt_succ_of_le hidx)]
      exact if_congr eq_comm rfl rfl

/-! ### `FREQ_CLR` -/

/-- The window hides the table while it is being cleared (R31). -/
theorem readReg_freqData_of_freqClr {s : State} (h : s.active = .freqClr) :
    readReg .freqData s = 0 := by
  simp [readReg, freqWindow, h]

theorem coreStep_of_freqClr {s : State} (h : s.active = .freqClr) :
    coreStep s = .next (freqClrComplete s) := by
  simp only [coreStep, h]

/-- Settles O9: acceptance is that of R100, and the completion writes the table of zeros. -/
theorem freqClrEmptiesTheTable : Obligations.FreqClrEmptiesTheTable := by
  refine ⟨rfl, turnedAway_of_exec_eq_accept exec_freqClr, fun s hs => ?_, fun s hclr => ⟨?_, ?_, ?_⟩⟩
  · rw [exec_freqClr, accept_of_accepts hs, freqClrAccepted]
  · exact ⟨zeroFreq, coreStep_of_freqClr hclr, fun i _ => freqAt_zeroFreq i⟩
  · exact readReg_freqData_of_freqClr hclr
  · exact fun v => by rw [exec_wrFreqData, writeFreqData_of_locked (.inl hclr)]

end Sys2Proof.Machine
end

section
/-! No tree (R104): the node window reads 0, the commands that need a tree raise `NO_TREE` (R151, R201), and
obligation O10. -/

namespace Sys2Proof.Machine

/-- The three registers of the node window show no entry while there is no tree (R33). -/
theorem nodeWindow_of_no_tree {s : State} (htree : s.treeValid = false) :
    readReg .nodeInfo s = 0 ∧ readReg .nodeCntLo s = 0 ∧ readReg .nodeCntHi s = 0 := by
  have hhidden : nodeVisible s = false := by simp [nodeVisible, htree]
  simp [readReg, nodeInfo, nodeCntLo, nodeCntHi, hhidden]

/-- R151 with no tree. -/
theorem genmapAccepted_of_no_tree {s : State} (herr : s.errCode = 0) (htree : s.treeValid = false) :
    genmapAccepted s = { s with errCode := 0x03#8, errInfo := 0x0003#16 } := by
  rw [genmapAccepted, if_neg (ne_true_of_eq_false htree), raise_of_no_err herr, ErrCause.code]

/-- R201 with no tree. -/
theorem decStartAccepted_of_no_tree {s : State} (herr : s.errCode = 0) (htree : s.treeValid = false) :
    decStartAccepted s = { s with errCode := 0x03#8, errInfo := 0x0005#16 } := by
  rw [decStartAccepted, if_neg (ne_true_of_eq_false htree), raise_of_no_err herr, ErrCause.code]

theorem exec_genmap_of_no_tree {s : State} (hs : Accepts s) (htree : s.treeValid = false) :
    exec .genmap s =
      .next { s with done := false, errCode := 0x03#8, errInfo := 0x0003#16 } := by
  rw [exec_genmap, accept_of_accepts hs,
    genmapAccepted_of_no_tree (s := { s with done := false }) hs.1 htree]

theorem exec_decStart_of_no_tree {s : State} (hs : Accepts s) (htree : s.treeValid = false) :
    exec .decStart s =
      .next { s with done := false, errCode := 0x03#8, errInfo := 0x0005#16 } := by
  rw [exec_decStart, accept_of_accepts hs,
    decStartAccepted_of_no_tree (s := { s with done := false }) hs.1 htree]

/-- With no operation active the completion inside `TREE_FREE` leaves `ACTIVE` at 0 (R104). -/
theorem treeFreeAccepted_of_idle {s : State} (h : s.active = .idle) :
    treeFreeAccepted s = { s with done := true, treeValid := false, root := 0, nleaf := 0 } :=
  complete_of_idle (s := { s with treeValid := false, root := 0, nleaf := 0 }) h

theorem exec_treeFree_of_accepts {s : State} (hs : Accepts s) :
    exec .treeFree s = .next { s with done := true, treeValid := false, root := 0, nleaf := 0 } := by
  rw [exec_treeFree, accept_of_accepts hs,
    treeFreeAccepted_of_idle (s := { s with done := false }) hs.2]

/-- Settles O10: the state after the command has no tree and accepts the next command, which is all that
the window and the two `NO_TREE` errors need. -/
theorem treeFreeReleasesTheTree : Obligations.TreeFreeReleasesTheTree := by
  refine ⟨rfl, turnedAway_of_exec_eq_accept exec_treeFree, fun s hs =>
    ⟨exec_treeFree_of_accepts hs, fun t ht => ?_⟩⟩
  have hfreed := Host.Outcome.next.inj ((exec_treeFree_of_accepts hs).symm.trans ht)
  have htree : t.treeValid = false := hfreed ▸ rfl
  have haccepts : Accepts t := hfreed ▸ hs
  obtain ⟨hinfo, hlo, hhi⟩ := nodeWindow_of_no_tree htree
  exact ⟨hinfo, hlo, hhi, exec_genmap_of_no_tree haccepts htree,
    exec_decStart_of_no_tree haccepts htree⟩

end Sys2Proof.Machine
end

section
/-! The instructions that work in every state: `NOP` (R101), `CLR_ERR` (R106), the control and index writes
(R109), and obligations O12 and O44. -/

namespace Sys2Proof.Machine

theorem exec_nop (s : State) : exec .nop s = .next s := rfl

theorem exec_clrErr (s : State) : exec .clrErr s = .next (clearError s) := rfl

/-- With no error recorded only a completion can raise the interrupt (R44). -/
theorem irq_of_no_err {s : State} (h : s.errCode = 0) : irq s = (ieDone s && s.done) := by
  rw [irq, err_eq_false.mpr h, Bool.and_false, Bool.or_false]

/-- Settles O12: what `CLR_ERR` leaves is a state with no error recorded, with `CTRL` and `DONE` as they
were. -/
theorem nopAndClrErr : Obligations.NopAndClrErr := by
  refine ⟨rfl, exec_nop, rfl, fun s => ⟨exec_clrErr s, fun t ht => ?_⟩⟩
  rw [exec_clrErr] at ht
  cases ht
  exact ⟨err_eq_false.mpr (clearError_errCode s), irq_of_no_err (clearError_errCode s)⟩

theorem exec_wrCtrl (v : Word) (s : State) :
    exec (.wrCtrl v) s = .next { s with ctrl := v.extractLsb' 0 4 } := rfl

theorem exec_wrFreqIdx (v : Word) (s : State) :
    exec (.wrFreqIdx v) s = .next { s with freqIdx := v.extractLsb' 0 9 } := rfl

theorem exec_wrNodeIdx (v : Word) (s : State) :
    exec (.wrNodeIdx v) s = .next { s with nodeIdx := v.extractLsb' 0 10 } := rfl

theorem exec_wrCodeIdx (v : Word) (s : State) :
    exec (.wrCodeIdx v) s = .next { s with codeIdx := v.extractLsb' 0 9 } := rfl

/-- Settles O44: no arm of the four writes looks at the state, and their offsets name their registers. -/
theorem controlAndIndexWrites : Obligations.ControlAndIndexWrites := fun s v =>
  ⟨exec_wrCtrl v s, exec_wrFreqIdx v s, exec_wrNodeIdx v s, exec_wrCodeIdx v s, rfl, rfl, rfl, rfl⟩

end Sys2Proof.Machine
end

section
/-! `BUILD` acceptance (R131) and its two errors (R139), and obligations O13 and O14. -/

namespace Sys2Proof.Machine

theorem exec_build (s : State) : exec .build s = .next (accept 0x0002#16 buildAccepted s) := rfl

theorem exec_build_of_accepts {s : State} (hs : Accepts s) :
    exec .build s = .next (buildAccepted { s with done := false }) := by
  rw [exec_build, accept_of_accepts hs]

/-- The `STATUS` word of a `BUILD` that has just been accepted: `ACTIVE` = 2 and `BUSY` (R25). -/
theorem statusWord_buildAccepted {s : State} (herr : s.errCode = 0) (hdone : s.done = false)
    (hemult : s.emult = false) : statusWord (buildAccepted s) = 0x00000201#32 := by
  have hnoErr : err (buildAccepted s) = false := err_eq_false.mpr herr
  have hbusy : busy (buildAccepted s) = true := busy_eq_true.mpr (by simp)
  rw [statusWord, hnoErr, hbusy, buildAccepted_active, buildAccepted_emult, buildAccepted_done,
    buildAccepted_mapValid, buildAccepted_treeValid, hdone, hemult]
  rfl

/-- Settles O13: acceptance is that of R100, and the new node RAM is the old one invalidated entry by
entry. -/
theorem buildAcceptance : Obligations.BuildAcceptance := by
  refine ⟨rfl, turnedAway_of_exec_eq_accept exec_build, fun s hs =>
    ⟨invalidateNodes s.node, ?_, fun i _ => nodeAt_invalidateNodes s.node i, fun hemult t ht => ?_⟩⟩
  · rw [exec_build_of_accepts hs, buildAccepted]
  · rw [exec_build_of_accepts hs] at ht
    cases ht
    exact statusWord_buildAccepted (s := { s with done := false }) hs.1 rfl hemult

theorem mem_present {f : FreqRam} {i : Nat} : i ∈ present f ↔ i < 257 ∧ freqAt f i ≠ 0 := by
  simp [present]

theorem present_eq_nil {f : FreqRam} : present f = [] ↔ ∀ i, i < 257 → freqAt f i = 0 := by
  simp [present]

theorem coreStep_of_build {s : State} (h : s.active = .build) :
    coreStep s = .next (buildComplete s) := by
  simp only [coreStep, h]

theorem buildComplete_of_empty {s : State} (h : present s.freq = []) :
    buildComplete s = abandon (raise .emptyTable 0 s) := by
  rw [buildComplete, if_pos h]

theorem buildComplete_of_no_eof {s : State} (hne : present s.freq ≠ [])
    (heof : freqAt s.freq 256 = 0) : buildComplete s = abandon (raise .noEof 256#16 s) := by
  rw [buildComplete, if_neg hne, if_pos heof]

/-- Settles O14: the two checks of the completion step in the order of R139. -/
theorem buildErrorsAbandon : Obligations.BuildErrorsAbandon := by
  refine fun s hs => ⟨fun hempty => ?_, fun ⟨i, hi, hfreq⟩ heof => ?_⟩
  · rw [coreStep_of_build hs, buildComplete_of_empty (present_eq_nil.mpr hempty), abandon]
  · have hne : present s.freq ≠ [] := fun hnil => hfreq (present_eq_nil.mp hnil i hi)
    rw [coreStep_of_build hs, buildComplete_of_no_eof hne heof, abandon]

end Sys2Proof.Machine
end

section
/-! The queue of the tree builder (R133, R135): the key order, what a removal takes, one iteration of the
merge loop, and obligation O19. -/

namespace Sys2Proof.Machine

/-- `key(i)` (R133), in the lexicographic order of pairs. -/
def nodeKey (ram : NodeRam) (i : Nat) : ℕ ×ₗ ℕ := toLex ((nodeAt ram i).cnt.toNat, i)

theorem keyLt_iff {ram : NodeRam} {a b : Nat} :
    keyLt ram a b = true ↔ nodeKey ram a < nodeKey ram b := by
  simp [keyLt, nodeKey, Prod.Lex.toLex_lt_toLex]

/-- No two nodes have one key, since the index is part of it. -/
theorem nodeKey_inj {ram : NodeRam} {a b : Nat} : nodeKey ram a = nodeKey ram b ↔ a = b :=
  ⟨fun h => congrArg (fun x => (ofLex x).2) h, congrArg _⟩

theorem minKey_le (ram : NodeRam) (a : Nat) (q : List Nat) :
    ∀ c ∈ a :: q, nodeKey ram (minKey ram a q) ≤ nodeKey ram c := by
  induction q generalizing a with
  | nil => simp [minKey]
  | cons b q ih =>
    -- the smaller of `a` and `b` is carried on
    have hsmaller : ∀ m ∈ [a, b], nodeKey ram (if keyLt ram b a then b else a) ≤ nodeKey ram m := by
      by_cases hba : keyLt ram b a = true
      · simp [hba, (keyLt_iff.mp hba).le]
      · simp [hba, not_lt.mp (mt keyLt_iff.mpr hba)]
    intro c hc
    rw [minKey]
    simp only [List.mem_cons] at hc hsmaller
    obtain rfl | rfl | hc := hc
    · exact (ih _ _ List.mem_cons_self).trans (hsmaller _ (by simp))
    · exact (ih _ _ List.mem_cons_self).trans (hsmaller _ (by simp))
    · exact ih _ _ (List.mem_cons_of_mem _ hc)

/-- A removal takes the element with the smallest key and leaves the others (R135). -/
theorem popMin_spec {ram : NodeRam} {q rest : List Nat} {a : Nat}
    (h : popMin ram q = some (a, rest)) :
    a ∈ q ∧ rest = q.erase a ∧ ∀ c ∈ q, nodeKey ram a ≤ nodeKey ram c := by
  cases q with
  | nil => simp [popMin] at h
  | cons b q =>
    simp only [popMin, Option.some.injEq, Prod.mk.injEq] at h
    obtain ⟨rfl, rfl⟩ := h
    exact ⟨minKey_mem ram b q, rfl, minKey_le ram b q⟩

theorem exists_popMin {q : List Nat} (ram : NodeRam) (h : q ≠ []) :
    ∃ a rest, popMin ram q = some (a, rest) := by
  cases q with
  | nil => exact absurd rfl h
  | cons a q => exact ⟨_, _, rfl⟩

/-- Out of a queue without repetitions, the element removed has a smaller key than every other one. -/
theorem popMin_lt {ram : NodeRam} {q rest : List Nat} {a : Nat} (hq : q.Nodup)
    (h : popMin ram q = some (a, rest)) :
    q.Perm (a :: rest) ∧ ∀ c ∈ rest, nodeKey ram a < nodeKey ram c := by
  obtain ⟨ha, rfl, hmin⟩ := popMin_spec h
  refine ⟨List.perm_cons_erase ha, fun c hc => ?_⟩
  obtain ⟨hne, hcq⟩ := hq.mem_erase_iff.mp hc
  exact lt_of_le_of_ne (hmin c hcq) (fun he => hne (nodeKey_inj.mp he).symm)

/-- `a` and `b` are the two removals of one iteration (R135) from `q`, in this order, and `rest` stays. -/
def PopsTwo (ram : NodeRam) (q : List Nat) (a b : Nat) (rest : List Nat) : Prop :=
  ∃ q', popMin ram q = some (a, q') ∧ popMin ram q' = some (b, rest)

theorem exists_popsTwo {q : List Nat} (ram : NodeRam) (h : 2 ≤ q.length) :
    ∃ a b rest, PopsTwo ram q a b rest := by
  obtain ⟨a, q', ha⟩ := exists_popMin ram (q := q) (by rintro rfl; simp at h)
  have hlen := popMin_length ha
  obtain ⟨b, rest, hb⟩ := exists_popMin ram (q := q') (by rintro rfl; simp at hlen; omega)
  exact ⟨a, b, rest, q', ha, hb⟩

/-- The two removed are the two smallest keys, in order (R135). -/
theorem PopsTwo.smallest {ram : NodeRam} {q rest : List Nat} {a b : Nat} (hq : q.Nodup)
    (h : PopsTwo ram q a b rest) :
    q.Perm (a :: b :: rest) ∧ nodeKey ram a < nodeKey ram b ∧
      ∀ c ∈ rest, nodeKey ram b < nodeKey ram c := by
  obtain ⟨q', ha, hb⟩ := h
  obtain ⟨hperm, hless⟩ := popMin_lt hq ha
  have hq' : q'.Nodup := (List.nodup_cons.mp (hperm.nodup_iff.mp hq)).2
  obtain ⟨hperm', hless'⟩ := popMin_lt hq' hb
  exact ⟨hperm.trans (hperm'.cons a), hless b (hperm'.mem_iff.mpr List.mem_cons_self), hless'⟩

theorem mergeLoop_of_popsTwo {ram : NodeRam} {q rest : List Nat} {a b : Nat} (fuel k : Nat)
    (h : PopsTwo ram q a b rest) :
    mergeLoop (fuel + 1) k ram q =
      mergeLoop fuel (k + 1) (setNode ram (257 + k) (mergeNode ram a b)) ((257 + k) :: rest) := by
  obtain ⟨q', ha, hb⟩ := h
  simp only [mergeLoop, ha, hb]

/-- With one element left the loop is done (R136). -/
theorem mergeLoop_singleton (fuel k : Nat) (ram : NodeRam) (r : Nat) :
    mergeLoop fuel k ram [r] = (ram, [r]) := by
  cases fuel <;> simp [mergeLoop, popMin, minKey]

/-- Settles O19: the two removals of the iteration are `PopsTwo`, and the node written is `mergeNode`. -/
theorem mergeStepTakesTheTwoSmallest : Obligations.MergeStepTakesTheTwoSmallest := by
  intro fuel k ram q hq hlen
  obtain ⟨a, b, rest, hpop⟩ := exists_popsTwo ram hlen
  obtain ⟨hperm, hab, hrest⟩ := hpop.smallest hq
  have hmem : a ∈ q ∧ b ∈ q := by simp [hperm.mem_iff]
  exact ⟨a, b, rest, hperm, keyLt_iff.mpr hab, fun c hc => keyLt_iff.mpr (hrest c hc),
    fun hsmall => ⟨hsmall a hmem.1, hsmall b hmem.2⟩, mergeLoop_of_popsTwo fuel k hpop⟩

end Sys2Proof.Machine
end

section
/-! What the merge loop of `BUILD` starts from: the leaves of the table (R132 step 2, R134) and the sum of
their counts (R140). -/

namespace Sys2Proof.Machine

/-! ### The leaves -/

theorem present_pairwise (f : FreqRam) : (present f).Pairwise (· < ·) :=
  List.pairwise_lt_range.filter _

theorem present_nodup (f : FreqRam) : (present f).Nodup := List.nodup_range.filter _

theorem present_length_le (f : FreqRam) : (present f).length ≤ 257 :=
  (List.length_filter_le _ _).trans_eq List.length_range

theorem eof_mem_present {f : FreqRam} : 256 ∈ present f ↔ freqAt f 256 ≠ 0 := by
  simp [mem_present]

@[simp] theorem leafNode_valid (i : Nat) (c : Word) : (leafNode i c).valid = true := rfl

theorem leafNode_cnt_toNat (i : Nat) (c : Word) : (leafNode i c).cnt.toNat = c.toNat := by
  have hfits : c.toNat < 2 ^ 41 := by omega
  rw [leafNode, BitVec.toNat_setWidth, Nat.mod_eq_of_lt hfits]

/-- R132 step 2, entry by entry. -/
theorem nodeAt_putLeaves (f : FreqRam) (is : List Nat) (ram : NodeRam) (j : Nat)
    (h : ∀ i ∈ is, i < 513) :
    nodeAt (putLeaves f is ram) j = if j ∈ is then leafNode j (freqAt f j) else nodeAt ram j := by
  induction is generalizing ram with
  | nil => simp [putLeaves]
  | cons i is ih =>
    rw [List.forall_mem_cons] at h
    rw [putLeaves, ih _ h.2, nodeAt_setNode _ _ _ _ h.1]
    by_cases hj : j ∈ is
    · simp [hj]
    · by_cases hij : i = j
      · simp [hij]
      · simp [hj, hij, Ne.symm hij]

/-- The node RAM at the start of the merge loop (R132 step 2). -/
def leafRam (f : FreqRam) (ram : NodeRam) : NodeRam := putLeaves f (present f) ram

theorem buildTree_eq (f : FreqRam) (ram : NodeRam) :
    buildTree f ram = mergeLoop 256 0 (leafRam f ram) (present f) := rfl

theorem nodeAt_leafRam (f : FreqRam) (ram : NodeRam) (j : Nat) :
    nodeAt (leafRam f ram) j =
      if j ∈ present f then leafNode j (freqAt f j) else nodeAt ram j :=
  nodeAt_putLeaves f _ ram j fun i hi => by have := (mem_present.mp hi).1; omega

theorem leafRam_valid_iff {f : FreqRam} {ram : NodeRam} (hram : ∀ i, (nodeAt ram i).valid = false)
    {j : Nat} : (nodeAt (leafRam f ram) j).valid = true ↔ j ∈ present f := by
  rw [nodeAt_leafRam]
  split <;> simp [*]

/-! ### The counts -/

/-- The sum of the table (R140). -/
def tableSum (f : FreqRam) : Nat := ((List.range 257).map (fun i => (freqAt f i).toNat)).sum

/-- The sum of the counts in the queue. -/
def queueSum (ram : NodeRam) (q : List Nat) : Nat := (q.map (fun i => (nodeAt ram i).cnt.toNat)).sum

@[simp] theorem queueSum_cons (ram : NodeRam) (c : Nat) (q : List Nat) :
    queueSum ram (c :: q) = (nodeAt ram c).cnt.toNat + queueSum ram q := by simp [queueSum]

theorem queueSum_perm {ram : NodeRam} {q q' : List Nat} (h : q.Perm q') :
    queueSum ram q = queueSum ram q' := (h.map _).sum_eq

theorem queueSum_congr {ram ram' : NodeRam} {q : List Nat}
    (h : ∀ c ∈ q, nodeAt ram c = nodeAt ram' c) : queueSum ram q = queueSum ram' q := by
  rw [queueSum, queueSum, List.map_congr_left fun c hc => by rw [h c hc]]

/-- 257 counts of 32 bits (R140). -/
theorem tableSum_le (f : FreqRam) : tableSum f ≤ 257 * (2 ^ 32 - 1) := by
  have h := List.sum_le_card_nsmul ((List.range 257).map fun i => (freqAt f i).toNat) (2 ^ 32 - 1)
    (by intro x hx; obtain ⟨i, -, rfl⟩ := List.mem_map.mp hx; omega)
  simpa [tableSum] using h

/-- Symbols that are not in the table add nothing to a sum over it. -/
theorem sum_filter_freq (f : FreqRam) (l : List Nat) :
    ((l.filter (fun i => freqAt f i != 0)).map (fun i => (freqAt f i).toNat)).sum =
      (l.map (fun i => (freqAt f i).toNat)).sum := by
  induction l with
  | nil => rfl
  | cons i l ih =>
    by_cases h : freqAt f i = 0
    · rw [List.filter_cons_of_neg (by simp [h]), ih, List.map_cons, List.sum_cons, h]
      exact (Nat.zero_add _).symm
    · rw [List.filter_cons_of_pos (by simpa using h), List.map_cons, List.map_cons, List.sum_cons,
        List.sum_cons, ih]

theorem queueSum_leafRam (f : FreqRam) (ram : NodeRam) :
    queueSum (leafRam f ram) (present f) = tableSum f := by
  rw [tableSum, ← sum_filter_freq, queueSum]
  refine congrArg List.sum (List.map_congr_left fun i hi => ?_)
  rw [nodeAt_leafRam, if_pos hi, leafNode_cnt_toNat]

end Sys2Proof.Machine
end

section
/-! What the merge loop of `BUILD` keeps (R132, R135): the invariant `Forest`, the iteration that keeps it,
and the end of the loop with one element in the queue (R136). -/

namespace Sys2Proof.Machine

/-! ### The invariant -/

/-- Internal node `i` was made by merging `a` and `b` (R135), whose counts were both in the queue. -/
structure MergeOf (f : FreqRam) (ram : NodeRam) (i a b : Nat) : Prop where
  node : nodeAt ram i = mergeNode ram a b
  zeroLt : a < i
  oneLt : b < i
  zeroValid : (nodeAt ram a).valid = true
  oneValid : (nodeAt ram b).valid = true
  distinct : a ≠ b
  weight : (nodeAt ram a).cnt.toNat + (nodeAt ram b).cnt.toNat ≤ tableSum f

/-- What holds after `k` merges over the table `f`, with `q` the roots of the trees made so far. -/
structure Forest (f : FreqRam) (ram : NodeRam) (k : Nat) (q : List Nat) : Prop where
  /-- each merge shortens the queue by one (R136) -/
  merges : k + q.length = (present f).length
  nodup : q.Nodup
  queued : ∀ c ∈ q, (nodeAt ram c).valid = true
  /-- the last node made; leaf 256 before the first merge -/
  newest : 256 + k ∈ q
  leaf : ∀ i, i < 257 → freqAt f i ≠ 0 → nodeAt ram i = leafNode i (freqAt f i)
  noLeaf : ∀ i, i < 257 → freqAt f i = 0 → (nodeAt ram i).valid = false
  internalSlots : ∀ i, 257 ≤ i → ((nodeAt ram i).valid = true ↔ i < 257 + k)
  merged : ∀ i, 257 ≤ i → (nodeAt ram i).valid = true → ∃ a b, MergeOf f ram i a b
  rootless : ∀ c ∈ q, ∀ j, ¬ IsParent ram j c
  oneParent : ∀ i, (nodeAt ram i).valid = true → i ∉ q →
    ∃ j, IsParent ram j i ∧ ∀ j', IsParent ram j' i → j' = j
  total : queueSum ram q = tableSum f

theorem IsParent.valid {ram : NodeRam} {j i : Nat} (h : IsParent ram j i) :
    257 ≤ j ∧ (nodeAt ram j).valid = true := ⟨h.1, h.2.2.1⟩

/-- The loop starts from the leaves alone. -/
theorem forest_leafRam {f : FreqRam} {ram : NodeRam} (hram : ∀ i, (nodeAt ram i).valid = false)
    (heof : freqAt f 256 ≠ 0) : Forest f (leafRam f ram) 0 (present f) where
  merges := Nat.zero_add _
  nodup := present_nodup f
  queued c hc := (leafRam_valid_iff hram).mpr hc
  newest := eof_mem_present.mpr heof
  leaf i hi hfreq := by rw [nodeAt_leafRam, if_pos (mem_present.mpr ⟨hi, hfreq⟩)]
  noLeaf i hi hfreq := by
    rw [nodeAt_leafRam, if_neg fun hmem => (mem_present.mp hmem).2 hfreq, hram]
  internalSlots i hi := by
    rw [leafRam_valid_iff hram, mem_present]
    omega
  merged i hi hv := by
    have := (mem_present.mp ((leafRam_valid_iff hram).mp hv)).1
    omega
  rootless c _ j hj := by
    have hlt := (mem_present.mp ((leafRam_valid_iff hram).mp hj.valid.2)).1
    have hge := hj.valid.1
    omega
  oneParent i hv hi := absurd ((leafRam_valid_iff hram).mp hv) hi
  total := queueSum_leafRam f ram

/-! ### One iteration -/

section Step

variable {f : FreqRam} {ram : NodeRam} {k a b : Nat} {q rest : List Nat}

/-- The 513 entries hold every internal node: at most 257 leaves make at most 256 merges (R136). -/
theorem Forest.merges_lt (hF : Forest f ram k q) : k + q.length ≤ 257 :=
  hF.merges.trans_le (present_length_le f)

theorem Forest.lt_of_valid (hF : Forest f ram k q) {i : Nat} (hv : (nodeAt ram i).valid = true) :
    i < 257 + k := by
  by_cases hi : 257 ≤ i
  · exact (hF.internalSlots i hi).mp hv
  · omega

/-- The node RAM after one iteration (R135). -/
def mergedRam (ram : NodeRam) (k a b : Nat) : NodeRam := setNode ram (257 + k) (mergeNode ram a b)

theorem nodeAt_mergedRam_new (hk : k < 256) :
    nodeAt (mergedRam ram k a b) (257 + k) = mergeNode ram a b := by
  rw [mergedRam, nodeAt_setNode _ _ _ _ (by omega), if_pos rfl]

theorem nodeAt_mergedRam_of_ne (hk : k < 256) {i : Nat} (hi : i ≠ 257 + k) :
    nodeAt (mergedRam ram k a b) i = nodeAt ram i := by
  rw [mergedRam, nodeAt_setNode _ _ _ _ (by omega), if_neg hi.symm]

@[simp] theorem mergeNode_valid : (mergeNode ram a b).valid = true := rfl

theorem mergedRam_valid_iff (hk : k < 256) {i : Nat} :
    (nodeAt (mergedRam ram k a b) i).valid = true ↔ i = 257 + k ∨ (nodeAt ram i).valid = true := by
  by_cases hi : i = 257 + k
  · simp [hi, nodeAt_mergedRam_new hk]
  · simp [hi, nodeAt_mergedRam_of_ne hk hi]

theorem mergeNode_congr {ram' : NodeRam} (ha : nodeAt ram a = nodeAt ram' a)
    (hb : nodeAt ram b = nodeAt ram' b) : mergeNode ram a b = mergeNode ram' a b := by
  rw [mergeNode, mergeNode, ha, hb]

theorem mergeNode_zero (ha : a < 513) : (mergeNode ram a b).zero.toNat = a := by
  rw [mergeNode, BitVec.toNat_ofNat, Nat.mod_eq_of_lt (by omega)]

theorem mergeNode_one (hb : b < 513) : (mergeNode ram a b).one.toNat = b := by
  rw [mergeNode, BitVec.toNat_ofNat, Nat.mod_eq_of_lt (by omega)]

/-- The sum of two counts that are part of the table's sum does not overflow 41 bits (R140). -/
theorem mergeNode_cnt
    (h : (nodeAt ram a).cnt.toNat + (nodeAt ram b).cnt.toNat ≤ tableSum f) :
    (mergeNode ram a b).cnt.toNat = (nodeAt ram a).cnt.toNat + (nodeAt ram b).cnt.toNat := by
  have hsum := tableSum_le f
  rw [mergeNode, BitVec.toNat_add, Nat.mod_eq_of_lt (by omega)]

/-- One iteration adds the new node as the parent of the two removed, and no other parent. -/
theorem isParent_mergedRam_iff (hk : k < 256) (ha : a < 513) (hb : b < 513)
    (hfree : (nodeAt ram (257 + k)).valid = false) {j i : Nat} :
    IsParent (mergedRam ram k a b) j i ↔ (j = 257 + k ∧ (i = a ∨ i = b)) ∨ IsParent ram j i := by
  by_cases hj : j = 257 + k
  · subst hj
    have hslot : 257 + k < 513 := by omega
    simp [IsParent, nodeAt_mergedRam_new hk, mergeNode_zero ha, mergeNode_one hb, hfree, hslot,
      eq_comm (a := i)]
  · simp [IsParent, nodeAt_mergedRam_of_ne hk hj, hj]

theorem MergeOf.zero {i : Nat} (hm : MergeOf f ram i a b) : (nodeAt ram i).zero.toNat = a := by
  rw [hm.node, mergeNode_zero (lt_of_nodeAt_valid hm.zeroValid)]

theorem MergeOf.one {i : Nat} (hm : MergeOf f ram i a b) : (nodeAt ram i).one.toNat = b := by
  rw [hm.node, mergeNode_one (lt_of_nodeAt_valid hm.oneValid)]

/-- A child has a smaller index than its parent, so the newest node is nobody's child. -/
theorem Forest.isParent_lt (hF : Forest f ram k q) {j i : Nat} (hp : IsParent ram j i) :
    i < j ∧ j < 257 + k := by
  obtain ⟨hj, hv⟩ := hp.valid
  obtain ⟨a, b, hm⟩ := hF.merged j hj hv
  have hlt := hF.lt_of_valid hv
  have ha := hm.zeroLt
  have hb := hm.oneLt
  obtain ⟨-, -, -, hchild⟩ := hp
  rw [hm.zero, hm.one] at hchild
  omega

/-- A merge is not touched by a change that keeps every valid node. -/
theorem MergeOf.of_keeps {ram' : NodeRam} {i : Nat}
    (hkeep : ∀ c, (nodeAt ram c).valid = true → nodeAt ram' c = nodeAt ram c)
    (hv : (nodeAt ram i).valid = true) (hm : MergeOf f ram i a b) : MergeOf f ram' i a b where
  node := by
    rw [hkeep i hv, hm.node, mergeNode_congr (hkeep a hm.zeroValid) (hkeep b hm.oneValid)]
  zeroLt := hm.zeroLt
  oneLt := hm.oneLt
  zeroValid := by rw [hkeep a hm.zeroValid, hm.zeroValid]
  oneValid := by rw [hkeep b hm.oneValid, hm.oneValid]
  distinct := hm.distinct
  weight := by rw [hkeep a hm.zeroValid, hkeep b hm.oneValid]; exact hm.weight

theorem Forest.perm (hF : Forest f ram k q) (hpop : PopsTwo ram q a b rest) :
    q.Perm (a :: b :: rest) := (hpop.smallest hF.nodup).1

theorem Forest.mem_iff (hF : Forest f ram k q) (hpop : PopsTwo ram q a b rest) {c : Nat} :
    c ∈ q ↔ c = a ∨ c = b ∨ c ∈ rest := by
  simp [(hF.perm hpop).mem_iff]

/-- There is a slot left for the node of the next merge. -/
theorem Forest.slot_lt (hF : Forest f ram k q) (hpop : PopsTwo ram q a b rest) : k < 256 := by
  have hlen := (hF.perm hpop).length_eq
  have hall := hF.merges_lt
  simp only [List.length_cons] at hlen
  omega

/-- The next slot is free, so writing it keeps every valid node. -/
theorem Forest.keeps (hF : Forest f ram k q) (hk : k < 256) (c : Nat)
    (hv : (nodeAt ram c).valid = true) : nodeAt (mergedRam ram k a b) c = nodeAt ram c :=
  nodeAt_mergedRam_of_ne hk (hF.lt_of_valid hv).ne

theorem Forest.slot_free (hF : Forest f ram k q) : (nodeAt ram (257 + k)).valid = false :=
  Bool.eq_false_of_not_eq_true fun hv => (hF.lt_of_valid hv).ne rfl

/-- The counts of the two removed are part of the table's sum. -/
theorem Forest.queueSum_pops (hF : Forest f ram k q) (hpop : PopsTwo ram q a b rest) :
    (nodeAt ram a).cnt.toNat + (nodeAt ram b).cnt.toNat + queueSum ram rest = tableSum f := by
  rw [← hF.total, queueSum_perm (hF.perm hpop), queueSum_cons, queueSum_cons, Nat.add_assoc]

/-- The node of the next merge is one over the two removed. -/
theorem Forest.mergeOf_new (hF : Forest f ram k q) (hpop : PopsTwo ram q a b rest) :
    MergeOf f (mergedRam ram k a b) (257 + k) a b := by
  have hk := hF.slot_lt hpop
  have hsum := hF.queueSum_pops hpop
  have ha : (nodeAt ram a).valid = true := hF.queued a ((hF.mem_iff hpop).mpr (by simp))
  have hb : (nodeAt ram b).valid = true := hF.queued b ((hF.mem_iff hpop).mpr (by simp))
  have hkeepa := hF.keeps (a := a) (b := b) hk a ha
  have hkeepb := hF.keeps (a := a) (b := b) hk b hb
  refine ⟨?_, hF.lt_of_valid ha, hF.lt_of_valid hb, hkeepa ▸ ha, hkeepb ▸ hb, ?_, ?_⟩
  · rw [nodeAt_mergedRam_new hk, mergeNode_congr hkeepa hkeepb]
  · rintro rfl
    exact absurd (hpop.smallest hF.nodup).2.1 (lt_irrefl _)
  · rw [hkeepa, hkeepb]
    omega

/-- Each node that is in the queue no more has one parent: the two removed have the new node, the others
the parent they had. -/
theorem Forest.oneParent_step (hF : Forest f ram k q) (hpop : PopsTwo ram q a b rest) {i : Nat}
    (hv : (nodeAt (mergedRam ram k a b) i).valid = true) (hi : i ∉ (257 + k) :: rest) :
    ∃ j, IsParent (mergedRam ram k a b) j i ∧
      ∀ j', IsParent (mergedRam ram k a b) j' i → j' = j := by
  have hk := hF.slot_lt hpop
  have hmem : ∀ c, c ∈ q ↔ c = a ∨ c = b ∨ c ∈ rest := fun c => hF.mem_iff hpop
  have ha : a < 513 := lt_of_nodeAt_valid (hF.queued a (by simp [hmem]))
  have hb : b < 513 := lt_of_nodeAt_valid (hF.queued b (by simp [hmem]))
  simp only [isParent_mergedRam_iff hk ha hb hF.slot_free]
  rw [List.mem_cons, not_or] at hi
  by_cases hab : i = a ∨ i = b
  · have hroot : ∀ j, ¬ IsParent ram j i := hF.rootless i (by rw [hmem]; tauto)
    exact ⟨257 + k, .inl ⟨rfl, hab⟩, fun j' hj' => hj'.elim And.left fun h => absurd h (hroot j')⟩
  · have hold : (nodeAt ram i).valid = true := ((mergedRam_valid_iff hk).mp hv).resolve_left hi.1
    obtain ⟨j, hj, huniq⟩ := hF.oneParent i hold (by rw [hmem]; tauto)
    exact ⟨j, .inr hj, fun j' hj' => hj'.elim (fun h => absurd h.2 hab) (huniq j')⟩

theorem Forest.rootless_step (hF : Forest f ram k q) (hpop : PopsTwo ram q a b rest) {c : Nat}
    (hc : c ∈ (257 + k) :: rest) (j : Nat) : ¬ IsParent (mergedRam ram k a b) j c := by
  have hk := hF.slot_lt hpop
  have hmem : ∀ c, c ∈ q ↔ c = a ∨ c = b ∨ c ∈ rest := fun c => hF.mem_iff hpop
  have ha := hF.lt_of_valid (hF.queued a (by simp [hmem]))
  have hb := hF.lt_of_valid (hF.queued b (by simp [hmem]))
  rw [isParent_mergedRam_iff hk (by omega) (by omega) hF.slot_free]
  obtain rfl | hrest := List.mem_cons.mp hc
  · rintro (⟨-, hab⟩ | hp)
    · omega
    · have := hF.isParent_lt hp
      omega
  · rintro (⟨-, hab⟩ | hp)
    · obtain ⟨hanot, hbnot⟩ : a ∉ b :: rest ∧ b ∉ rest := by
        have hnodup := List.nodup_cons.mp ((hF.perm hpop).nodup_iff.mp hF.nodup)
        exact ⟨hnodup.1, (List.nodup_cons.mp hnodup.2).1⟩
      obtain rfl | rfl := hab
      · exact hanot (List.mem_cons_of_mem _ hrest)
      · exact hbnot hrest
    · exact hF.rootless c (by simp [hmem, hrest]) j hp

/-- The new node's count takes the place of the two removed in the sum. -/
theorem Forest.total_step (hF : Forest f ram k q) (hpop : PopsTwo ram q a b rest) :
    queueSum (mergedRam ram k a b) ((257 + k) :: rest) = tableSum f := by
  have hk := hF.slot_lt hpop
  have hsum := hF.queueSum_pops hpop
  have hrest : queueSum (mergedRam ram k a b) rest = queueSum ram rest :=
    queueSum_congr fun c hc =>
      hF.keeps hk c (hF.queued c ((hF.mem_iff hpop).mpr (by simp [hc])))
  rw [queueSum_cons, hrest, nodeAt_mergedRam_new hk, mergeNode_cnt (f := f) (by omega), hsum]

/-- One iteration keeps the invariant (R135). -/
theorem Forest.step (hF : Forest f ram k q) (hpop : PopsTwo ram q a b rest) :
    Forest f (mergedRam ram k a b) (k + 1) ((257 + k) :: rest) := by
  have hk := hF.slot_lt hpop
  have hperm := hF.perm hpop
  have hkeep : ∀ c, (nodeAt ram c).valid = true → nodeAt (mergedRam ram k a b) c = nodeAt ram c :=
    hF.keeps hk
  have hqueued : ∀ c ∈ rest, (nodeAt ram c).valid = true := fun c hc =>
    hF.queued c ((hF.mem_iff hpop).mpr (by simp [hc]))
  exact {
    merges := by
      have hall := hF.merges
      have hlen := hperm.length_eq
      simp only [List.length_cons] at hlen ⊢
      omega
    nodup := by
      have hrest : rest.Nodup := (hperm.nodup_iff.mp hF.nodup).of_cons.of_cons
      exact hrest.cons fun hmem => (hF.lt_of_valid (hqueued _ hmem)).ne rfl
    queued := fun c hc =>
      (mergedRam_valid_iff hk).mpr ((List.mem_cons.mp hc).imp_right (hqueued c))
    newest := by rw [show 256 + (k + 1) = 257 + k by omega]; exact List.mem_cons_self
    leaf := fun i hi hfreq => by
      rw [nodeAt_mergedRam_of_ne hk (by omega), hF.leaf i hi hfreq]
    noLeaf := fun i hi hfreq => by
      rw [nodeAt_mergedRam_of_ne hk (by omega), hF.noLeaf i hi hfreq]
    internalSlots := fun i hi => by
      rw [mergedRam_valid_iff hk, hF.internalSlots i hi]
      omega
    merged := fun i hi hv => by
      obtain rfl | hold := (mergedRam_valid_iff hk).mp hv
      · exact ⟨a, b, hF.mergeOf_new hpop⟩
      · obtain ⟨a', b', hm⟩ := hF.merged i hi hold
        exact ⟨a', b', hm.of_keeps hkeep hold⟩
    rootless := fun c hc => hF.rootless_step hpop hc
    oneParent := fun i => hF.oneParent_step hpop
    total := hF.total_step hpop }

end Step

/-! ### The end of the loop -/

/-- A queue of two or more is merged; a queue of one is the root that was made last (R136). -/
theorem Forest.queue_cases {f : FreqRam} {ram : NodeRam} {k : Nat} {q : List Nat}
    (hF : Forest f ram k q) : q = [256 + k] ∨ ∃ a b rest, PopsTwo ram q a b rest := by
  have hnewest := hF.newest
  match q, hnewest with
  | [c], h => exact .inl (by rw [List.mem_singleton.mp h])
  | _ :: _ :: _, _ => exact .inr (exists_popsTwo ram (by simp))

/-- With fuel for the whole queue the loop ends in one tree, whose root is the last node made (R136). -/
theorem Forest.exists_mergeLoop_eq {f : FreqRam} (fuel : Nat) {ram : NodeRam} {k : Nat} {q : List Nat}
    (hF : Forest f ram k q) (hfuel : q.length ≤ fuel + 1) :
    ∃ ram' k', mergeLoop fuel k ram q = (ram', [256 + k']) ∧ Forest f ram' k' [256 + k'] := by
  induction fuel generalizing ram k q with
  | zero =>
    obtain rfl | ⟨a, b, rest, hpop⟩ := hF.queue_cases
    · exact ⟨ram, k, mergeLoop_singleton _ _ _ _, hF⟩
    · have hlen := (hF.perm hpop).length_eq
      simp only [List.length_cons] at hlen
      omega
  | succ fuel ih =>
    obtain rfl | ⟨a, b, rest, hpop⟩ := hF.queue_cases
    · exact ⟨ram, k, mergeLoop_singleton _ _ _ _, hF⟩
    · have hlen := (hF.perm hpop).length_eq
      simp only [List.length_cons] at hlen
      rw [mergeLoop_of_popsTwo fuel k hpop]
      exact ih (hF.step hpop) (by simp only [List.length_cons]; omega)

theorem buildTree_forest {f : FreqRam} {ram : NodeRam} (hram : ∀ i, (nodeAt ram i).valid = false)
    (heof : freqAt f 256 ≠ 0) :
    ∃ ram' k, buildTree f ram = (ram', [256 + k]) ∧ Forest f ram' k [256 + k] :=
  (forest_leafRam hram heof).exists_mergeLoop_eq 256 (present_length_le f)

end Sys2Proof.Machine
end

section
/-! The tree that `BUILD` makes: what its completion writes (R137), the node counts (R136), the leaves (R134),
the exact counts (R140), that the table alone decides it (R144), and obligations O17, O15, O16, O20, O21. -/

namespace Sys2Proof.Machine

/-! ### One tree -/

section Tree

variable {f : FreqRam} {ram : NodeRam} {k : Nat} {q : List Nat}

theorem Forest.leaf_valid_iff (hF : Forest f ram k q) {i : Nat} (hi : i < 257) :
    (nodeAt ram i).valid = true ↔ freqAt f i ≠ 0 := by
  by_cases hfreq : freqAt f i = 0
  · simp [hF.noLeaf i hi hfreq, hfreq]
  · exact iff_of_true (by rw [hF.leaf i hi hfreq, leafNode_valid]) hfreq

theorem Forest.leaf_of_valid (hF : Forest f ram k q) {i : Nat} (hi : i < 257)
    (hv : (nodeAt ram i).valid = true) : nodeAt ram i = leafNode i (freqAt f i) :=
  hF.leaf i hi ((hF.leaf_valid_iff hi).mp hv)

/-- The valid leaf slots are the symbols of the table (R134). -/
theorem Forest.validLeaves (hF : Forest f ram k q) :
    (List.range 257).filter (fun i => (nodeAt ram i).valid) = present f := by
  refine List.filter_congr fun i hi => ?_
  rw [Bool.eq_iff_iff, hF.leaf_valid_iff (List.mem_range.mp hi), bne_iff_ne]

/-- A merge adds its two counts as numbers (R140). -/
theorem MergeOf.cnt {i a b : Nat} (hm : MergeOf f ram i a b) :
    (nodeAt ram i).cnt.toNat = (nodeAt ram a).cnt.toNat + (nodeAt ram b).cnt.toNat := by
  rw [hm.node, mergeNode_cnt hm.weight]

theorem MergeOf.children_ne {i a b : Nat} (hm : MergeOf f ram i a b) :
    (nodeAt ram i).zero ≠ (nodeAt ram i).one := by
  intro h
  apply hm.distinct
  rw [← hm.zero, ← hm.one, h]

/-- `n` leaves take `n - 1` merges (R136). -/
theorem Forest.merges_of_root (hF : Forest f ram k [256 + k]) : (present f).length = k + 1 :=
  hF.merges.symm

/-- The root is all that is left in the queue, so its count is the table's sum (R140). -/
theorem Forest.root_cnt (hF : Forest f ram k [256 + k]) :
    (nodeAt ram (256 + k)).cnt.toNat = tableSum f := by
  simpa [queueSum] using hF.total

/-- No count of an internal node overflows (R140). -/
theorem Forest.internal_cnt (hF : Forest f ram k q) {i : Nat} (hi : 257 ≤ i)
    (hv : (nodeAt ram i).valid = true) :
    (nodeAt ram i).cnt.toNat = (nodeAt ram (nodeAt ram i).zero.toNat).cnt.toNat +
        (nodeAt ram (nodeAt ram i).one.toNat).cnt.toNat ∧
      (nodeAt ram i).cnt.toNat ≤ 257 * (2 ^ 32 - 1) := by
  obtain ⟨a, b, hm⟩ := hF.merged i hi hv
  rw [hm.zero, hm.one, hm.cnt]
  exact ⟨rfl, hm.weight.trans (tableSum_le f)⟩

/-- A forest of one tree meets the tree invariant (R45). -/
theorem Forest.treeOk (hF : Forest f ram k [256 + k]) (heof : freqAt f 256 ≠ 0) :
    TreeOk ram (256 + k) (k + 1) where
  leafCount := by rw [hF.validLeaves, hF.merges_of_root]
  leafShape i hi hv := by
    rw [hF.leaf_of_valid hi hv]
    exact ⟨rfl, Nat.mod_eq_of_lt (by omega), rfl, rfl⟩
  internalSlots i hi _ := by
    rw [hF.internalSlots i hi]
    omega
  internalShape i hi _ hv := by
    obtain ⟨a, b, hm⟩ := hF.merged i hi hv
    rw [hm.zero, hm.one, hm.node]
    exact ⟨rfl, rfl, rfl⟩
  children i hi _ hv := by
    obtain ⟨a, b, hm⟩ := hF.merged i hi hv
    rw [hm.zero, hm.one]
    exact ⟨hm.zeroLt, hm.zeroValid, hm.oneLt, hm.oneValid, hm.children_ne⟩
  oneParent i _ hv hroot := hF.oneParent i hv (by simpa using hroot)
  rootNoParent := hF.rootless _ List.mem_cons_self
  rootValid := hF.queued _ List.mem_cons_self
  rootIndex := by split <;> omega
  eosLeaf := (hF.leaf_valid_iff (by omega)).mpr heof

end Tree

/-! ### The completion -/

/-- What a successful completion leaves: node RAM `ram`, the tree of `k + 1` leaves with its root made
last (R136, R137). -/
def built (s : State) (ram : NodeRam) (k : Nat) : State :=
  { s with
    node := ram, root := BitVec.ofNat 10 (256 + k), nleaf := BitVec.ofNat 9 (k + 1)
    treeValid := true, active := .idle, done := true }

theorem buildComplete_of_tree {s : State} {ram : NodeRam} {k : Nat} (heof : freqAt s.freq 256 ≠ 0)
    (htree : buildTree s.freq s.node = (ram, [256 + k])) (hn : (present s.freq).length = k + 1) :
    buildComplete s = built s ram k := by
  have hne : present s.freq ≠ [] := List.ne_nil_of_mem (eof_mem_present.mpr heof)
  rw [buildComplete, if_neg hne, if_neg heof, htree, hn]
  rfl

/-- A successful `BUILD`: its table has an entry 256, and no node is valid (R131). -/
structure Buildable (s : State) : Prop where
  active : s.active = .build
  noNodes : ∀ i, (nodeAt s.node i).valid = false
  eof : freqAt s.freq 256 ≠ 0

/-- The turn that completes a successful `BUILD`, with the forest of one tree that it leaves (R137). -/
theorem Buildable.exists_coreStep_eq {s : State} (hs : Buildable s) :
    ∃ ram k, buildTree s.freq s.node = (ram, [256 + k]) ∧ Forest s.freq ram k [256 + k] ∧
      coreStep s = .next (built s ram k) := by
  obtain ⟨ram, k, htree, hF⟩ := buildTree_forest hs.noNodes hs.eof
  refine ⟨ram, k, htree, hF, ?_⟩
  rw [coreStep_of_build hs.active, buildComplete_of_tree hs.eof htree hF.merges_of_root]

section Built

variable {f : FreqRam} {ram : NodeRam} {k : Nat}

theorem Forest.root_toNat (hF : Forest f ram k [256 + k]) :
    (BitVec.ofNat 10 (256 + k)).toNat = 256 + k := by
  have hk := hF.merges_lt
  simp only [List.length_singleton] at hk
  exact Nat.mod_eq_of_lt (by omega)

theorem Forest.nleaf_toNat (hF : Forest f ram k [256 + k]) :
    (BitVec.ofNat 9 (k + 1)).toNat = k + 1 := by
  have hk := hF.merges_lt
  simp only [List.length_singleton] at hk
  exact Nat.mod_eq_of_lt (by omega)

end Built

/-- Settles O17: the loop ends in a forest of one tree, which meets the tree invariant. -/
theorem buildMakesTheTree : Obligations.BuildMakesTheTree := by
  intro s hactive hnone heof
  obtain ⟨ram, k, -, hF, hstep⟩ := Buildable.exists_coreStep_eq ⟨hactive, hnone, heof⟩
  refine ⟨ram, _, _, hstep, ?_⟩
  rw [hF.root_toNat, hF.nleaf_toNat]
  exact hF.treeOk heof

/-- Settles O15: the counts are those of the tree invariant, with `n = k + 1` after `k` merges. -/
theorem buildNodeCounts : Obligations.BuildNodeCounts := by
  intro s n hactive hnone heof hn
  obtain ⟨ram, k, htree, hF, hstep⟩ := Buildable.exists_coreStep_eq ⟨hactive, hnone, heof⟩
  obtain rfl : n = k + 1 := hn.trans hF.merges_of_root
  have hok := hF.treeOk heof
  have hroot : (built s ram k).root.toNat = 256 + k := hF.root_toNat
  refine ⟨by rw [htree]; rfl, _, hstep, hF.nleaf_toNat, ?_, ?_, hok.leafCount, hok.internalSlots⟩
  · omega
  · omega

/-- Settles O16: the merges leave every leaf slot as step 2 of R132 wrote it. -/
theorem buildLeavesAreTheTable : Obligations.BuildLeavesAreTheTable := by
  intro s hactive hnone heof
  obtain ⟨ram, k, -, hF, hstep⟩ := Buildable.exists_coreStep_eq ⟨hactive, hnone, heof⟩
  exact ⟨present_pairwise s.freq, _, hstep, fun i hi => ⟨hF.leaf i hi, hF.noLeaf i hi⟩⟩

/-- Settles O20: the sum over the queue stays that of the table, so the root has it and no merge exceeds
it. -/
theorem buildCountsAreExact : Obligations.BuildCountsAreExact := by
  intro s hactive hnone heof
  obtain ⟨ram, k, -, hF, hstep⟩ := Buildable.exists_coreStep_eq ⟨hactive, hnone, heof⟩
  have hroot : (built s ram k).root.toNat = 256 + k := hF.root_toNat
  refine ⟨_, hstep, ?_, fun i hi hv => congrArg Node.cnt (hF.leaf_of_valid hi hv),
    fun i hi _ hv => hF.internal_cnt hi hv⟩
  rw [hroot]
  exact hF.root_cnt

/-! ### Two node RAMs -/

/-- Two node RAMs have the same tree: the same valid entries, with the same nodes in them. -/
def SameNodes (ram ram' : NodeRam) : Prop :=
  ∀ i, (nodeAt ram i).valid = (nodeAt ram' i).valid ∧
    ((nodeAt ram i).valid = true → nodeAt ram i = nodeAt ram' i)

theorem sameNodes_leafRam (f : FreqRam) {ram ram' : NodeRam}
    (hram : ∀ i, (nodeAt ram i).valid = false) (hram' : ∀ i, (nodeAt ram' i).valid = false) :
    SameNodes (leafRam f ram) (leafRam f ram') := by
  intro i
  rw [nodeAt_leafRam, nodeAt_leafRam]
  split
  · exact ⟨rfl, fun _ => rfl⟩
  · simp [hram, hram']

theorem keyLt_congr {ram ram' : NodeRam} {a b : Nat} (ha : nodeAt ram a = nodeAt ram' a)
    (hb : nodeAt ram b = nodeAt ram' b) : keyLt ram a b = keyLt ram' a b := by
  rw [keyLt, keyLt, ha, hb]

/-- The smallest key depends on the counts of the queue alone (R133). -/
theorem minKey_congr {ram ram' : NodeRam} {a : Nat} {q : List Nat}
    (h : ∀ c ∈ a :: q, nodeAt ram c = nodeAt ram' c) : minKey ram a q = minKey ram' a q := by
  induction q generalizing a with
  | nil => rfl
  | cons b q ih =>
    simp only [List.forall_mem_cons] at h ih
    obtain ⟨ha, hb, hq⟩ := h
    rw [minKey, minKey, keyLt_congr hb ha]
    split
    · exact ih ⟨hb, hq⟩
    · exact ih ⟨ha, hq⟩

theorem popMin_congr {ram ram' : NodeRam} {q : List Nat}
    (h : ∀ c ∈ q, nodeAt ram c = nodeAt ram' c) : popMin ram q = popMin ram' q := by
  cases q with
  | nil => rfl
  | cons a q => rw [popMin, popMin, minKey_congr h]

theorem PopsTwo.congr {ram ram' : NodeRam} {q rest : List Nat} {a b : Nat}
    (h : ∀ c ∈ q, nodeAt ram c = nodeAt ram' c) (hpop : PopsTwo ram q a b rest) :
    PopsTwo ram' q a b rest := by
  obtain ⟨q', ha, hb⟩ := hpop
  obtain ⟨-, hq', -⟩ := popMin_spec ha
  have h' : ∀ c ∈ q', nodeAt ram c = nodeAt ram' c := fun c hc =>
    h c (List.mem_of_mem_erase (hq' ▸ hc))
  exact ⟨q', popMin_congr h ▸ ha, popMin_congr h' ▸ hb⟩

theorem SameNodes.merge {ram ram' : NodeRam} {k a b : Nat} (h : SameNodes ram ram')
    (hk : k < 256) (ha : (nodeAt ram a).valid = true) (hb : (nodeAt ram b).valid = true) :
    SameNodes (mergedRam ram k a b) (mergedRam ram' k a b) := by
  intro i
  by_cases hi : i = 257 + k
  · rw [hi, nodeAt_mergedRam_new hk, nodeAt_mergedRam_new hk, mergeNode_congr ((h a).2 ha) ((h b).2 hb)]
    exact ⟨rfl, fun _ => rfl⟩
  · rw [nodeAt_mergedRam_of_ne hk hi, nodeAt_mergedRam_of_ne hk hi]
    exact h i

/-- Over two node RAMs with the same tree the loop makes the same merges (R144). -/
theorem SameNodes.mergeLoop_eq {f : FreqRam} (fuel : Nat) {ram ram' : NodeRam} {k : Nat} {q : List Nat}
    (hF : Forest f ram k q) (h : SameNodes ram ram') :
    (mergeLoop fuel k ram q).2 = (mergeLoop fuel k ram' q).2 ∧
      SameNodes (mergeLoop fuel k ram q).1 (mergeLoop fuel k ram' q).1 := by
  induction fuel generalizing ram ram' k q with
  | zero => exact ⟨rfl, h⟩
  | succ fuel ih =>
    obtain rfl | ⟨a, b, rest, hpop⟩ := hF.queue_cases
    · rw [mergeLoop_singleton, mergeLoop_singleton]
      exact ⟨rfl, h⟩
    · have hpop' : PopsTwo ram' q a b rest := hpop.congr fun c hc => (h c).2 (hF.queued c hc)
      rw [mergeLoop_of_popsTwo fuel k hpop, mergeLoop_of_popsTwo fuel k hpop']
      exact ih (hF.step hpop) (h.merge (hF.slot_lt hpop)
        (hF.queued a ((hF.mem_iff hpop).mpr (by simp)))
        (hF.queued b ((hF.mem_iff hpop).mpr (by simp))))

theorem buildTree_sameNodes {f : FreqRam} {ram ram' : NodeRam}
    (hram : ∀ i, (nodeAt ram i).valid = false) (hram' : ∀ i, (nodeAt ram' i).valid = false)
    (heof : freqAt f 256 ≠ 0) :
    (buildTree f ram).2 = (buildTree f ram').2 ∧
      SameNodes (buildTree f ram).1 (buildTree f ram').1 :=
  (sameNodes_leafRam f hram hram').mergeLoop_eq 256 (forest_leafRam hram heof)

/-- Settles O21: both loops start from the same leaves, so they make the same merges. -/
theorem buildIsAFunctionOfTheTable : Obligations.BuildIsAFunctionOfTheTable := by
  intro s s' hactive hactive' hnone hnone' heof hfreq
  obtain ⟨ram, k, htree, -, hstep⟩ := Buildable.exists_coreStep_eq ⟨hactive, hnone, heof⟩
  obtain ⟨ram', k', htree', -, hstep'⟩ := Buildable.exists_coreStep_eq ⟨hactive', hnone', hfreq ▸ heof⟩
  obtain ⟨hqueue, hnodes⟩ := buildTree_sameNodes hnone hnone' heof
  rw [← hfreq] at htree'
  rw [htree, htree'] at hqueue hnodes
  obtain rfl : k = k' := by simpa using hqueue
  exact ⟨_, _, hstep, hstep', rfl, rfl, hnodes⟩

end Sys2Proof.Machine
end

section
/-! The paths of a tree (R154): what `follow` reaches from a valid node, how long a path can be (R155), and
that every valid node is reached from the root along exactly one path (R45). -/

namespace Sys2Proof.Machine

/-! ### `follow` in any node RAM -/

/-- The child of node `i` that bit `b` selects (R154). -/
def childAt (ram : NodeRam) (i : Nat) (b : Bool) : Nat :=
  if b then (nodeAt ram i).one.toNat else (nodeAt ram i).zero.toNat

@[simp] theorem follow_nil (ram : NodeRam) (i : Nat) : follow ram i [] = some i := rfl

theorem follow_cons (ram : NodeRam) (i : Nat) (b : Bool) (p : Bits) :
    follow ram i (b :: p) =
      if (nodeAt ram i).sym = 257#9 then follow ram (childAt ram i b) p else none := rfl

theorem follow_cons_eq_some {ram : NodeRam} {i j : Nat} {b : Bool} {p : Bits} :
    follow ram i (b :: p) = some j ↔
      (nodeAt ram i).sym = 257#9 ∧ follow ram (childAt ram i b) p = some j := by
  rw [follow_cons]
  split <;> simp [*]

theorem follow_append (ram : NodeRam) (i : Nat) (p q : Bits) :
    follow ram i (p ++ q) = (follow ram i p).bind (follow ram · q) := by
  induction p generalizing i with
  | nil => rfl
  | cons b p ih =>
    rw [List.cons_append, follow_cons, follow_cons]
    split
    · exact ih _
    · rfl

theorem follow_append_of_eq_some {ram : NodeRam} {i j : Nat} {p : Bits} (h : follow ram i p = some j)
    (q : Bits) : follow ram i (p ++ q) = follow ram j q := by
  rw [follow_append, h, Option.bind_some]

/-- A path that ends with bit `b` leaves an internal node by that bit. -/
theorem follow_concat_eq_some {ram : NodeRam} {i j : Nat} {b : Bool} {p : Bits} :
    follow ram i (p ++ [b]) = some j ↔
      ∃ k, follow ram i p = some k ∧ (nodeAt ram k).sym = 257#9 ∧ childAt ram k b = j := by
  simp [follow_append, Option.bind_eq_some_iff, follow_cons_eq_some]

/-! ### One tree -/

section Tree

variable {ram : NodeRam} {root nleaf i j : Nat} {p q : Bits}

/-- A leaf has its own number as symbol, so only an internal node carries the marker (R45). -/
theorem TreeOk.sym_eq_marker_iff (h : TreeOk ram root nleaf) (hv : (nodeAt ram i).valid = true) :
    (nodeAt ram i).sym = 257#9 ↔ 257 ≤ i := by
  refine ⟨fun hsym => ?_, fun hi => ?_⟩
  · by_contra hi
    obtain ⟨-, hnum, -⟩ := h.leafShape i (by omega) hv
    rw [hsym, BitVec.toNat_ofNat] at hnum
    omega
  · obtain ⟨-, hsym, -⟩ := h.internalShape i hi (lt_of_nodeAt_valid hv) hv
    exact hsym

/-- Both children are valid nodes with smaller indices (R45). -/
theorem TreeOk.childAt_spec (h : TreeOk ram root nleaf) (hv : (nodeAt ram i).valid = true)
    (hi : 257 ≤ i) (b : Bool) : childAt ram i b < i ∧ (nodeAt ram (childAt ram i b)).valid = true := by
  obtain ⟨hzero, hzeroValid, hone, honeValid, -⟩ := h.children i hi (lt_of_nodeAt_valid hv) hv
  cases b
  · exact ⟨hzero, hzeroValid⟩
  · exact ⟨hone, honeValid⟩

/-- The two children are distinct (R45). -/
theorem TreeOk.childAt_inj (h : TreeOk ram root nleaf) (hv : (nodeAt ram i).valid = true)
    (hi : 257 ≤ i) {b c : Bool} (hbc : childAt ram i b = childAt ram i c) : b = c := by
  obtain ⟨-, -, -, -, hne⟩ := h.children i hi (lt_of_nodeAt_valid hv) hv
  have hne : (nodeAt ram i).zero.toNat ≠ (nodeAt ram i).one.toNat := mt BitVec.eq_of_toNat_eq hne
  match b, c, hbc with
  | false, false, _ => rfl
  | true, true, _ => rfl
  | false, true, heq => exact absurd heq hne
  | true, false, heq => exact absurd heq.symm hne

theorem isParent_iff_childAt {k : Nat} :
    IsParent ram k i ↔
      (257 ≤ k ∧ k < 513 ∧ (nodeAt ram k).valid = true) ∧ ∃ b, childAt ram k b = i := by
  simp [IsParent, childAt, and_assoc]

theorem TreeOk.valid_of_follow (h : TreeOk ram root nleaf) (hv : (nodeAt ram i).valid = true)
    (hf : follow ram i p = some j) : (nodeAt ram j).valid = true := by
  induction p generalizing i with
  | nil => rwa [← Option.some.inj hf]
  | cons b p ih =>
    obtain ⟨hsym, hf⟩ := follow_cons_eq_some.mp hf
    exact ih (h.childAt_spec hv ((h.sym_eq_marker_iff hv).mp hsym) b).2 hf

/-- Indices decrease along a path, and every step leaves an internal node: at most `i - 256` steps. -/
theorem TreeOk.length_le_of_follow (h : TreeOk ram root nleaf) (hv : (nodeAt ram i).valid = true)
    (hf : follow ram i p = some j) : p.length ≤ i - 256 := by
  induction p generalizing i with
  | nil => exact Nat.zero_le _
  | cons b p ih =>
    obtain ⟨hsym, hf⟩ := follow_cons_eq_some.mp hf
    have hi := (h.sym_eq_marker_iff hv).mp hsym
    obtain ⟨hlt, hvalid⟩ := h.childAt_spec hv hi b
    have htail := ih hvalid hf
    rw [List.length_cons]
    omega

/-- No path leaves a leaf. -/
theorem TreeOk.follow_leaf (h : TreeOk ram root nleaf) (hv : (nodeAt ram i).valid = true)
    (hi : i < 257) (hf : follow ram i p = some j) : p = [] ∧ i = j := by
  have hlen := h.length_le_of_follow hv hf
  obtain rfl : p = [] := List.eq_nil_of_length_eq_zero (by omega)
  exact ⟨rfl, Option.some.inj hf⟩

/-- The last step of a path from the root goes from the end node's parent (R45). -/
theorem TreeOk.exists_parent_of_follow_concat (h : TreeOk ram root nleaf) {b : Bool}
    (hf : follow ram root (p ++ [b]) = some j) :
    ∃ k, follow ram root p = some k ∧ IsParent ram k j ∧ childAt ram k b = j := by
  obtain ⟨k, hk, hsym, hchild⟩ := follow_concat_eq_some.mp hf
  have hv := h.valid_of_follow h.rootValid hk
  exact ⟨k, hk, isParent_iff_childAt.mpr
    ⟨⟨(h.sym_eq_marker_iff hv).mp hsym, lt_of_nodeAt_valid hv, hv⟩, b, hchild⟩, hchild⟩

/-- Two parents of one node are the same (R45). -/
theorem TreeOk.parent_unique (h : TreeOk ram root nleaf) {k k' : Nat} (hk : IsParent ram k i)
    (hk' : IsParent ram k' i) : k = k' := by
  have hi : i ≠ root := fun he => h.rootNoParent k (he ▸ hk)
  obtain ⟨⟨hge, -, hvk⟩, b, rfl⟩ := isParent_iff_childAt.mp hk
  obtain ⟨-, hv⟩ := h.childAt_spec hvk hge b
  obtain ⟨_, -, hunique⟩ := h.oneParent _ (lt_of_nodeAt_valid hv) hv hi
  exact (hunique k hk).trans (hunique k' hk').symm

/-- The root has no parent and every other node one, so paths from the root to one node agree from their
last step on. -/
theorem TreeOk.path_unique (h : TreeOk ram root nleaf) (hp : follow ram root p = some i)
    (hq : follow ram root q = some i) : p = q := by
  induction p using List.reverseRecOn generalizing q i with
  | nil =>
    obtain rfl := Option.some.inj hp
    obtain rfl | ⟨q, c, rfl⟩ := List.eq_nil_or_concat' q
    · rfl
    · obtain ⟨k, -, hk, -⟩ := h.exists_parent_of_follow_concat hq
      exact absurd hk (h.rootNoParent k)
  | append_singleton p b ih =>
    obtain ⟨k, hpk, hk, hb⟩ := h.exists_parent_of_follow_concat hp
    obtain rfl | ⟨q, c, rfl⟩ := List.eq_nil_or_concat' q
    · obtain rfl := Option.some.inj hq
      exact absurd hk (h.rootNoParent k)
    · obtain ⟨k', hqk, hk', hc⟩ := h.exists_parent_of_follow_concat hq
      obtain rfl := h.parent_unique hk hk'
      obtain ⟨⟨hge, -, hv⟩, -⟩ := isParent_iff_childAt.mp hk
      rw [ih hpk hqk, h.childAt_inj hv hge (hb.trans hc.symm)]

/-- Parents have larger indices, so the climb from any valid node ends at the root. -/
theorem TreeOk.exists_path (h : TreeOk ram root nleaf) {i : Nat} (hv : (nodeAt ram i).valid = true) :
    ∃ p, follow ram root p = some i := by
  by_cases hi : i = root
  · exact ⟨[], congrArg some hi.symm⟩
  · obtain ⟨k, hk, -⟩ := h.oneParent i (lt_of_nodeAt_valid hv) hv hi
    obtain ⟨⟨hge, hlt, hvk⟩, b, hb⟩ := isParent_iff_childAt.mp hk
    have hup : i < k := hb ▸ (h.childAt_spec hvk hge b).1
    obtain ⟨p, hp⟩ := h.exists_path hvk
    exact ⟨p ++ [b], follow_concat_eq_some.mpr ⟨k, hp, (h.sym_eq_marker_iff hvk).mpr hge, hb⟩⟩
termination_by 513 - i

/-- A tree has a leaf, leaf 256 (R45). -/
theorem TreeOk.nleaf_pos (h : TreeOk ram root nleaf) : 0 < nleaf := by
  have hmem : 256 ∈ (List.range 257).filter (fun i => (nodeAt ram i).valid) := by
    simp [h.eosLeaf]
  exact h.leafCount ▸ List.length_pos_of_mem hmem

/-- No node is deeper than `NLEAF - 1` (R155). -/
theorem TreeOk.length_lt_nleaf (h : TreeOk ram root nleaf) (hf : follow ram root p = some i) :
    p.length < nleaf := by
  have hlen := h.length_le_of_follow h.rootValid hf
  have hpos := h.nleaf_pos
  have hroot := h.rootIndex
  split at hroot <;> omega

/-- The bound of R156 on the depth: the 513 entries hold at most 257 leaves. -/
theorem TreeOk.length_le_256 (h : TreeOk ram root nleaf) (hf : follow ram root p = some i) :
    p.length ≤ 256 := by
  have hlen := h.length_le_of_follow h.rootValid hf
  have hroot := lt_of_nodeAt_valid h.rootValid
  omega

/-- No path to a leaf goes on to another leaf. -/
theorem TreeOk.eq_of_path_prefix (h : TreeOk ram root nleaf) (hi : i < 257)
    (hp : follow ram root p = some i) (hq : follow ram root q = some j) (hpq : p <+: q) : i = j := by
  obtain ⟨r, rfl⟩ := hpq
  rw [follow_append_of_eq_some hp] at hq
  exact (h.follow_leaf (h.valid_of_follow h.rootValid hp) hi hq).2

end Tree

end Sys2Proof.Machine
end

section
/-! The walk of `GENMAP` over a tree (R152): the entry of a path as a code string, what a walk from an inner
node writes and keeps, and the map that the whole walk makes. -/

namespace Sys2Proof.Machine

/-! ### The entry of a path -/

theorem getLsbD_pathBits {p : Bits} (hp : p.length ≤ 256) (j : Nat) :
    (pathBits p).getLsbD j = p.getD j false := by
  rw [pathBits, BitVec.getLsbD_setWidth, BitVec.getLsbD_ofBoolListLE]
  by_cases hj : j < 256
  · simp [hj]
  · simp [hj, List.getElem?_eq_none (hp.trans (not_lt.mp hj))]

@[simp] theorem pathEntry_valid (p : Bits) : (pathEntry p).valid = true := rfl

theorem pathEntry_len {p : Bits} (hp : p.length ≤ 256) : (pathEntry p).len.toNat = p.length :=
  Nat.mod_eq_of_lt (by omega)

/-- The bits past a path are 0 (R152, R156). -/
theorem getLsbD_pathEntry_bits_past {p : Bits} (hp : p.length ≤ 256) {j : Nat} (hj : p.length ≤ j) :
    (pathEntry p).bits.getLsbD j = false := by
  rw [pathEntry, getLsbD_pathBits hp, List.getD_eq_default _ _ hj]

/-- The code string of a path's entry is the path (R152, R172). -/
theorem codeString_pathEntry {p : Bits} (hp : p.length ≤ 256) : codeString (pathEntry p) = p := by
  have hlen : (codeString (pathEntry p)).length = p.length := by
    rw [codeString_length, pathEntry_len hp]
  refine List.ext_getElem hlen fun j _ hj => ?_
  rw [← List.getD_eq_getElem p false hj, ← getLsbD_pathBits hp]
  simp [codeString, pathEntry]

/-! ### The walk -/

/-- A walk from the node at path `p` that turns `rom` into `rom'` has written the entry of every leaf
below that node, each under its path from the root, and no other entry (R152, R154). -/
structure WritesLeavesBelow (ram : NodeRam) (root : Nat) (p : Bits) (rom rom' : CodeRom) : Prop where
  written : ∀ q x, p <+: q → x < 257 → follow ram root q = some x → codeAt rom' x = pathEntry q
  kept : ∀ x, (∀ q, p <+: q → follow ram root q ≠ some x) → codeAt rom' x = codeAt rom x

section Walk

variable {ram : NodeRam} {root nleaf i : Nat} {p : Bits} {rom rom₁ rom₂ : CodeRom}

theorem TreeOk.walk_leaf (h : TreeOk ram root nleaf) (hv : (nodeAt ram i).valid = true) (hi : i < 257)
    (room : Nat) (p : Bits) (rom : CodeRom) :
    walk ram (room + 1) i p rom = some (setCode rom i (pathEntry p)) := by
  have hsym : ¬ (nodeAt ram i).sym = 257#9 := by rw [h.sym_eq_marker_iff hv]; omega
  obtain ⟨-, hnum, -⟩ := h.leafShape i hi hv
  rw [walk, if_neg (by omega), if_pos hsym, hnum, if_neg (by omega)]

theorem TreeOk.walk_internal (h : TreeOk ram root nleaf) (hv : (nodeAt ram i).valid = true)
    (hi : 257 ≤ i) (room : Nat) (p : Bits) (rom : CodeRom) :
    walk ram (room + 1) i p rom =
      (walk ram room (childAt ram i false) (p ++ [false]) rom).bind
        (walk ram room (childAt ram i true) (p ++ [true])) := by
  have hlt := lt_of_nodeAt_valid hv
  have hsym := (h.sym_eq_marker_iff hv).mpr hi
  have hzero : (nodeAt ram i).zero.toNat = childAt ram i false := rfl
  have hone : (nodeAt ram i).one.toNat = childAt ram i true := rfl
  rw [walk, if_neg (by omega), if_neg (not_not.mpr hsym), hzero, hone]
  cases walk ram room (childAt ram i false) (p ++ [false]) rom <;> rfl

theorem TreeOk.writesLeavesBelow_leaf (h : TreeOk ram root nleaf) (hp : follow ram root p = some i)
    (hi : i < 257) : WritesLeavesBelow ram root p rom (setCode rom i (pathEntry p)) where
  written := by
    rintro q x hpq - hq
    obtain rfl := h.eq_of_path_prefix hi hp hq hpq
    rw [codeAt_setCode _ _ _ _ hi, if_pos rfl, h.path_unique hq hp]
  kept x hx := by
    have hix : i ≠ x := fun he => hx p List.prefix_rfl (he ▸ hp)
    rw [codeAt_setCode _ _ _ _ hi, if_neg hix]

/-- The leaves below an internal node are those below its two children. No leaf is below both, so the
walk of the `ONE` side keeps what the walk of the `ZERO` side wrote (R154). -/
theorem TreeOk.writesLeavesBelow_internal (h : TreeOk ram root nleaf) (hp : follow ram root p = some i)
    (hi : 257 ≤ i) (hzero : WritesLeavesBelow ram root (p ++ [false]) rom rom₁)
    (hone : WritesLeavesBelow ram root (p ++ [true]) rom₁ rom₂) :
    WritesLeavesBelow ram root p rom rom₂ where
  written := by
    rintro q x ⟨r, rfl⟩ hx hq
    match r with
    | [] =>
      rw [List.append_nil, hp] at hq
      obtain rfl := Option.some.inj hq
      omega
    | true :: r => exact hone.written _ x ⟨r, by simp⟩ hx hq
    | false :: r =>
      rw [hone.kept x, hzero.written _ x ⟨r, by simp⟩ hx hq]
      rintro _ ⟨r', rfl⟩ hq'
      have hsame := h.path_unique hq hq'
      simp at hsame
  kept x hx := by
    rw [hone.kept x fun q hq => hx q ((List.prefix_append _ _).trans hq),
      hzero.kept x fun q hq => hx q ((List.prefix_append _ _).trans hq)]

/-- With room for the paths below it, a walk over a tree has an answer (R152, R156). -/
theorem TreeOk.exists_walk_eq (h : TreeOk ram root nleaf) (room : Nat) (hp : follow ram root p = some i)
    (hroom : i - 256 < room) :
    ∃ rom', walk ram room i p rom = some rom' ∧ WritesLeavesBelow ram root p rom rom' := by
  induction room generalizing i p rom with
  | zero => omega
  | succ room ih =>
    have hv := h.valid_of_follow h.rootValid hp
    by_cases hi : i < 257
    · exact ⟨_, h.walk_leaf hv hi room p rom, h.writesLeavesBelow_leaf hp hi⟩
    · have hi : 257 ≤ i := not_lt.mp hi
      have hchild (b : Bool) : follow ram root (p ++ [b]) = some (childAt ram i b) :=
        follow_concat_eq_some.mpr ⟨i, hp, (h.sym_eq_marker_iff hv).mpr hi, rfl⟩
      have hfits (b : Bool) : childAt ram i b - 256 < room := by
        have hlt := (h.childAt_spec hv hi b).1
        replace hroom : i - 256 ≤ room := Nat.le_of_lt_succ hroom
        omega
      obtain ⟨rom₁, hwalk₁, hzero⟩ := ih (rom := rom) (hchild false) (hfits false)
      obtain ⟨rom₂, hwalk₂, hone⟩ := ih (rom := rom₁) (hchild true) (hfits true)
      refine ⟨rom₂, ?_, h.writesLeavesBelow_internal hp hi hzero hone⟩
      rw [h.walk_internal hv hi, hwalk₁, Option.bind_some, hwalk₂]

end Walk

/-! ### The map of a tree -/

/-- `rom` is the map of the tree at `root`: the entry of a leaf's symbol is its path, and every other
entry is {0, 0, 0} (R153, R154). -/
structure MapOfTree (ram : NodeRam) (root : Nat) (rom : CodeRom) : Prop where
  leaf : ∀ x p, x < 257 → follow ram root p = some x → codeAt rom x = pathEntry p
  noLeaf : ∀ x, (nodeAt ram x).valid = false → codeAt rom x = noCode

/-- Over a tree the walk from the root, with its 257 levels, makes the map of the tree (R152, R156). -/
theorem TreeOk.exists_genMap_eq {ram : NodeRam} {root nleaf : Nat} (h : TreeOk ram root nleaf) :
    ∃ rom, genMap ram root = some rom ∧ MapOfTree ram root rom := by
  have hroot := lt_of_nodeAt_valid h.rootValid
  obtain ⟨rom, hwalk, hrom⟩ :=
    h.exists_walk_eq (rom := emptyCode) 257 (follow_nil ram root) (by omega)
  refine ⟨rom, hwalk, fun x p hx hp => hrom.written p x List.nil_prefix hx hp, fun x hx => ?_⟩
  rw [hrom.kept x, codeAt_emptyCode]
  intro q _ hq
  have hv := h.valid_of_follow h.rootValid hq
  rw [hx] at hv
  contradiction

section Map

variable {ram : NodeRam} {root nleaf x : Nat} {rom : CodeRom}

theorem MapOfTree.exists_path (hmap : MapOfTree ram root rom) (h : TreeOk ram root nleaf)
    (hx : x < 257) (hv : (nodeAt ram x).valid = true) :
    ∃ p, follow ram root p = some x ∧ codeAt rom x = pathEntry p ∧ p.length ≤ 256 := by
  obtain ⟨p, hp⟩ := h.exists_path hv
  exact ⟨p, hp, hmap.leaf x p hx hp, h.length_le_256 hp⟩

/-- Exactly the leaf symbols have a code (R153). -/
theorem MapOfTree.valid_eq (hmap : MapOfTree ram root rom) (h : TreeOk ram root nleaf) (hx : x < 257) :
    (codeAt rom x).valid = (nodeAt ram x).valid := by
  cases hv : (nodeAt ram x).valid with
  | false => rw [hmap.noLeaf x hv, noCode]
  | true =>
    obtain ⟨p, -, hcode, -⟩ := hmap.exists_path h hx hv
    rw [hcode, pathEntry_valid]

/-- The entry of a valid code is that of the path to the symbol's leaf (R154). -/
theorem MapOfTree.exists_path_of_code (hmap : MapOfTree ram root rom) (h : TreeOk ram root nleaf)
    (hx : x < 257) (hv : (codeAt rom x).valid = true) :
    ∃ p, follow ram root p = some x ∧ codeAt rom x = pathEntry p ∧ p.length ≤ 256 :=
  hmap.exists_path h hx ((hmap.valid_eq h hx).symm.trans hv)

/-- R154: the code of a leaf symbol leads from the root to its leaf. -/
theorem MapOfTree.follow_codeString (hmap : MapOfTree ram root rom) (h : TreeOk ram root nleaf)
    (hx : x < 257) (hv : (nodeAt ram x).valid = true) :
    follow ram root (codeString (codeAt rom x)) = some x := by
  obtain ⟨p, hp, hcode, hlen⟩ := hmap.exists_path h hx hv
  rwa [hcode, codeString_pathEntry hlen]

/-- The map of a tree meets the map invariant (R46): a code that begins another would be a path through
a leaf (R157). -/
theorem MapOfTree.mapOk (hmap : MapOfTree ram root rom) (h : TreeOk ram root nleaf) : MapOk rom where
  codeShape x hx hv := by
    obtain ⟨p, -, hcode, hlen⟩ := hmap.exists_path_of_code h hx hv
    rw [hcode, pathEntry_len hlen]
    exact ⟨hlen, fun j hj => getLsbD_pathEntry_bits_past hlen hj⟩
  noCodeShape x hx hv := hmap.noLeaf x ((hmap.valid_eq h hx).symm.trans hv)
  prefixFree a b ha hb hne hva hvb hprefix := by
    rw [hmap.valid_eq h ha] at hva
    rw [hmap.valid_eq h hb] at hvb
    exact hne (h.eq_of_path_prefix ha (hmap.follow_codeString h ha hva)
      (hmap.follow_codeString h hb hvb) hprefix)
  eosCode := (hmap.valid_eq h (by omega)).trans h.eosLeaf

end Map

end Sys2Proof.Machine
end

section
/-! `GENMAP` (R151, R152): its acceptance, its completion over a tree, and obligations O27, O25, O26, O24. -/

namespace Sys2Proof.Machine

/-! ### The completion -/

theorem coreStep_of_genmap {s : State} (h : s.active = .genmap) : coreStep s = genmapComplete s := by
  simp only [coreStep, h]

theorem genmapComplete_of_eq_some {s : State} {rom : CodeRom}
    (h : genMap s.node s.root.toNat = some rom) :
    genmapComplete s = .next { s with code := rom, mapValid := true, active := .idle, done := true } := by
  rw [genmapComplete, h]
  rfl

/-- The code ROM of a completion is the map that the walk makes (R152). -/
theorem genMap_eq_code_of_coreStep {s t : State} (hactive : s.active = .genmap)
    (hstep : coreStep s = .next t) : genMap s.node s.root.toNat = some t.code := by
  rw [coreStep_of_genmap hactive] at hstep
  cases hmap : genMap s.node s.root.toNat with
  | none => simp [genmapComplete, hmap] at hstep
  | some rom =>
    rw [genmapComplete_of_eq_some hmap] at hstep
    cases hstep
    rfl

/-- Over a tree the completion writes the map of that tree, and sets the flags that R152 names. -/
theorem exists_coreStep_eq_of_genmap {s : State} {nleaf : Nat} (hactive : s.active = .genmap)
    (h : TreeOk s.node s.root.toNat nleaf) :
    ∃ rom, coreStep s =
        .next { s with code := rom, mapValid := true, active := .idle, done := true } ∧
      MapOfTree s.node s.root.toNat rom := by
  obtain ⟨rom, hgen, hmap⟩ := h.exists_genMap_eq
  exact ⟨rom, by rw [coreStep_of_genmap hactive, genmapComplete_of_eq_some hgen], hmap⟩

/-- Settles O27: the completion writes the map of the tree, which meets the map invariant. -/
theorem mapIsPrefixFree : Obligations.MapIsPrefixFree := by
  intro s hactive h
  obtain ⟨rom, hstep, hmap⟩ := exists_coreStep_eq_of_genmap hactive h
  exact ⟨_, hstep, hmap.mapOk h⟩

/-- Settles O25: the code of a leaf symbol is a path to its leaf, and the tree has no second one. -/
theorem genmapRecordsEveryLeaf : Obligations.GenmapRecordsEveryLeaf := by
  intro s hactive h
  obtain ⟨rom, hstep, hmap⟩ := exists_coreStep_eq_of_genmap hactive h
  refine ⟨rom, hstep, fun x hx => ⟨hmap.valid_eq h hx, hmap.noLeaf x, fun hv => ?_⟩⟩
  have hcode := hmap.follow_codeString h hx hv
  exact ⟨hcode, fun p hp => h.path_unique hp hcode⟩

/-- The map of a one-leaf tree has the empty code for leaf 256, its root (R155). -/
theorem MapOfTree.codeAt_eos_of_one_leaf {ram : NodeRam} {root : Nat} {rom : CodeRom}
    (hmap : MapOfTree ram root rom) (h : TreeOk ram root 1) :
    codeAt rom 256 = { valid := true, len := 0, bits := 0 } := by
  have hroot : root = 256 := h.rootIndex
  rw [hmap.leaf 256 [] (by omega) (congrArg some hroot)]
  rfl

/-- Settles O26: the length of a code is that of the path to its leaf, which the number of leaves and the
number of entries bound. -/
theorem codeLengthsAreBounded : Obligations.CodeLengthsAreBounded := by
  intro s hactive h
  obtain ⟨rom, hstep, hmap⟩ := exists_coreStep_eq_of_genmap hactive h
  refine ⟨_, hstep, fun x hx hv => ?_, fun hone => ?_⟩
  · obtain ⟨p, hp, hcode, hlen⟩ := hmap.exists_path_of_code h hx hv
    simp only [hcode, pathEntry_len hlen]
    exact ⟨h.length_lt_nleaf hp, hlen, ⟨p, hp, rfl⟩,
      fun j hj => getLsbD_pathEntry_bits_past hlen hj⟩
  · have heos := hmap.codeAt_eos_of_one_leaf (hone ▸ h)
    refine ⟨heos, ?_⟩
    rw [encodedBits, heos]
    rfl

/-! ### Acceptance -/

/-- R151 with a tree. -/
theorem genmapAccepted_of_tree {s : State} (htree : s.treeValid = true) :
    genmapAccepted s = { s with mapValid := false, active := .genmap } := by
  rw [genmapAccepted, if_pos htree]

/-- Settles O24: acceptance is that of R100, and the map depends on the node RAM and the root alone. -/
theorem genmapAcceptance : Obligations.GenmapAcceptance := by
  refine ⟨rfl, turnedAway_of_exec_eq_accept exec_genmap, fun s hs =>
    ⟨exec_genmap_of_no_tree hs, fun htree => ?_⟩,
    fun s s' t t' hactive hactive' hnode hroot hstep hstep' => ?_⟩
  · rw [exec_genmap, accept_of_accepts hs, genmapAccepted_of_tree (s := { s with done := false }) htree]
  · have hcode := genMap_eq_code_of_coreStep hactive hstep
    have hcode' := genMap_eq_code_of_coreStep hactive' hstep'
    rw [hnode, hroot] at hcode
    exact Option.some.inj (hcode.symm.trans hcode')

end Sys2Proof.Machine
end

section
/-! The encoder (43_encoder): `ENC_START` (R171), taking `END` (R173), putting a byte (R174, R175), the step a
session selects, and obligations O28, O30, O31. -/

namespace Sys2Proof.Machine

/-! ### `ENC_START` -/

theorem exec_encStart (s : State) :
    exec .encStart s = .next (accept 0x0004#16 encStartAccepted s) := rfl

/-- R171 with no map. -/
theorem encStartAccepted_of_no_map {s : State} (herr : s.errCode = 0) (hmap : s.mapValid = false) :
    encStartAccepted s = { s with errCode := 0x04#8, errInfo := 0x0004#16 } := by
  rw [encStartAccepted, if_neg (ne_true_of_eq_false hmap), raise_of_no_err herr, ErrCause.code]

/-- R171 with a map; the tree is not asked for. -/
theorem encStartAccepted_of_map {s : State} (hmap : s.mapValid = true) :
    encStartAccepted s =
      { s with
        encBitCnt := 0, encSymCnt := 0, eSink := s.ctrl.getLsbD 0, eOrd := s.ctrl.getLsbD 1
        ebuf := [], efin := false, active := .encode } := by
  rw [encStartAccepted, if_pos hmap, sinkEn, bitOrd]

/-- Settles O28: acceptance is that of R100, and the command's own part looks at `MAP_VALID` alone. -/
theorem encStartOpensASession : Obligations.EncStartOpensASession := by
  refine ⟨rfl, turnedAway_of_exec_eq_accept exec_encStart, fun s hs => ⟨fun hmap => ?_, fun hmap => ?_⟩⟩
  · rw [exec_encStart, accept_of_accepts hs,
      encStartAccepted_of_no_map (s := { s with done := false }) hs.1 hmap]
  · rw [exec_encStart, accept_of_accepts hs,
      encStartAccepted_of_map (s := { s with done := false }) hmap]

/-! ### The step a session selects -/

theorem fullByteReady_iff {s : State} :
    fullByteReady s = true ↔ s.active = .encode ∧ s.eSink = true ∧ 8 ≤ s.ebuf.length := by
  simp [fullByteReady, and_assoc]

theorem lastByteReady_iff {s : State} :
    lastByteReady s = true ↔
      s.active = .encode ∧ s.eSink = true ∧ s.efin = true ∧ 0 < s.ebuf.length ∧ s.ebuf.length < 8 := by
  simp [lastByteReady, and_assoc]

/-- A byte that can be put is put before anything else (R174, R175). -/
theorem encodeStep_of_byteReady {s : State} (h : fullByteReady s = true ∨ lastByteReady s = true) :
    encodeStep s = some (.boutByte (packedByte s)) := by
  rw [encodeStep, if_pos (Bool.or_eq_true_iff.mpr h)]

/-- After `END` the session puts bytes and closes, and does nothing else (R183). -/
theorem encodeStep_of_efin {s : State} (h : s.efin = true) :
    encodeStep s = some (.boutByte (packedByte s)) ∨ encodeStep s = some .boutEnd ∨
      encodeStep s = none := by
  rw [encodeStep, if_pos h]
  split
  · exact .inl rfl
  · split
    · exact .inr (.inl rfl)
    · exact .inr (.inr rfl)

/-! ### Taking `END` -/

theorem takeSin_of_cons {s : State} {it : Item} {rest : List Item} (h : s.sin = it :: rest) :
    takeSin s = { s with sin := rest } := by
  rw [takeSin, h, List.tail_cons]

/-- R173, whatever the `DATA` of the `END` holds (R85). -/
theorem exec_sinEnd_of_takes {s : State} {it : Item} {rest : List Item} (htakes : encTakes s = true)
    (hsin : s.sin = it :: rest) (hend : itemEnd it = true) :
    exec .sinEnd s = .next { appendCode 256 { s with sin := rest } with efin := true } := by
  have hhead : sinHeadIsEnd s = true := sinHeadIsEnd_iff.mpr ⟨it, rest, hsin, hend⟩
  rw [← takeSin_of_cons hsin]
  exact congrArg Host.Outcome.next (if_pos (Bool.and_eq_true_iff.mpr ⟨htakes, hhead⟩))

/-- Settles O30: the take step is enabled, and with `EFIN` set the selected step is a put or none. -/
theorem encoderTakesTheEnd : Obligations.EncoderTakesTheEnd := by
  refine ⟨fun s it rest hactive hefin hroom hsin hend => ?_, fun u hefin => ?_⟩
  · rw [exec_sinEnd_of_takes (encTakes_iff.mpr ⟨hactive, hefin, hroom⟩) hsin hend, appendCode]
  · obtain hstep | hstep | hstep := encodeStep_of_efin hefin <;> simp [hstep]

/-! ### Putting a byte -/

/-- The put step is enabled for the byte the packer computes and takes its bits out of `EBUF`
(R174, R175). -/
theorem exec_boutByte_of_byteReady {s : State} (h : fullByteReady s = true ∨ lastByteReady s = true)
    (hroom : canAccept s.chDepth s.bout = true) :
    exec (.boutByte (packedByte s)) s =
      .next { s with bout := s.bout ++ [byteItem (packedByte s)], ebuf := s.ebuf.drop 8 } := by
  have henabled : ((fullByteReady s || lastByteReady s) && canAccept s.chDepth s.bout &&
      packedByte s == packedByte s) = true := by
    simp [h, hroom]
  exact congrArg Host.Outcome.next (if_pos henabled)

/-- The packer pads with zeros by itself (R89): zeros written behind the string change nothing. -/
theorem pack_append_zeros (b : Bits) (n : Nat) (ord : Bool) :
    pack (b ++ List.replicate n false) ord = pack b ord := by
  have hbit : ∀ k, (b ++ List.replicate n false).getD k false = b.getD k false := by
    intro k
    obtain hk | hk := Nat.lt_or_ge k b.length
    · exact List.getD_append _ _ _ _ hk
    · rw [List.getD_append_right _ _ _ _ hk, List.getD_eq_default _ _ hk]
      exact List.getElem?_getD_replicate_default_eq _ _ _
  simp only [pack, hbit]

/-- Settles O31: in both cases a byte is ready, so it is the packer's byte that is put; fewer than 8 bits
are all taken. -/
theorem encoderPutsBytes : Obligations.EncoderPutsBytes := by
  refine ⟨fun s hactive hsink hfull => ?_, fun s hactive hsink hefin hsome hshort hroom v hv => ?_⟩
  · have hready : fullByteReady s = true := fullByteReady_iff.mpr ⟨hactive, hsink, hfull⟩
    exact ⟨encodeStep_of_byteReady (.inl hready), exec_boutByte_of_byteReady (.inl hready)⟩
  · have hready : lastByteReady s = true :=
      lastByteReady_iff.mpr ⟨hactive, hsink, hefin, hsome, hshort⟩
    have hbyte : v = packedByte s := by
      rw [hv, pack_append_zeros, packedByte, List.take_of_length_le hshort.le]
    rw [hbyte, exec_boutByte_of_byteReady (.inr hready) hroom, List.drop_of_length_le hshort.le]

end Sys2Proof.Machine
end

section
/-! The decoder (44_decoder): `DEC_START` (R201), the step a session selects (R202), the steps R203, R205 and
R206, and obligations O34, O35, O36, O38 and O40. -/

namespace Sys2Proof.Machine

/-! ### `DEC_START` -/

/-- R201 with a tree; the map is not asked for. -/
theorem decStartAccepted_of_tree {s : State} (htree : s.treeValid = true) :
    decStartAccepted s =
      { s with
        decBitCnt := 0, decSymCnt := 0, dOrd := s.ctrl.getLsbD 1
        dbuf := [], decCur := s.root, active := .decode } := by
  rw [decStartAccepted, if_pos htree, bitOrd]

theorem exec_decStart_of_tree {s : State} (hs : Accepts s) (htree : s.treeValid = true) :
    exec .decStart s =
      .next { s with
        done := false, decBitCnt := 0, decSymCnt := 0, dOrd := s.ctrl.getLsbD 1
        dbuf := [], decCur := s.root, active := .decode } := by
  rw [exec_decStart, accept_of_accepts hs,
    decStartAccepted_of_tree (s := { s with done := false }) htree]

/-- Settles O34: acceptance is that of R100, and the command's own part looks at `TREE_VALID` alone. -/
theorem decStartOpensASession : Obligations.DecStartOpensASession :=
  ⟨rfl, turnedAway_of_exec_eq_accept exec_decStart, fun _ hs =>
    ⟨exec_decStart_of_no_tree hs, exec_decStart_of_tree hs⟩⟩

/-! ### The nodes a session meets -/

section Tree

variable {ram : NodeRam} {root nleaf i : Nat}

/-- A valid leaf slot holds the leaf of its own number (R134). -/
theorem TreeOk.sym_toNat_of_leaf (h : TreeOk ram root nleaf) (hv : (nodeAt ram i).valid = true)
    (hi : i < 257) : (nodeAt ram i).sym.toNat = i := by
  obtain ⟨-, hsym, -⟩ := h.leafShape i hi hv
  exact hsym

/-- The three kinds of node that R202 tells apart: the end-of-stream leaf, an ordinary leaf, an internal
node. -/
theorem TreeOk.sym_cases (h : TreeOk ram root nleaf) (hv : (nodeAt ram i).valid = true) :
    (nodeAt ram i).sym = 256#9 ∨ (nodeAt ram i).sym.toNat < 256 ∨ (nodeAt ram i).sym = 257#9 := by
  obtain hi | hi := Nat.lt_or_ge i 257
  · have hsym := h.sym_toNat_of_leaf hv hi
    obtain heos | hbyte : i = 256 ∨ i < 256 := by omega
    · exact .inl (BitVec.eq_of_toNat_eq (hsym.trans heos))
    · exact .inr (.inl (hsym.trans_lt hbyte))
  · exact .inr (.inr ((h.sym_eq_marker_iff hv).mpr hi))

/-- The root is the end-of-stream leaf or an internal node, since leaf 256 is in the tree (R207). -/
theorem TreeOk.le_sym_root (h : TreeOk ram root nleaf) : 256 ≤ (nodeAt ram root).sym.toNat := by
  have hroot : 256 ≤ root := by
    have hpos := h.nleaf_pos
    have hindex := h.rootIndex
    split at hindex <;> omega
  obtain hleaf | hinternal := Nat.lt_or_ge root 257
  · rwa [h.sym_toNat_of_leaf h.rootValid hleaf]
  · rw [(h.sym_eq_marker_iff h.rootValid).mpr hinternal]
    decide

end Tree

/-! ### The step a session selects (R202) -/

section Selection

variable {s : State}

theorem decodeStep_of_eos (hcur : s.decCur.toNat ≤ 512) (hsym : (curNode s).sym = 256#9) :
    decodeStep s = .channel .soutEnd := by
  rw [decodeStep, if_neg (Nat.not_lt.mpr hcur), if_pos hsym]

theorem decodeStep_of_symbol (hcur : s.decCur.toNat ≤ 512) (hsym : (curNode s).sym.toNat < 256) :
    decodeStep s = .channel (.soutByte (leafByte s)) := by
  have heos : (curNode s).sym ≠ 256#9 := fun h => by simp [h] at hsym
  rw [decodeStep, if_neg (Nat.not_lt.mpr hcur), if_neg heos, if_pos hsym]

theorem decodeStep_of_bit {b : Bool} {rest : Bits} (hcur : s.decCur.toNat ≤ 512)
    (hsym : (curNode s).sym = 257#9) (hbuf : s.dbuf = b :: rest) : decodeStep s = .bit := by
  simp [decodeStep, Nat.not_lt.mpr hcur, hsym, hbuf]

theorem decodeStep_of_no_item (hcur : s.decCur.toNat ≤ 512) (hsym : (curNode s).sym = 257#9)
    (hbuf : s.dbuf = []) (hbin : s.bin = []) : decodeStep s = .wait := by
  simp [decodeStep, Nat.not_lt.mpr hcur, hsym, hbuf, hbin]

theorem decodeStep_of_item {it : Item} {rest : List Item} (hcur : s.decCur.toNat ≤ 512)
    (hsym : (curNode s).sym = 257#9) (hbuf : s.dbuf = []) (hbin : s.bin = it :: rest) :
    decodeStep s = .channel (decodeItem .bin it) := by
  simp [decodeStep, Nat.not_lt.mpr hcur, hsym, hbuf, hbin]

end Selection

/-- Settles O35: the node at `DEC_CUR` is a valid node of the tree, so one of three kinds; `DBUF` and the
head of `BIN` tell the steps at an internal node apart. -/
theorem decodeStepSelection : Obligations.DecodeStepSelection := by
  intro s hinv hactive
  obtain ⟨htree, hv⟩ := hinv.decoding hactive
  have hcur : s.decCur.toNat ≤ 512 := Nat.le_of_lt_succ (lt_of_nodeAt_valid hv)
  refine ⟨hv, ?_⟩
  obtain heos | hbyte | hinternal := (hinv.tree htree).sym_cases hv
  · exact .inl ⟨heos, decodeStep_of_eos hcur heos⟩
  · exact .inr (.inl ⟨hbyte, decodeStep_of_symbol hcur hbyte⟩)
  · cases hbuf : s.dbuf with
    | nil =>
      exact .inr (.inr (.inl ⟨hinternal, rfl, decodeStep_of_no_item hcur hinternal hbuf,
        fun _ _ => decodeStep_of_item hcur hinternal hbuf⟩))
    | cons b rest =>
      exact .inr (.inr (.inr ⟨hinternal, List.cons_ne_nil b rest,
        decodeStep_of_bit hcur hinternal hbuf⟩))

/-! ### The steps -/

theorem coreStep_of_channel {s : State} {i : Instr} (hactive : s.active = .decode)
    (hstep : decodeStep s = .channel i) : coreStep s = exec i s := by
  simp only [coreStep, hactive, hstep]

theorem coreStep_of_bit {s : State} (hactive : s.active = .decode) (hstep : decodeStep s = .bit) :
    coreStep s = .next (consumeBit s) := by
  simp only [coreStep, hactive, hstep]

theorem atSymbol_iff {s : State} :
    atSymbol s = true ↔ s.active = .decode ∧ (curNode s).sym.toNat < 256 := by
  simp [atSymbol]

theorem atEos_iff {s : State} : atEos s = true ↔ s.active = .decode ∧ (curNode s).sym = 256#9 := by
  simp [atEos]

@[simp] theorem byteItem_toNat (v : Byte) : (byteItem v).toNat = v.toNat := by
  rw [byteItem, BitVec.toNat_append, BitVec.toNat_ofNat, Nat.zero_mod, Nat.zero_shiftLeft, Nat.zero_or]

/-- R203: the put of the leaf's byte is the one enabled step. -/
theorem exec_soutByte_of_symbol {s : State} (hsymbol : atSymbol s = true)
    (hroom : canAccept s.chDepth s.sout = true) :
    exec (.soutByte (leafByte s)) s =
      .next { s with
        sout := s.sout ++ [byteItem (leafByte s)], decSymCnt := s.decSymCnt + 1, decCur := s.root } := by
  have henabled : (atSymbol s && canAccept s.chDepth s.sout && leafByte s == leafByte s) = true := by
    simp [hsymbol, hroom]
  exact congrArg Host.Outcome.next (if_pos henabled)

/-- R205. -/
theorem consumeBit_of_cons {s : State} {b : Bool} {rest : Bits} (hinternal : atInternal s = true)
    (hbuf : s.dbuf = b :: rest) :
    consumeBit s =
      { s with
        dbuf := rest, decBitCnt := s.decBitCnt + 1
        decCur := if b then (curNode s).one else (curNode s).zero } := by
  simp only [consumeBit, hbuf, hinternal, if_true]

/-- R206, R209: the session completes and the bits left are discarded. -/
theorem exec_soutEnd_of_eos {s : State} (heos : atEos s = true)
    (hroom : canAccept s.chDepth s.sout = true) :
    exec .soutEnd s =
      .next { s with sout := s.sout ++ [endItem], dbuf := [], active := .idle, done := true } :=
  congrArg Host.Outcome.next (if_pos (Bool.and_eq_true_iff.mpr ⟨heos, hroom⟩))

/-- Settles O36: a node whose `SYM` is a byte item is an ordinary leaf that holds that byte. -/
theorem decoderEmitsASymbol : Obligations.DecoderEmitsASymbol := by
  intro s v hactive hsym hroom
  have hsym : (curNode s).sym = byteItem v := hsym
  have hbyte : leafByte s = v := (congrArg itemData hsym).trans (itemData_byteItem v)
  have hsymbol : atSymbol s = true :=
    atSymbol_iff.mpr ⟨hactive, by rw [hsym, byteItem_toNat]; exact v.isLt⟩
  rw [← hbyte]
  exact exec_soutByte_of_symbol hsymbol hroom

/-- Settles O38: the selected step is the bit step, and it is enabled. -/
theorem decoderConsumesABit : Obligations.DecoderConsumesABit := by
  intro s b rest hactive hcur hsym hbuf
  rw [coreStep_of_bit hactive (decodeStep_of_bit hcur hsym hbuf),
    consumeBit_of_cons (atInternal_iff.mpr ⟨hactive, hsym⟩) hbuf]
  cases b <;> rfl

/-! ### A root that is a leaf (R207) -/

/-- A session that stands at the end-of-stream leaf completes in one turn of the core. -/
theorem coreStep_of_eos {s : State} (hactive : s.active = .decode) (hcur : s.decCur.toNat ≤ 512)
    (hsym : (curNode s).sym = 256#9) (hroom : canAccept s.chDepth s.sout = true) :
    coreStep s =
      .next { s with sout := s.sout ++ [endItem], dbuf := [], active := .idle, done := true } := by
  rw [coreStep_of_channel hactive (decodeStep_of_eos hcur hsym)]
  exact exec_soutEnd_of_eos (atEos_iff.mpr ⟨hactive, hsym⟩) hroom

/-- Settles O40: `DEC_START` leaves the session at the root, and root 256 is the end-of-stream leaf. -/
theorem rootLeafDecodesToNothing : Obligations.RootLeafDecodesToNothing := by
  intro s hinv hs htree
  have htreeOk := hinv.tree htree
  refine ⟨htreeOk.le_sym_root, fun hroot hroom => ?_⟩
  have hindex : s.root.toNat = 256 := congrArg BitVec.toNat hroot
  have hsym : (nodeAt s.node s.root.toNat).sym = 256#9 :=
    BitVec.eq_of_toNat_eq ((htreeOk.sym_toNat_of_leaf htreeOk.rootValid (by omega)).trans hindex)
  exact ⟨_, _, exec_decStart_of_tree hs htree, coreStep_of_eos rfl (by simp [hindex]) hsym hroom,
    rfl, rfl, rfl, rfl, rfl, rfl, hroot⟩

end Sys2Proof.Machine
end

section
/-! The error record (60_exceptions): what `raise` writes when an error stands already (R252), `ERR` after it,
and obligation O6. -/

namespace Sys2Proof.Machine

/-- With an error recorded, `raise` sets `EMULT` and keeps the record of the first error (R252). -/
theorem raise_of_err {e : ErrCause} {info : BitVec 16} {s : State} (h : s.errCode ≠ 0) :
    raise e info s = { s with emult := true } := by
  simp only [raise, if_neg h]

/-- No cause has the code 0, which means "no error" (R250). -/
theorem ErrCause.code_ne_zero (e : ErrCause) : e.code ≠ 0 := by
  cases e <;> decide

/-- `ERR` = 1 after every `raise`: the code recorded is the cause's own or the one that stood before. -/
theorem err_raise (e : ErrCause) (info : BitVec 16) (s : State) : err (raise e info s) = true := by
  rw [err_eq_true]
  by_cases h : s.errCode = 0
  · rw [raise_of_no_err h]
    exact e.code_ne_zero
  · rw [raise_of_err h]
    exact h

/-- Settles O6: the two cases of `raise`, `ERR` as `ERRCODE ≠ 0`, and the codes of R250 by the table. -/
theorem raiseKeepsTheFirstError : Obligations.RaiseKeepsTheFirstError := fun e info s =>
  ⟨raise_of_no_err, raise_of_err, err_eq_true, err_raise e info s,
    rfl, rfl, rfl, rfl, rfl, rfl, rfl, rfl, rfl⟩

end Sys2Proof.Machine
end

section
/-! Reset (70_reset_and_hazards): the step it takes, the `STATUS` word where no flag stands (R25), and
obligation O51. -/

namespace Sys2Proof.Machine

/-- A move the host can make now is made by this very step. -/
theorem step_of_hostReady {s : State} {m : HostMove} {rest : List HostMove}
    (hagenda : s.agenda = m :: rest) (hready : hostReady m s = true) :
    step s = hostMove m { s with agenda := rest } := by
  simp only [step, machineStep, hagenda, if_pos hready]

/-- Reset is possible at any time (R235), so it is never put off. -/
theorem step_of_reset {s : State} {a b c d : Bool} {rest : List HostMove}
    (hagenda : s.agenda = .reset a b c d :: rest) :
    step s = .next (resetMove a b c d { s with agenda := rest }) :=
  step_of_hostReady hagenda rfl

/-- The `STATUS` word of an idle machine with no tree, no map, nothing done and no error (R25). -/
theorem statusWord_of_clear {s : State} (hidle : s.active = .idle) (htree : s.treeValid = false)
    (hmap : s.mapValid = false) (hdone : s.done = false) (herr : s.errCode = 0)
    (hemult : s.emult = false) : statusWord s = 0 := by
  rw [statusWord, busy_eq_false.mpr hidle, err_eq_false.mpr herr, hidle, htree, hmap, hdone, hemult]
  rfl

section ResetMove
variable (a b c d : Bool) (s : State)

/-- No flag survives reset (R281). -/
theorem statusWord_resetMove : statusWord (resetMove a b c d s) = 0 :=
  statusWord_of_clear rfl rfl rfl rfl rfl rfl

/-- The interrupt is low after reset, whatever raised it before (R44, R281). -/
theorem irq_resetMove : irq (resetMove a b c d s) = false :=
  irq_eq_false_of_not_done_of_no_err rfl rfl

end ResetMove

/-- Settles O51: the step is the reset move, which writes every stored item literally; the two computed
ones are `STATUS` and `irq`. -/
theorem resetValues : Obligations.ResetValues := by
  intro s a b c d rest hagenda
  have hstatus := statusWord_resetMove a b c d { s with agenda := rest }
  have hirq := irq_resetMove a b c d { s with agenda := rest }
  exact ⟨_, step_of_reset hagenda,
    rfl, rfl, rfl, hstatus, rfl, rfl, rfl, rfl, rfl, rfl, rfl,
    rfl, rfl, rfl, rfl, rfl,
    rfl, rfl, rfl, rfl, rfl, rfl, hirq,
    rfl, rfl, rfl, rfl⟩

end Sys2Proof.Machine
end

section
/-! The encodings (20_memory, 30_encoding): the offset of a register and back, command words, items, register
bytes, and obligations O1, O2 and O3. -/

namespace Sys2Proof

/-! ### Offsets -/

/-- The register map is read back at every offset it gives (R62). -/
@[simp] theorem ofOffset_offset (r : Reg) : Reg.ofOffset r.offset = some r := by
  cases r with
  | codeBits k => revert k; decide
  | _ => rfl

/-- No two offsets name one register (R62). -/
theorem eq_offset_of_ofOffset {off : Offset} {r : Reg} (h : Reg.ofOffset off = some r) :
    off = r.offset := by
  unfold Reg.ofOffset at h
  split at h <;> cases h <;> exact BitVec.eq_of_toNat_eq ‹_›

/-! ### Command words -/

/-- A word with `MBZ` = 0 is the command word of its opcode (R80). -/
theorem eq_commandWord {w : Word} {op : Byte} (hmbz : w.extractLsb' 8 24 = 0#24)
    (hop : (w.extractLsb' 0 8).toNat = op.toNat) : w = commandWord op := by
  rw [commandWord, ← hmbz, ← BitVec.eq_of_toNat_eq hop]
  exact (BitVec.extractLsb'_append_extractLsb' (x := w) (len := 8)).symm

/-- A command word that decodes is that of its command (R81), which is well formed. -/
theorem encode_of_decodeCommand {w : Word} {i : Instr} (h : decodeCommand w = .ok i) :
    encode i = .busWrite 0x008#12 w ∧ WellFormed i = true := by
  unfold decodeCommand at h
  split at h
  · cases h
  · have hmbz := not_not.mp ‹_›
    split at h <;> cases h <;>
      exact ⟨congrArg (Signal.busWrite _) (eq_commandWord hmbz ‹_›).symm, rfl⟩

/-- A write that decodes is the encoding of its instruction (R62). -/
theorem encode_of_decodeWrite {off : Offset} {v : Word} {i : Instr} (h : decodeWrite off v = .ok i) :
    encode i = .busWrite off v ∧ WellFormed i = true := by
  cases hreg : Reg.ofOffset off with
  | none => simp [decodeWrite, hreg] at h
  | some r =>
    rw [eq_offset_of_ofOffset hreg]
    simp only [decodeWrite, hreg] at h
    cases r with
    | cmd => exact encode_of_decodeCommand h
    | ctrl => cases h; exact ⟨rfl, rfl⟩
    | freqIdx => cases h; exact ⟨rfl, rfl⟩
    | freqData => cases h; exact ⟨rfl, rfl⟩
    | nodeIdx => cases h; exact ⟨rfl, rfl⟩
    | codeIdx => cases h; exact ⟨rfl, rfl⟩
    | _ => cases h

theorem encode_of_decodeRead {off : Offset} {i : Instr} (h : decodeRead off = .ok i) :
    encode i = .busRead off ∧ WellFormed i = true := by
  unfold decodeRead at h
  split at h
  · split at h <;> cases h
    exact ⟨congrArg Signal.busRead (eq_offset_of_ofOffset ‹_›).symm, ‹_›⟩
  · cases h

/-! ### Items -/

/-- An item with `END` = 0 is `BYTE` of its `DATA` (R85). -/
theorem byteItem_itemData {it : Item} (h : itemEnd it = false) : byteItem (itemData it) = it := by
  have htop : it.extractLsb' 8 1 = 0#1 := by
    refine BitVec.eq_of_getLsbD_eq fun j hj => ?_
    rw [BitVec.getLsbD_extractLsb', Nat.lt_one_iff.mp hj]
    simpa [itemEnd] using h
  rw [byteItem, ← htop]
  exact BitVec.extractLsb'_append_extractLsb' (x := it) (len := 8)

theorem encode_decodeItem_of_byte {it : Item} (h : itemEnd it = false) (ch : Channel) :
    encode (decodeItem ch it) = .item ch it := by
  rw [decodeItem.eq_def, h]
  cases ch <;> exact congrArg _ (byteItem_itemData h)

theorem encode_decodeItem_of_end {it : Item} (h : itemEnd it = true) (ch : Channel) :
    encode (decodeItem ch it) = .item ch endItem := by
  rw [decodeItem.eq_def, h]
  cases ch <;> rfl

theorem wellFormed_decodeItem (ch : Channel) (it : Item) : WellFormed (decodeItem ch it) = true := by
  rw [decodeItem.eq_def]
  cases ch <;> cases itemEnd it <;> rfl

/-! ### The two directions -/

/-- Settles O2: each of the three tables decodes only what its own encoder writes; the `DATA` of an `END` is
the one thing that is lost. -/
theorem encodeOfDecode : Obligations.EncodeOfDecode := by
  intro sig i h
  cases sig with
  | busWrite off v =>
    obtain ⟨henc, hwf⟩ := encode_of_decodeWrite h
    exact ⟨hwf, .inl henc⟩
  | busRead off =>
    obtain ⟨henc, hwf⟩ := encode_of_decodeRead h
    exact ⟨hwf, .inl henc⟩
  | item ch it =>
    cases h
    refine ⟨wellFormed_decodeItem ch it, ?_⟩
    cases hend : itemEnd it with
    | false => exact .inl (encode_decodeItem_of_byte hend ch)
    | true => exact .inr ⟨ch, it, rfl, hend, encode_decodeItem_of_end hend ch⟩

/-- Settles O1: commands and register writes decode by computation; an item by its `END` bit and its `DATA`;
a window read by the offset of its register. -/
theorem decodeOfEncode : Obligations.DecodeOfEncode := by
  intro i hwf
  cases i with
  | sinByte v => simp [encode, decode, decodeItem]
  | binByte v => simp [encode, decode, decodeItem]
  | boutByte v => simp [encode, decode, decodeItem]
  | soutByte v => simp [encode, decode, decodeItem]
  | rdWindow r =>
    have hwindow : r.isWindow = true := hwf
    simp [encode, decode, decodeRead, hwindow]
  | _ => rfl

/-! ### Register bytes -/

/-- The bytes of a register stand from the low end on: little-endian (R64). -/
theorem byteOfWord_wordOfBytes (b0 b1 b2 b3 : Byte) {k : Nat} (hk : k < 4) :
    byteOfWord (wordOfBytes b0 b1 b2 b3) k = [b0, b1, b2, b3].getD k 0 := by
  rw [byteOfWord, wordOfBytes]
  interval_cases k
  · exact BitVec.extractLsb'_append_eq_right
  · rw [BitVec.extractLsb'_append_eq_of_le (by decide)]
    exact BitVec.extractLsb'_append_eq_right
  · rw [BitVec.extractLsb'_append_eq_of_le (by decide), BitVec.extractLsb'_append_eq_of_le (by decide)]
    exact BitVec.extractLsb'_append_eq_right
  · rw [BitVec.extractLsb'_append_eq_of_le (by decide), BitVec.extractLsb'_append_eq_of_le (by decide),
      BitVec.extractLsb'_append_eq_of_le (by decide)]
    exact BitVec.extractLsb'_eq_self

theorem getLsbD_byteOfWord (w : Word) (k : Nat) {j : Nat} (hj : j < 8) :
    (byteOfWord w k).getLsbD j = w.getLsbD (8 * k + j) := by
  simp [byteOfWord, hj]

/-- Settles O3: the words are evaluated, and a bit of a byte is a bit of the word it is cut from. -/
theorem specWordsDecode : Obligations.SpecWordsDecode :=
  ⟨rfl, rfl, rfl, rfl, rfl, rfl, rfl, rfl, rfl, rfl, rfl, rfl, rfl, fun b0 b1 b2 b3 _ _ hk hj =>
    have hbyte := byteOfWord_wordOfBytes b0 b1 b2 b3 hk
    ⟨hbyte ▸ getLsbD_byteOfWord _ _ hj, hbyte⟩⟩

end Sys2Proof
end

section
/-! The packed form of a bit stream (R89, R90): its layout, its first byte, what unpacking gives back, and
obligation O5. -/

namespace Sys2Proof.Machine

/-! ### The layout -/

@[simp] theorem packStream_length (bits : Bits) (ord : Bool) :
    (packStream bits ord).length = (bits.length + 7) / 8 := by
  simp [packStream]

/-- Byte `m` packs the 8 bits that start at bit `8m` (R90). -/
theorem getD_packStream (bits : Bits) (ord : Bool) {m : Nat} (hm : m < (bits.length + 7) / 8) :
    (packStream bits ord).getD m 0 = pack ((bits.drop (8 * m)).take 8) ord := by
  simp [packStream, hm]

/-- `pos` depends on the place within the byte alone (R88). -/
theorem bitPos_mod (j : Nat) (ord : Bool) : bitPos (j % 8) ord = bitPos j ord := by
  rw [bitPos, bitPos, Nat.mod_mod]

/-- Settles O5: stream bit `j` is bit `j % 8` of the chunk that byte `j / 8` packs. -/
theorem packedStreamLayout : Obligations.PackedStreamLayout := by
  refine fun bits ord => ⟨packStream_length bits ord, fun j hj => ?_⟩
  have hplace : j % 8 < 8 := Nat.mod_lt _ (by decide)
  have hindex : 8 * (j / 8) + j % 8 = j := Nat.div_add_mod j 8
  have hbit : ((bits.drop (8 * (j / 8))).take 8).getD (j % 8) false = bits.getD j false := by
    simp [List.getElem?_take_of_lt hplace, hindex]
  rw [getD_packStream bits ord (by omega), ← bitPos_mod, getLsbD_pack_bitPos _ ord hplace, hbit]
  split
  · rfl
  · exact List.getD_eq_default _ _ (not_lt.mp ‹_›)

/-! ### The first byte, and unpacking -/

@[simp] theorem packStream_nil (ord : Bool) : packStream [] ord = [] := rfl

/-- A packed stream starts with the byte of its first 8 bits, padded where there are fewer (R89). -/
theorem packStream_of_ne_nil {bits : Bits} (h : bits ≠ []) (ord : Bool) :
    packStream bits ord = pack (bits.take 8) ord :: packStream (bits.drop 8) ord := by
  have hlen : (bits.length + 7) / 8 = ((bits.drop 8).length + 7) / 8 + 1 := by
    have := List.length_pos_iff.mpr h
    rw [List.length_drop]
    omega
  rw [packStream, packStream, hlen, List.range_succ_eq_map, List.map_cons, List.map_map]
  simp [Function.comp_def, Nat.mul_succ, Nat.add_comm]

/-- A byte unpacks to the bits packed into it and the padding (R88, R89). -/
theorem unpack_pack_padded {b : Bits} (hb : b.length ≤ 8) (ord : Bool) :
    unpack (pack b ord) ord = b ++ List.replicate (8 - b.length) false := by
  rw [← pack_append_zeros b (8 - b.length) ord, unpack_pack (by simp; omega)]

/-- The bits of a byte stream (R88). -/
def unpackStream (bytes : List Byte) (ord : Bool) : Bits := bytes.flatMap (fun v => unpack v ord)

@[simp] theorem unpackStream_nil (ord : Bool) : unpackStream [] ord = [] := rfl

@[simp] theorem unpackStream_cons (v : Byte) (bytes : List Byte) (ord : Bool) :
    unpackStream (v :: bytes) ord = unpack v ord ++ unpackStream bytes ord := rfl

theorem unpackStream_length (bytes : List Byte) (ord : Bool) :
    (unpackStream bytes ord).length = 8 * bytes.length := by
  induction bytes with
  | nil => rfl
  | cons v bytes ih => simp [ih, Nat.mul_add, Nat.add_comm]

/-- A packed stream unpacks to its bits and less than a byte of padding (R90). -/
theorem exists_unpackStream_packStream_eq (bits : Bits) (ord : Bool) :
    ∃ pad : Bits, pad.length < 8 ∧ unpackStream (packStream bits ord) ord = bits ++ pad := by
  by_cases hnil : bits = []
  · exact ⟨[], by decide, by rw [hnil]; rfl⟩
  · have hpos := List.length_pos_iff.mpr hnil
    rw [packStream_of_ne_nil hnil, unpackStream_cons, unpack_pack_padded (by simp)]
    obtain hshort | hfull := Nat.lt_or_ge bits.length 8
    · refine ⟨List.replicate (8 - bits.length) false, by rw [List.length_replicate]; omega, ?_⟩
      simp [List.take_of_length_le hshort.le, List.drop_of_length_le hshort.le]
    · obtain ⟨pad, hpad, hrest⟩ := exists_unpackStream_packStream_eq (bits.drop 8) ord
      exact ⟨pad, hpad, by simp [hrest, hfull, ← List.append_assoc]⟩
termination_by bits.length
decreasing_by rw [List.length_drop]; omega

end Sys2Proof.Machine
end

section
/-! Bus accesses as the host's next move (R61 to R65): which are defined, the step of each kind, and
obligations O7, O47, O48. -/

namespace Sys2Proof.Machine

/-! ### The defined accesses -/

theorem extractLsb'_zero_two_eq_zero_iff {off : Offset} :
    off.extractLsb' 0 2 = 0#2 ↔ off.toNat % 4 = 0 := by
  rw [← BitVec.toNat_inj, BitVec.extractLsb'_toNat, BitVec.toNat_ofNat, Nat.shiftRight_zero]

/-- R65. -/
theorem accessDefined_iff {off : Offset} {width : Width} :
    accessDefined off width = true ↔ width = .w32 ∧ off.toNat % 4 = 0 := by
  rw [accessDefined, Bool.and_eq_true, decide_eq_true_eq, beq_iff_eq, extractLsb'_zero_two_eq_zero_iff]

/-- Every register stands at an offset that is divisible by 4 (R62). -/
theorem offset_mod_four (r : Reg) : r.offset.toNat % 4 = 0 := by
  cases r with
  | codeBits k => revert k; decide
  | _ => rfl

/-- The registers stand below 0x084 (R62). -/
theorem offset_lt (r : Reg) : r.offset < 0x084#12 := by
  cases r with
  | codeBits k => revert k; decide
  | _ => decide

/-- From 0x084 on every offset is reserved (R63). -/
theorem ofOffset_of_reserved {off : Offset} (h : 0x084#12 ≤ off) : Reg.ofOffset off = none := by
  cases hreg : Reg.ofOffset off with
  | none => rfl
  | some r => exact absurd (eq_offset_of_ofOffset hreg ▸ h) (BitVec.not_le.mpr (offset_lt r))

/-! ### The step of an access -/

section Access

variable {s : State} {off : Offset} {width : Width} {v : Word} {rest : List HostMove}

/-- A bus access is possible at any time (R235), so it is never put off. -/
theorem step_of_write (hagenda : s.agenda = .write off width v :: rest) :
    step s = busWrite off width v { s with agenda := rest } := step_of_hostReady hagenda rfl

theorem step_of_read (hagenda : s.agenda = .read off width :: rest) :
    step s = busRead off width { s with agenda := rest } := step_of_hostReady hagenda rfl

theorem busWrite_of_decode {i : Instr} (halign : off.toNat % 4 = 0)
    (hdec : decode (.busWrite off v) = .ok i) :
    busWrite off .w32 v s = exec i { s with resp := .written } := by
  rw [busWrite, if_pos (accessDefined_iff.mpr ⟨rfl, halign⟩), hdec]

theorem busWrite_of_illegalCommand (halign : off.toNat % 4 = 0)
    (hdec : decode (.busWrite off v) = .error (.illegalCommand v)) :
    busWrite off .w32 v s = .next (illegalCommand v { s with resp := .written }) := by
  rw [busWrite, if_pos (accessDefined_iff.mpr ⟨rfl, halign⟩), hdec]

theorem busWrite_of_reserved (halign : off.toNat % 4 = 0) (hreg : Reg.ofOffset off = none) :
    busWrite off .w32 v s = .next { s with resp := .written } := by
  rw [busWrite, if_pos (accessDefined_iff.mpr ⟨rfl, halign⟩), decode, decodeWrite, hreg]

theorem busWrite_of_readOnly {r : Reg}
    (hr : r ∉ [Reg.ctrl, .cmd, .freqIdx, .freqData, .nodeIdx, .codeIdx]) :
    busWrite r.offset .w32 v s = .next { s with resp := .written } := by
  have hdec : decode (.busWrite r.offset v) = .error (.readOnly r) := by
    simp only [List.mem_cons, List.not_mem_nil, or_false, not_or] at hr
    simp [decode, decodeWrite, hr]
  rw [busWrite, if_pos (accessDefined_iff.mpr ⟨rfl, offset_mod_four r⟩), hdec]

theorem busRead_of_decode {i : Instr} (halign : off.toNat % 4 = 0) (hdec : decode (.busRead off) = .ok i) :
    busRead off .w32 s = exec i s := by
  rw [busRead, if_pos (accessDefined_iff.mpr ⟨rfl, halign⟩), hdec]

theorem busRead_of_reserved (halign : off.toNat % 4 = 0) (hreg : Reg.ofOffset off = none) :
    busRead off .w32 s = .next { s with resp := .data 0 } := by
  rw [busRead, if_pos (accessDefined_iff.mpr ⟨rfl, halign⟩), decode, decodeRead, hreg]

theorem busRead_of_reg (r : Reg) : busRead r.offset .w32 s = .next (answerRead r s) := by
  rw [busRead, if_pos (accessDefined_iff.mpr ⟨rfl, offset_mod_four r⟩)]
  cases hwindow : r.isWindow with
  | false =>
    have hdec : decode (.busRead r.offset) = .error (.plainRead r) := by
      simp [decode, decodeRead, hwindow]
    rw [hdec]
  | true =>
    have hdec : decode (.busRead r.offset) = .ok (.rdWindow r) := by
      simp [decode, decodeRead, hwindow]
    rw [hdec]
    rfl

theorem busWrite_of_undefined (h : width ≠ .w32 ∨ off.toNat % 4 ≠ 0) :
    busWrite off width v s = .next (busError none s) := by
  rw [busWrite, if_neg (by rw [accessDefined_iff]; tauto)]

theorem busRead_of_undefined (h : width ≠ .w32 ∨ off.toNat % 4 ≠ 0) :
    busRead off width s = .next (busError (some 0) s) := by
  rw [busRead, if_neg (by rw [accessDefined_iff]; tauto)]

end Access

/-- Settles O48: neither access is the defined one. -/
theorem busErrorsChangeNothing : Obligations.BusErrorsChangeNothing := by
  refine fun s off width rest h => ⟨fun hagenda => ?_, fun v hagenda => ?_⟩
  · rw [step_of_read hagenda, busRead_of_undefined h, busError]
  · rw [step_of_write hagenda, busWrite_of_undefined h, busError]

/-- Settles O47: no register stands at a reserved offset, and the decoder rejects the write to every register
that is not on the list. -/
theorem reservedOffsetsAreIgnored : Obligations.ReservedOffsetsAreIgnored := by
  refine ⟨fun s off rest hpast halign => ?_, fun s r v rest hr hagenda => ?_, fun s => rfl⟩
  · have halign := extractLsb'_zero_two_eq_zero_iff.mp halign
    have hreg := ofOffset_of_reserved hpast
    exact ⟨fun hagenda => (step_of_read hagenda).trans (busRead_of_reserved halign hreg),
      fun v hagenda => (step_of_write hagenda).trans (busWrite_of_reserved halign hreg)⟩
  · exact (step_of_write hagenda).trans (busWrite_of_readOnly hr)

/-! ### Illegal command words -/

/-- A word outside the opcode map is illegal (R82). -/
theorem decodeCommand_of_illegal {w : Word}
    (h : w.extractLsb' 8 24 ≠ 0#24 ∨ 8 < (w.extractLsb' 0 8).toNat) :
    decodeCommand w = .error (.illegalCommand w) := by
  unfold decodeCommand
  split
  · rfl
  · have hop := h.resolve_left ‹_›
    split
    case h_10 => rfl
    all_goals omega

/-- A field in front of which zeros stand is its zero extension (R250). -/
theorem zeros_append_eq_setWidth {w : Nat} (n : Nat) (x : BitVec w) : 0#n ++ x = x.setWidth (n + w) := by
  refine BitVec.eq_of_toNat_eq ?_
  rw [BitVec.toNat_append, BitVec.toNat_setWidth_of_le (by omega), BitVec.toNat_ofNat, Nat.zero_mod,
    Nat.zero_shiftLeft, Nat.zero_or]

/-- Settles O7: the word decodes as illegal, and the write raises `BAD_CMD` whatever runs. -/
theorem illegalCommandRaisesBadCmd : Obligations.IllegalCommandRaisesBadCmd := by
  intro s w rest hagenda hillegal
  have hdec : decode (.busWrite 0x008#12 w) = .error (.illegalCommand w) :=
    decodeCommand_of_illegal hillegal
  have hstep : step s =
      .next (raise .badCmd (0#8 ++ w.extractLsb' 0 8) { s with agenda := rest, resp := .written }) := by
    rw [step_of_write hagenda, busWrite_of_illegalCommand rfl hdec, illegalCommand, zeros_append_eq_setWidth]
  refine ⟨fun herr => ?_, fun herr => ?_⟩
  · rw [hstep, raise_of_no_err (s := { s with agenda := rest, resp := .written }) herr, ErrCause.code]
  · rw [hstep, raise_of_err (s := { s with agenda := rest, resp := .written }) herr]

end Sys2Proof.Machine
end

section
/-! What reads show (R108 to R111): the register values, the fields of `STATUS`, the three windows, and
obligations O45, O46 and O49. -/

namespace Sys2Proof.Machine

/-! ### Registers -/

theorem exec_rdWindow (r : Reg) (s : State) :
    exec (.rdWindow r) s = .next { s with resp := .data (readReg r s) } := rfl

/-- The two halves of a counter, together (R36, R37). -/
theorem halves_append (x : BitVec 64) : x.extractLsb' 32 32 ++ x.extractLsb' 0 32 = x :=
  BitVec.extractLsb'_append_extractLsb' (len := 32)

/-- Settles O45: a read of a register is an answer and no more, and zero extension keeps the number. -/
theorem readsGiveTheRegisters : Obligations.ReadsGiveTheRegisters := by
  refine ⟨fun s r => exec_rdWindow r s, fun s r rest hagenda => ?_, fun s => ⟨rfl, rfl,
    BitVec.toNat_setWidth_of_le (by decide), BitVec.toNat_setWidth_of_le (by decide),
    BitVec.toNat_setWidth_of_le (by decide), BitVec.toNat_setWidth_of_le (by decide),
    BitVec.toNat_setWidth_of_le (by decide), BitVec.toNat_setWidth_of_le (by decide),
    BitVec.toNat_setWidth_of_le (by decide), BitVec.toNat_setWidth_of_le (by decide),
    BitVec.toNat_setWidth_of_le (by decide), halves_append _, halves_append _, halves_append _,
    halves_append _⟩⟩
  rw [step_of_read hagenda, busRead_of_reg, answerRead]
  cases r <;> rfl

/-! ### `STATUS` -/

/-- `ACTIVE` in its bit places (R25). -/
theorem statusWord_active (s : State) : (statusWord s).extractLsb' 8 3 = s.active.code := by
  simp only [statusWord, BitVec.extractLsb'_append_eq_ite]
  simp

theorem statusWord_reserved (s : State) :
    (statusWord s).extractLsb' 6 2 = 0 ∧ (statusWord s).extractLsb' 11 21 = 0 := by
  simp only [statusWord, BitVec.extractLsb'_append_eq_ite]
  simp

/-- Settles O49: the word is built of its fields, each of which is cut out again. -/
theorem statusFields : Obligations.StatusFields := by
  intro s
  obtain ⟨hlow, hhigh⟩ := statusWord_reserved s
  refine ⟨?_, ?_, ?_, ?_, ?_, ?_, hlow, (statusWord_active s).trans ?_, hhigh⟩
  case refine_7 => cases s.active <;> rfl
  all_goals
    simp only [readReg, statusWord, BitVec.getLsbD_append, busy, err]
    simp

/-! ### The windows -/

theorem nodeVisible_iff {s : State} :
    nodeVisible s = true ↔
      s.treeValid = true ∧ s.nodeIdx.toNat ≤ 512 ∧ (nodeAt s.node s.nodeIdx.toNat).valid = true := by
  simp [nodeVisible, and_assoc]

theorem codeVisible_iff {s : State} :
    codeVisible s = true ↔ s.mapValid = true ∧ s.codeIdx.toNat ≤ 256 := by
  simp [codeVisible]

/-- The fields of `NODE_INFO` in their bit places (R33). -/
theorem nodeInfoWord_fields (n : Node) :
    (nodeInfoWord n).extractLsb' 0 9 = n.sym ∧ (nodeInfoWord n).extractLsb' 9 10 = n.zero ∧
      (nodeInfoWord n).extractLsb' 19 10 = n.one ∧ (nodeInfoWord n).getLsbD 29 = n.internal ∧
      (nodeInfoWord n).getLsbD 30 = true ∧ (nodeInfoWord n).getLsbD 31 = false := by
  simp only [nodeInfoWord, BitVec.extractLsb'_append_eq_ite, BitVec.getLsbD_append]
  simp

/-- A visible node in its three registers (R33). -/
theorem nodeWindow_of_visible {s : State} (h : nodeVisible s = true) :
    readReg .nodeInfo s = nodeInfoWord (nodeAt s.node s.nodeIdx.toNat) ∧
      readReg .nodeCntLo s = (nodeAt s.node s.nodeIdx.toNat).cnt.extractLsb' 0 32 ∧
      readReg .nodeCntHi s = 0#23 ++ (nodeAt s.node s.nodeIdx.toNat).cnt.extractLsb' 32 9 :=
  ⟨if_pos h, if_pos h, if_pos h⟩

theorem nodeWindow_of_hidden {s : State} (h : nodeVisible s = false) :
    readReg .nodeInfo s = 0 ∧ readReg .nodeCntLo s = 0 ∧ readReg .nodeCntHi s = 0 := by
  simp [readReg, nodeInfo, nodeCntLo, nodeCntHi, h]

/-- The fields of `CODE_INFO` in their bit places, with 0 in the others (R35). -/
theorem codeInfo_fields {s : State} (h : codeVisible s = true) :
    (codeInfo s).extractLsb' 0 9 = (codeAt s.code s.codeIdx.toNat).len ∧
      (codeInfo s).getLsbD 16 = (codeAt s.code s.codeIdx.toNat).valid ∧
      (codeInfo s).extractLsb' 9 7 = 0 ∧ (codeInfo s).extractLsb' 17 15 = 0 := by
  rw [codeInfo, if_pos h]
  simp only [BitVec.extractLsb'_append_eq_ite, BitVec.getLsbD_append]
  simp

theorem getLsbD_codeBitsWord {s : State} (h : codeVisible s = true) (k : Nat) {j : Nat} (hj : j < 32) :
    (codeBitsWord k s).getLsbD j = (codeAt s.code s.codeIdx.toNat).bits.getLsbD (32 * k + j) := by
  rw [codeBitsWord, if_pos h, BitVec.getLsbD_extractLsb', decide_eq_true hj, Bool.true_and]

theorem codeWindow_of_hidden {s : State} (h : codeVisible s = false) :
    readReg .codeInfo s = 0 ∧ ∀ k, readReg (.codeBits k) s = 0 := by
  simp [readReg, codeInfo, codeBitsWord, h]

theorem freqWindow_eq (s : State) :
    freqWindow s =
      if 257 ≤ s.freqIdx.toNat ∨ s.active = .freqClr then 0 else freqAt s.freq s.freqIdx.toNat := by
  rw [freqWindow, ← ite_or]

/-- Settles O46: each window is visible under the stated condition, and shows the fields of its entry. -/
theorem windowsShowTheArrays : Obligations.WindowsShowTheArrays := by
  refine fun s => ⟨freqWindow_eq s, ?_, ?_⟩
  · rintro n rfl
    refine ⟨fun h => ?_, fun h => ?_⟩
    · obtain ⟨hinfo, hlo, hhi⟩ := nodeWindow_of_visible (nodeVisible_iff.mpr h)
      obtain ⟨hsym, hzero, hone, hinternal, hvalid, htop⟩ :=
        nodeInfoWord_fields (nodeAt s.node s.nodeIdx.toNat)
      rw [hinfo, hlo, hhi]
      exact ⟨hsym, hzero, hone, hinternal, hvalid, htop, rfl, BitVec.extractLsb'_append_eq_right,
        BitVec.extractLsb'_append_eq_left⟩
    · exact nodeWindow_of_hidden (Bool.eq_false_of_not_eq_true (mt nodeVisible_iff.mp h))
  · rintro c rfl
    refine ⟨fun h => ?_, fun h => ?_⟩
    · have hvisible := codeVisible_iff.mpr h
      obtain ⟨hlen, hvalid, hmid, htop⟩ := codeInfo_fields hvisible
      exact ⟨hlen, hvalid, hmid, htop, fun k j hj => getLsbD_codeBitsWord hvisible k.val hj⟩
    · exact codeWindow_of_hidden (Bool.eq_false_of_not_eq_true (mt codeVisible_iff.mp h))

end Sys2Proof.Machine
end

section
/-! What stands in the way of a command and what ends an operation: commands and accesses with an error
recorded (R259), `ABORT` (R105), the smallest key of the queue (R133), and obligations O8, O11 and O18. -/

namespace Sys2Proof.Machine

theorem exec_abort (s : State) :
    exec .abort s = .next { abandon (abortOperation s) with done := false } := rfl

/-- What `ABORT` does to the operation that it ends, field by field (R105). -/
theorem abortOperation_eq (s : State) :
    abortOperation s = { s with
      freq := if s.active = .freqClr then abortedFreq s.draws s.freq else s.freq
      draws := if s.active = .freqClr then s.draws + 1 else s.draws
      ebuf := if s.active = .encode then [] else s.ebuf
      efin := if s.active = .encode then false else s.efin
      dbuf := if s.active = .decode then [] else s.dbuf } := by
  rcases s with ⟨_, _, _, _, _, active, _⟩
  cases active <;> rfl

/-- With no `FREQ_CLR` running, what `ABORT` discards are the bits of the session it ends (R105). -/
theorem exec_abort_of_not_freqClr {s : State} (h : s.active ≠ .freqClr) :
    exec .abort s = .next { s with
      active := .idle
      done := false
      ebuf := if s.active = .encode then [] else s.ebuf
      efin := if s.active = .encode then false else s.efin
      dbuf := if s.active = .decode then [] else s.dbuf } := by
  rw [exec_abort, abortOperation_eq, if_neg h, if_neg h, abandon]

theorem exec_abort_of_freqClr {s : State} (h : s.active = .freqClr) :
    exec .abort s = .next { s with
      active := .idle, done := false, freq := abortedFreq s.draws s.freq, draws := s.draws + 1 } := by
  simp [exec_abort, abandon, abortOperation_eq, h]

/-- Each entry of an aborted clear is the old one or 0 (R105, U5). -/
theorem freqAt_abortedFreq (draw : Nat) (f : FreqRam) {i : Nat} (hi : i < 257) :
    freqAt (abortedFreq draw f) i = freqAt f i ∨ freqAt (abortedFreq draw f) i = 0 := by
  rw [abortedFreq, freqAt_tabulate _ i hi]
  split
  · exact .inr rfl
  · exact .inl rfl

/-- Settles O11: `ABORT` by the operation it ends. -/
theorem abortEndsTheOperation : Obligations.AbortEndsTheOperation :=
  ⟨rfl, fun _ => ⟨exec_abort_of_not_freqClr, fun hclr =>
    ⟨_, _, exec_abort_of_freqClr hclr, fun _ hi => freqAt_abortedFreq _ _ hi⟩⟩⟩

theorem exec_abort_flags (s : State) :
    ∃ t, exec .abort s = .next t ∧ t.active = .idle ∧ t.done = false ∧ t.errCode = s.errCode :=
  ⟨_, exec_abort s, rfl, rfl, by rw [abortOperation_eq]; rfl⟩

/-- An operation command is dropped while an error is recorded (R100, R259). -/
theorem exec_operation_of_err {i : Instr}
    (hi : i ∈ [Instr.freqClr, .build, .genmap, .encStart, .decStart, .treeFree]) {s : State}
    (herr : s.errCode ≠ 0) : exec i s = .next { s with emult := true } := by
  simp only [List.mem_cons, List.not_mem_nil, or_false] at hi
  obtain rfl | rfl | rfl | rfl | rfl | rfl := hi
  all_goals exact congrArg Host.Outcome.next (accept_of_err herr)

/-- Settles O8: acceptance alone looks at the record; every other instruction does what it always does. -/
theorem stickyErrorBlocksCommands : Obligations.StickyErrorBlocksCommands := by
  refine fun s herr => ⟨fun e info => raise_of_err herr, fun i hi => exec_operation_of_err hi herr,
    exec_nop s, exec_abort_flags s, ⟨_, exec_clrErr s, rfl, rfl⟩, fun v => exec_wrFreqIdx v s,
    fun v hclr hbuild hidx => ?_, fun r => exec_rdWindow r s⟩
  refine ⟨_, exec_wrFreqData v s, ?_⟩
  rw [writeFreqData_of_entry (not_or.mpr ⟨hclr, hbuild⟩) hidx, freqAt_setFreq _ _ _ _ (by omega), if_pos rfl]

/-- Settles O18: the element removed has the smallest key, and no other has the same one. -/
theorem popTakesTheSmallestKey : Obligations.PopTakesTheSmallestKey := by
  intro ram q rest a hpop
  obtain ⟨hmem, hrest, hmin⟩ := popMin_spec hpop
  refine ⟨hmem, hrest, fun b hb hne => ?_⟩
  have hlt : nodeKey ram a < nodeKey ram b :=
    lt_of_le_of_ne (hmin b hb) fun heq => hne (nodeKey_inj.mp heq).symm
  simpa [nodeKey, Prod.Lex.toLex_lt_toLex] using hlt

end Sys2Proof.Machine
end

section
/-! The channel steps of a session (43_encoder, 44_decoder): taking a byte (R172, R179, R204), the end of a bit
source (R210), closing (R176, R206), and obligations O29, O32, O37 and O39. -/

namespace Sys2Proof.Machine

/-! ### The encoder -/

section Encoder

variable {s : State} {it : Item} {rest : List Item}

theorem exec_sinByte_of_takes (htakes : encTakes s = true) (hsin : s.sin = it :: rest)
    (hbyte : itemEnd it = false) :
    exec (.sinByte (itemData it)) s = .next (encodeByte (itemData it) s) := by
  have hhead : sinHeadIsByte s (itemData it) = true := sinHeadIsByte_iff.mpr ⟨it, rest, hsin, hbyte, rfl⟩
  exact congrArg Host.Outcome.next (if_pos (Bool.and_eq_true_iff.mpr ⟨htakes, hhead⟩))

/-- R172. -/
theorem encodeByte_of_code {v : Byte} (hsin : s.sin = it :: rest)
    (hcode : (codeAt s.code v.toNat).valid = true) :
    encodeByte v s =
      { s with
        sin := rest
        ebuf := if s.eSink then s.ebuf ++ codeString (codeAt s.code v.toNat) else s.ebuf
        encBitCnt := s.encBitCnt + (codeAt s.code v.toNat).len.setWidth 64
        encSymCnt := s.encSymCnt + 1 } := by
  rw [encodeByte, if_pos hcode, takeSin_of_cons hsin]
  rfl

/-- R179. -/
theorem encodeByte_of_no_code {v : Byte} (hsin : s.sin = it :: rest)
    (hcode : (codeAt s.code v.toNat).valid = false) :
    encodeByte v s =
      { raise .noSym (v.setWidth 16) s with sin := rest, ebuf := [], active := .idle } := by
  rw [encodeByte, if_neg (ne_true_of_eq_false hcode), takeSin_of_cons hsin]
  rfl

/-- A code is at most 256 bits long, so that one more fits behind 7 bits (R41, R156). -/
theorem appended_length_le {rom : CodeRom} (hmap : MapOk rom) {x : Nat} (hx : x < 257)
    (hcode : (codeAt rom x).valid = true) {b : Bits} (hb : b.length < 8) (sink : Bool) :
    (if sink then b ++ codeString (codeAt rom x) else b).length ≤ 263 := by
  obtain ⟨hlen, -⟩ := hmap.codeShape x hx hcode
  cases sink
  · exact hb.le.trans (by decide)
  · rw [if_pos rfl, List.length_append, codeString_length]
    omega

/-- In a map with a code for 256 no other code is empty: it would begin that one (R157). -/
theorem MapOk.len_ne_zero {rom : CodeRom} (hmap : MapOk rom) {x : Nat} (hx : x < 256)
    (hcode : (codeAt rom x).valid = true) : (codeAt rom x).len ≠ 0 := by
  intro hlen
  have hempty : codeString (codeAt rom x) = [] := by simp [codeString, hlen]
  refine hmap.prefixFree x 256 (by omega) (by omega) hx.ne hcode hmap.eosCode ?_
  rw [hempty]
  exact List.nil_prefix

/-- Settles O29: the step is enabled, and `VALID` of the byte's code decides between its two effects. -/
theorem encoderTakesAByte : Obligations.EncoderTakesAByte := by
  rintro s it v rest hactive hefin hroom hsin hbyte rfl
  have hexec := exec_sinByte_of_takes (encTakes_iff.mpr ⟨hactive, hefin, hroom⟩) hsin hbyte
  have hv : (itemData it).toNat < 256 := (itemData it).isLt
  refine ⟨fun hcode => ?_, fun hcode => ?_⟩
  · rw [encodeByte_of_code hsin hcode] at hexec
    refine ⟨hexec, fun hmap => ⟨hmap.len_ne_zero hv hcode, fun t ht => ?_⟩⟩
    rw [hexec] at ht
    cases ht
    exact appended_length_le hmap (by omega) hcode hroom s.eSink
  · rw [hexec, encodeByte_of_no_code hsin hcode, zeros_append_eq_setWidth]

theorem closeReady_iff :
    closeReady s = true ↔ s.active = .encode ∧ s.efin = true ∧ s.ebuf = [] ∧
      (s.eSink = true → canAccept s.chDepth s.bout = true) := by
  cases hsink : s.eSink <;> simp [closeReady, hsink, and_assoc]

/-- R176, in both modes (R177). -/
theorem exec_boutEnd_of_ready (h : closeReady s = true) :
    exec .boutEnd s =
      .next { s with
        bout := if s.eSink then s.bout ++ [endItem] else s.bout, active := .idle, done := true } := by
  refine congrArg Host.Outcome.next ((if_pos h).trans ?_)
  by_cases hsink : s.eSink = true
  · rw [if_pos hsink, if_pos hsink]
    rfl
  · rw [if_neg hsink, if_neg hsink]
    rfl

/-- Settles O32: the close is enabled in both modes, and only the sink mode asks for room. -/
theorem encoderClosesTheStream : Obligations.EncoderClosesTheStream := by
  refine fun s hactive hefin hempty => ⟨fun hsink hroom => ?_, fun hsink => ?_⟩
  · rw [exec_boutEnd_of_ready (closeReady_iff.mpr ⟨hactive, hefin, hempty, fun _ => hroom⟩), hsink]
    rfl
  · rw [exec_boutEnd_of_ready (closeReady_iff.mpr ⟨hactive, hefin, hempty, by simp [hsink]⟩), hsink]
    rfl

end Encoder

/-! ### The decoder -/

section Decoder

variable {s : State} {it : Item} {rest : List Item}

theorem takeBin_of_cons (h : s.bin = it :: rest) : takeBin s = { s with bin := rest } := by
  rw [takeBin, h, List.tail_cons]

/-- R204 with a byte. -/
theorem exec_binByte_of_takes (htakes : decTakes s = true) (hbin : s.bin = it :: rest)
    (hbyte : itemEnd it = false) :
    exec (.binByte (itemData it)) s =
      .next { s with bin := rest, dbuf := unpack (itemData it) s.dOrd } := by
  have hhead : binHeadIsByte s (itemData it) = true := binHeadIsByte_iff.mpr ⟨it, rest, hbin, hbyte, rfl⟩
  refine congrArg Host.Outcome.next ((if_pos (Bool.and_eq_true_iff.mpr ⟨htakes, hhead⟩)).trans ?_)
  rw [takeBin_of_cons hbin]

/-- R204 and R210 with `END`, whatever its `DATA` holds (R85). -/
theorem exec_binEnd_of_takes (htakes : decTakes s = true) (hbin : s.bin = it :: rest)
    (hend : itemEnd it = true) :
    exec .binEnd s =
      .next { raise .trunc (s.decCur.setWidth 16) s with bin := rest, dbuf := [], active := .idle } := by
  have hhead : binHeadIsEnd s = true := binHeadIsEnd_iff.mpr ⟨it, rest, hbin, hend⟩
  refine congrArg Host.Outcome.next ((if_pos (Bool.and_eq_true_iff.mpr ⟨htakes, hhead⟩)).trans ?_)
  rw [truncate, takeBin_of_cons hbin]
  rfl

/-- Settles O37: both takes are enabled where a bit is needed. -/
theorem decoderTakesAnItem : Obligations.DecoderTakesAnItem := by
  intro s it rest hactive hsym hbuf hbin
  have htakes : decTakes s = true := decTakes_iff.mpr ⟨hactive, hsym, hbuf⟩
  refine ⟨exec_binByte_of_takes htakes hbin, fun hend => ?_⟩
  rw [exec_binEnd_of_takes htakes hbin hend, zeros_append_eq_setWidth]

/-- In a tree the node with symbol 256 is leaf 256 (R134). -/
theorem TreeOk.eq_of_sym_eos {ram : NodeRam} {root nleaf i : Nat} (h : TreeOk ram root nleaf)
    (hv : (nodeAt ram i).valid = true) (hsym : (nodeAt ram i).sym = 256#9) : i = 256 := by
  have hleaf : i < 257 := by
    by_contra hi
    have hmarker := (h.sym_eq_marker_iff hv).mpr (not_lt.mp hi)
    rw [hsym] at hmarker
    exact absurd hmarker (by decide)
  rw [← h.sym_toNat_of_leaf hv hleaf, hsym]
  rfl

/-- Settles O39: the session completes, and a valid node with symbol 256 is entry 256. -/
theorem decoderEndsAtTheEosLeaf : Obligations.DecoderEndsAtTheEosLeaf := by
  refine fun s hactive hsym hroom => ⟨exec_soutEnd_of_eos (atEos_iff.mpr ⟨hactive, hsym⟩) hroom,
    fun hinv => BitVec.eq_of_toNat_eq ?_⟩
  obtain ⟨htree, hv⟩ := hinv.decoding hactive
  exact (hinv.tree htree).eq_of_sym_eos hv hsym

end Decoder

end Sys2Proof.Machine
end

section
/-! The step that a session's turn runs (R184, R202), the steps that are not enabled (R43, R182, R214), and
obligations O53 and O52. -/

namespace Sys2Proof.Machine

/-! ### The enabled step -/

section Turn

variable {s : State}

theorem coreStep_of_encodeStep {i : Instr} (hactive : s.active = .encode) (hstep : encodeStep s = some i) :
    coreStep s = exec i s := by
  simp only [coreStep, hactive, hstep]

theorem coreStep_of_no_encodeStep (hactive : s.active = .encode) (hstep : encodeStep s = none) :
    coreStep s = .next s := by
  simp only [coreStep, hactive, hstep]

theorem coreStep_of_wait (hactive : s.active = .decode) (hstep : decodeStep s = .wait) :
    coreStep s = .next s := by
  simp only [coreStep, hactive, hstep]

/-- No byte is put before `END` while there are fewer than 8 bits (the table of 43_encoder). -/
theorem not_byteReady_of_takes (h : encTakes s = true) :
    ¬ (fullByteReady s || lastByteReady s) = true := by
  obtain ⟨-, hefin, hroom⟩ := encTakes_iff.mp h
  rw [Bool.or_eq_true, fullByteReady_iff, lastByteReady_iff, hefin]
  rintro (⟨-, -, hfull⟩ | ⟨-, -, hend, -⟩)
  · omega
  · cases hend

theorem encodeStep_of_takes (h : encTakes s = true) :
    encodeStep s = s.sin.head?.map (decodeItem .sin) := by
  obtain ⟨-, hefin, -⟩ := encTakes_iff.mp h
  rw [encodeStep, if_neg (not_byteReady_of_takes h), if_neg (ne_true_of_eq_false hefin), if_pos h]
  cases s.sin <;> rfl

theorem encodeStep_of_item {it : Item} {rest : List Item} (h : encTakes s = true)
    (hsin : s.sin = it :: rest) : encodeStep s = some (decodeItem .sin it) := by
  rw [encodeStep_of_takes h, hsin]
  rfl

theorem encodeStep_of_no_item (h : encTakes s = true) (hsin : s.sin = []) : encodeStep s = none := by
  rw [encodeStep_of_takes h, hsin]
  rfl

/-- With everything put, the session closes (R176). -/
theorem encodeStep_of_close (hefin : s.efin = true) (hempty : s.ebuf = []) :
    encodeStep s = some .boutEnd := by
  have hnone : ¬ (fullByteReady s || lastByteReady s) = true := by
    simp [fullByteReady, lastByteReady, hempty]
  rw [encodeStep, if_neg hnone, if_pos hefin, hempty]
  rfl

end Turn

/-- Settles O53: the step makes the move at the head of the agenda, and a session's turn runs the step that
the table selects. -/
theorem stepRunsTheInstruction : Obligations.StepRunsTheInstruction := by
  refine ⟨fun s off v i rest hagenda halign hdec => ?_, fun s off i rest hagenda halign hdec => ?_,
    fun s rest hagenda => step_of_hostReady hagenda rfl, fun s hagenda => ?_,
    fun s it rest hactive hefin hroom hsin => ?_, fun s hactive hsink hfull => ?_,
    fun s hactive hsink hefin hsome hshort => ?_, fun s hactive hefin hempty => ?_,
    fun s it rest hactive hcur hsym hbuf hbin => ?_, fun s v hactive hcur hsym => ?_,
    fun s hactive hcur hsym => ?_⟩
  · rw [step_of_write hagenda, busWrite_of_decode halign hdec]
  · rw [step_of_read hagenda, busRead_of_decode halign hdec]
  · rw [step, machineStep, hagenda]
  · have htakes : encTakes s = true := encTakes_iff.mpr ⟨hactive, hefin, hroom⟩
    exact coreStep_of_encodeStep hactive (encodeStep_of_item htakes hsin)
  · have hready : fullByteReady s = true := fullByteReady_iff.mpr ⟨hactive, hsink, hfull⟩
    exact coreStep_of_encodeStep hactive (encodeStep_of_byteReady (.inl hready))
  · have hready : lastByteReady s = true :=
      lastByteReady_iff.mpr ⟨hactive, hsink, hefin, hsome, hshort⟩
    rw [coreStep_of_encodeStep hactive (encodeStep_of_byteReady (.inr hready)), packedByte,
      List.take_of_length_le hshort.le]
  · exact coreStep_of_encodeStep hactive (encodeStep_of_close hefin hempty)
  · exact coreStep_of_channel hactive (decodeStep_of_item hcur hsym hbuf hbin)
  · have hsym : (curNode s).sym = byteItem v := hsym
    have hbyte : leafByte s = v := (congrArg itemData hsym).trans (itemData_byteItem v)
    have hordinary : (curNode s).sym.toNat < 256 := by rw [hsym, byteItem_toNat]; exact v.isLt
    rw [← hbyte]
    exact coreStep_of_channel hactive (decodeStep_of_symbol hcur hordinary)
  · exact coreStep_of_channel hactive (decodeStep_of_eos hcur hsym)

/-! ### Steps that are not enabled -/

section Disabled

variable {s : State}

/-- A step is enabled or leaves the state as it is. -/
theorem next_ite_of_not {c : Bool} {t : State} (h : ¬ c = true) :
    (Host.Outcome.next (if c then t else s) : Host.Outcome State Fault Refusal) = .next s := by
  rw [if_neg h]

theorem exec_sinByte_of_not {v : Byte} (h : ¬ (encTakes s = true ∧ sinHeadIsByte s v = true)) :
    exec (.sinByte v) s = .next s := next_ite_of_not (mt Bool.and_eq_true_iff.mp h)

theorem exec_sinEnd_of_not (h : ¬ (encTakes s = true ∧ sinHeadIsEnd s = true)) :
    exec .sinEnd s = .next s := next_ite_of_not (mt Bool.and_eq_true_iff.mp h)

theorem exec_boutByte_of_not {v : Byte}
    (h : ¬ ((fullByteReady s = true ∨ lastByteReady s = true) ∧ canAccept s.chDepth s.bout = true ∧
      v = packedByte s)) : exec (.boutByte v) s = .next s :=
  next_ite_of_not (by simpa [and_assoc] using h)

theorem exec_boutEnd_of_not (h : ¬ closeReady s = true) : exec .boutEnd s = .next s :=
  next_ite_of_not h

theorem exec_binByte_of_not {v : Byte} (h : ¬ (decTakes s = true ∧ binHeadIsByte s v = true)) :
    exec (.binByte v) s = .next s := next_ite_of_not (mt Bool.and_eq_true_iff.mp h)

theorem exec_binEnd_of_not (h : ¬ (decTakes s = true ∧ binHeadIsEnd s = true)) :
    exec .binEnd s = .next s := next_ite_of_not (mt Bool.and_eq_true_iff.mp h)

theorem exec_soutByte_of_not {v : Byte}
    (h : ¬ (atSymbol s = true ∧ canAccept s.chDepth s.sout = true ∧ v = leafByte s)) :
    exec (.soutByte v) s = .next s :=
  next_ite_of_not (by simpa [and_assoc] using h)

theorem exec_soutEnd_of_not (h : ¬ (atEos s = true ∧ canAccept s.chDepth s.sout = true)) :
    exec .soutEnd s = .next s := next_ite_of_not (mt Bool.and_eq_true_iff.mp h)

/-- What a byte put step of a session finds (R174, R175). -/
theorem byteReady_spec (h : fullByteReady s = true ∨ lastByteReady s = true) :
    s.active = .encode ∧ s.eSink = true ∧ (8 ≤ s.ebuf.length ∨ (s.efin = true ∧ s.ebuf ≠ [])) := by
  rw [fullByteReady_iff, lastByteReady_iff] at h
  obtain ⟨hactive, hsink, hfull⟩ | ⟨hactive, hsink, hefin, hsome, -⟩ := h
  · exact ⟨hactive, hsink, .inl hfull⟩
  · exact ⟨hactive, hsink, .inr ⟨hefin, List.length_pos_iff.mp hsome⟩⟩

/-- An ordinary leaf holds its byte as an item (R203). -/
theorem sym_eq_byteItem_leafByte (h : (curNode s).sym.toNat < 256) :
    (curNode s).sym = byteItem (leafByte s) := by
  have htop : itemEnd (curNode s).sym = false := by
    rw [itemEnd, BitVec.getLsbD, Nat.testBit_lt_two_pow h]
  exact (byteItem_itemData htop).symm

/-- No step of the encoder is enabled outside an encode session (R43). -/
theorem encoder_waits (h : s.active ≠ .encode) :
    (∀ v, exec (.sinByte v) s = .next s ∧ exec (.boutByte v) s = .next s) ∧
      exec .sinEnd s = .next s ∧ exec .boutEnd s = .next s := by
  have hidle : ¬ encTakes s = true := fun ht => h (encTakes_iff.mp ht).1
  refine ⟨fun v => ⟨exec_sinByte_of_not fun ht => hidle ht.1, exec_boutByte_of_not fun ht => ?_⟩,
    exec_sinEnd_of_not fun ht => hidle ht.1, exec_boutEnd_of_not fun hc => h (closeReady_iff.mp hc).1⟩
  exact h (byteReady_spec ht.1).1

/-- No step of the decoder is enabled outside a decode session (R43). -/
theorem decoder_waits (h : s.active ≠ .decode) :
    (∀ v, exec (.binByte v) s = .next s ∧ exec (.soutByte v) s = .next s) ∧
      exec .binEnd s = .next s ∧ exec .soutEnd s = .next s := by
  have hidle : ¬ decTakes s = true := fun ht => h (decTakes_iff.mp ht).1
  exact ⟨fun v => ⟨exec_binByte_of_not fun ht => hidle ht.1,
      exec_soutByte_of_not fun ht => h (atSymbol_iff.mp ht.1).1⟩,
    exec_binEnd_of_not fun ht => hidle ht.1, exec_soutEnd_of_not fun ht => h (atEos_iff.mp ht.1).1⟩

/-- Nothing is taken from `SIN` after `END` or while a byte waits to be put (the table of 43_encoder). -/
theorem sin_waits (h : s.efin = true ∨ 8 ≤ s.ebuf.length) :
    (∀ v, exec (.sinByte v) s = .next s) ∧ exec .sinEnd s = .next s := by
  have hstop : ¬ encTakes s = true := by
    rw [encTakes_iff]
    rintro ⟨-, hefin, hroom⟩
    obtain hend | hfull := h
    · simp [hefin] at hend
    · omega
  exact ⟨fun v => exec_sinByte_of_not fun ht => hstop ht.1, exec_sinEnd_of_not fun ht => hstop ht.1⟩

/-- Nothing is taken from `BIN` at a leaf or while there are bits left (R204). -/
theorem bin_waits (h : (curNode s).sym ≠ 257#9 ∨ s.dbuf ≠ []) :
    (∀ v, exec (.binByte v) s = .next s) ∧ exec .binEnd s = .next s := by
  have hstop : ¬ decTakes s = true := fun ht => by
    obtain ⟨-, hsym, hbuf⟩ := decTakes_iff.mp ht
    exact h.elim (· hsym) (· hbuf)
  exact ⟨fun v => exec_binByte_of_not fun ht => hstop ht.1, exec_binEnd_of_not fun ht => hstop ht.1⟩

/-- The encoder waits for room on `BOUT` (R182). -/
theorem bout_waits (hsink : s.eSink = true) (hfull : canAccept s.chDepth s.bout = false) :
    (∀ v, exec (.boutByte v) s = .next s) ∧ exec .boutEnd s = .next s := by
  have hstop : ¬ canAccept s.chDepth s.bout = true := ne_true_of_eq_false hfull
  refine ⟨fun v => exec_boutByte_of_not fun ⟨_, hroom, _⟩ => hstop hroom, exec_boutEnd_of_not fun hc => ?_⟩
  obtain ⟨-, -, -, hroom⟩ := closeReady_iff.mp hc
  exact hstop (hroom hsink)

/-- The decoder waits for room on `SOUT` (R214). -/
theorem sout_waits (hfull : canAccept s.chDepth s.sout = false) :
    (∀ v, exec (.soutByte v) s = .next s) ∧ exec .soutEnd s = .next s := by
  have hstop : ¬ canAccept s.chDepth s.sout = true := ne_true_of_eq_false hfull
  exact ⟨fun v => exec_soutByte_of_not fun ⟨_, hroom, _⟩ => hstop hroom,
    exec_soutEnd_of_not fun ⟨_, hroom⟩ => hstop hroom⟩

end Disabled

/-- Settles O52: in each case one premise of the step's condition fails. -/
theorem disabledStepsWait : Obligations.DisabledStepsWait := by
  refine ⟨fun s => encoder_waits, fun s => decoder_waits, fun s => sin_waits,
    fun s v h => exec_sinByte_of_not fun ht => ?_, fun s h => exec_sinEnd_of_not fun ht => ?_,
    fun s v h => exec_boutByte_of_not fun ht => ?_, fun s h => exec_boutEnd_of_not fun hc => ?_,
    fun s => bout_waits, fun s => bin_waits, fun s v h => exec_binByte_of_not fun ht => ?_,
    fun s h => exec_binEnd_of_not fun ht => ?_, fun s v h => exec_soutByte_of_not fun ht => h ?_,
    fun s h => exec_soutEnd_of_not fun ht => h (atEos_iff.mp ht.1).2, fun s => sout_waits,
    fun s hactive hefin hroom hsin => ?_, fun s hactive hcur hsym hbuf hbin => ?_⟩
  · obtain ⟨it, rest, hsin, hbyte, hdata⟩ := sinHeadIsByte_iff.mp ht.2
    simpa [hbyte, hdata] using h it rest hsin
  · obtain ⟨it, rest, hsin, hend⟩ := sinHeadIsEnd_iff.mp ht.2
    simp [h it rest hsin] at hend
  · obtain ⟨hready, -, hv⟩ := ht
    obtain ⟨-, hsink, hbits⟩ := byteReady_spec hready
    obtain hcount | hother | ⟨hshort, hopen⟩ := h
    · simp [hsink] at hcount
    · exact hother hv
    · obtain hfull | ⟨hefin, hsome⟩ := hbits
      · omega
      · simp [hefin, hsome] at hopen
  · obtain ⟨-, hefin, hempty, -⟩ := closeReady_iff.mp hc
    simp [hefin, hempty] at h
  · obtain ⟨it, rest, hbin, hbyte, hdata⟩ := binHeadIsByte_iff.mp ht.2
    simpa [hbyte, hdata] using h it rest hbin
  · obtain ⟨it, rest, hbin, hend⟩ := binHeadIsEnd_iff.mp ht.2
    simp [h it rest hbin] at hend
  · obtain ⟨hsymbol, -, rfl⟩ := ht
    exact sym_eq_byteItem_leafByte (atSymbol_iff.mp hsymbol).2
  · have htakes : encTakes s = true := encTakes_iff.mpr ⟨hactive, hefin, hroom⟩
    exact coreStep_of_no_encodeStep hactive (encodeStep_of_no_item htakes hsin)
  · exact coreStep_of_wait hactive (decodeStep_of_no_item hcur hsym hbuf hbin)

end Sys2Proof.Machine
end

section
/-! What a step can do, as an inductive relation per layer: `CoreTurn` for a turn of the core, `Written` for
the effect of a bus write, `Turn` for a step. The invariants are proved over these. -/

namespace Sys2Proof.Machine

/-! ### A turn of the core -/

/-- The states a turn of the core can leave, with what it finds (the tables of 43_encoder and 44_decoder, the
completions R102, R132 and R152). -/
inductive CoreTurn (s : State) : State → Prop
  | wait : CoreTurn s s
  | freqClr (hactive : s.active = .freqClr) : CoreTurn s (freqClrComplete s)
  | buildFails (hactive : s.active = .build) (e : ErrCause) (info : BitVec 16) :
      CoreTurn s (abandon (raise e info s))
  | build (hactive : s.active = .build) (heof : freqAt s.freq 256 ≠ 0) :
      CoreTurn s (complete
        { s with
          node := (buildTree s.freq s.node).1
          root := BitVec.ofNat 10 ((buildTree s.freq s.node).2.headD 0)
          nleaf := BitVec.ofNat 9 (present s.freq).length
          treeValid := true })
  | genmap (hactive : s.active = .genmap) {rom : CodeRom} (hmap : genMap s.node s.root.toNat = some rom) :
      CoreTurn s (complete { s with code := rom, mapValid := true })
  | takeByte (htakes : encTakes s = true) (v : Byte) (hcode : (codeAt s.code v.toNat).valid = true) :
      CoreTurn s { appendCode v.toNat (takeSin s) with encSymCnt := s.encSymCnt + 1 }
  | noSym (htakes : encTakes s = true) (v : Byte) :
      CoreTurn s (abandon { raise .noSym (v.setWidth 16) (takeSin s) with ebuf := [] })
  | takeEnd (htakes : encTakes s = true) : CoreTurn s { appendCode 256 (takeSin s) with efin := true }
  | putByte (hready : fullByteReady s = true ∨ lastByteReady s = true)
      (hroom : canAccept s.chDepth s.bout = true) :
      CoreTurn s (putBout (byteItem (packedByte s)) { s with ebuf := s.ebuf.drop 8 })
  | close (hready : closeReady s = true) :
      CoreTurn s (complete (if s.eSink then putBout endItem s else s))
  | takeBits (htakes : decTakes s = true) (v : Byte) :
      CoreTurn s { takeBin s with dbuf := unpack v s.dOrd }
  | truncated (htakes : decTakes s = true) : CoreTurn s (truncate s)
  | bit (hinternal : atInternal s = true) {b : Bool} {rest : Bits} (hbuf : s.dbuf = b :: rest) :
      CoreTurn s { s with
        dbuf := rest, decBitCnt := s.decBitCnt + 1
        decCur := if b then (curNode s).one else (curNode s).zero }
  | emit (hsymbol : atSymbol s = true) (hroom : canAccept s.chDepth s.sout = true) :
      CoreTurn s (putSout (byteItem (leafByte s))
        { s with decSymCnt := s.decSymCnt + 1, decCur := s.root })
  | eos (heos : atEos s = true) (hroom : canAccept s.chDepth s.sout = true) :
      CoreTurn s (complete { putSout endItem s with dbuf := [] })

/-- A step with a condition does its effect or nothing. -/
theorem coreTurn_ite {s u t : State} {c : Bool} (hturn : c = true → CoreTurn s u)
    (h : (Host.Outcome.next (if c then u else s) : Host.Outcome State Fault Refusal) = .next t) :
    CoreTurn s t := by
  cases h
  split
  · exact hturn ‹_›
  · exact .wait

/-- The step of a channel item, whichever state it is run in (log 8, log 9). -/
theorem coreTurn_of_exec_item {s t : State} {i : Instr} {ch : Channel} {it : Item}
    (hitem : encode i = .item ch it) (h : exec i s = .next t) : CoreTurn s t := by
  cases i with
  | sinByte v =>
    refine coreTurn_ite (fun henabled => ?_) h
    obtain ⟨htakes, -⟩ := Bool.and_eq_true_iff.mp henabled
    unfold encodeByte
    split
    · exact .takeByte htakes v ‹_›
    · exact .noSym htakes v
  | sinEnd => exact coreTurn_ite (fun henabled => .takeEnd (Bool.and_eq_true_iff.mp henabled).1) h
  | boutByte v =>
    refine coreTurn_ite (fun henabled => ?_) h
    simp only [Bool.and_eq_true, Bool.or_eq_true, beq_iff_eq] at henabled
    obtain ⟨⟨hready, hroom⟩, rfl⟩ := henabled
    exact .putByte hready hroom
  | boutEnd => exact coreTurn_ite .close h
  | binByte v => exact coreTurn_ite (fun henabled => .takeBits (Bool.and_eq_true_iff.mp henabled).1 v) h
  | binEnd => exact coreTurn_ite (fun henabled => .truncated (Bool.and_eq_true_iff.mp henabled).1) h
  | soutByte v =>
    refine coreTurn_ite (fun henabled => ?_) h
    simp only [Bool.and_eq_true, beq_iff_eq] at henabled
    obtain ⟨⟨hsymbol, hroom⟩, rfl⟩ := henabled
    exact .emit hsymbol hroom
  | soutEnd =>
    refine coreTurn_ite (fun henabled => ?_) h
    obtain ⟨heos, hroom⟩ := Bool.and_eq_true_iff.mp henabled
    exact .eos heos hroom
  | _ => cases hitem

theorem exists_encode_decodeItem (ch : Channel) (it : Item) :
    ∃ it', encode (decodeItem ch it) = .item ch it' := by
  cases hend : itemEnd it with
  | false => exact ⟨it, encode_decodeItem_of_byte hend ch⟩
  | true => exact ⟨endItem, encode_decodeItem_of_end hend ch⟩

/-- An encode session runs channel items only. -/
theorem exists_item_of_encodeStep {s : State} {i : Instr} (h : encodeStep s = some i) :
    ∃ ch it, encode i = .item ch it := by
  unfold encodeStep at h
  split at h
  · cases h; exact ⟨_, _, rfl⟩
  · split at h
    · split at h <;> cases h
      exact ⟨_, _, rfl⟩
    · split at h
      · split at h <;> cases h
        exact ⟨_, exists_encode_decodeItem .sin _⟩
      · cases h

/-- The channel steps of a decode session are channel items. -/
theorem exists_item_of_decodeStep {s : State} {i : Instr} (h : decodeStep s = .channel i) :
    ∃ ch it, encode i = .item ch it := by
  unfold decodeStep at h
  split at h
  · cases h
  · split at h
    · cases h; exact ⟨_, _, rfl⟩
    · split at h
      · cases h; exact ⟨_, _, rfl⟩
      · split at h
        · split at h
          · cases h
          · split at h <;> cases h
            exact ⟨_, exists_encode_decodeItem .bin _⟩
        · cases h

/-- The two errors of a `BUILD` or its tree (R132, R139). -/
theorem coreTurn_buildComplete {s : State} (hactive : s.active = .build) :
    CoreTurn s (buildComplete s) := by
  unfold buildComplete
  split
  · exact .buildFails hactive _ _
  · split
    · exact .buildFails hactive _ _
    · exact .build hactive ‹_›

theorem coreTurn_consumeBit {s : State} : CoreTurn s (consumeBit s) := by
  unfold consumeBit
  split
  · exact .wait
  · split
    · exact .bit ‹_› ‹_›
    · exact .wait

/-- Every turn of the core is one of these. -/
theorem coreTurn_of_coreStep {s t : State} (h : coreStep s = .next t) : CoreTurn s t := by
  obtain ⟨-, rfl⟩ | ⟨hactive, rfl⟩ | ⟨hactive, rfl⟩ | ⟨hactive, rom, hmap, rfl⟩ | ⟨-, -, rfl⟩ |
    ⟨-, i, hstep, hexec⟩ | ⟨-, -, rfl⟩ | ⟨-, -, rfl⟩ | ⟨-, i, hstep, hexec⟩ := coreStep_cases h
  · exact .wait
  · exact .freqClr hactive
  · exact coreTurn_buildComplete hactive
  · exact .genmap hactive hmap
  · exact .wait
  · obtain ⟨ch, it, hitem⟩ := exists_item_of_encodeStep hstep
    exact coreTurn_of_exec_item hitem hexec
  · exact .wait
  · exact coreTurn_consumeBit
  · obtain ⟨ch, it, hitem⟩ := exists_item_of_decodeStep hstep
    exact coreTurn_of_exec_item hitem hexec

/-! ### The effect of a bus write -/

/-- `w` is the word of an operation command, one that R100 can turn away (R81). -/
def IsOperation (w : Word) : Prop := 1 ≤ w.toNat ∧ w.toNat ≤ 6

/-- The states a defined write of `v` at `off` can leave. Only the three kinds of `off` and `v` that a
statement asks for are told apart. -/
inductive Written (s : State) : Offset → Word → State → Prop
  /-- `NOP`, a write to `CTRL` or to an index, or a write that is ignored -/
  | registers (off : Offset) (v : Word) (c : BitVec 4) (fi : BitVec 9) (ni : BitVec 10) (ci : BitVec 9) :
      Written s off v { s with ctrl := c, freqIdx := fi, nodeIdx := ni, codeIdx := ci }
  /-- an error, or `EMULT` where one is recorded -/
  | raised (off : Offset) (v : Word) (e : ErrCause) (info : BitVec 16) : Written s off v (raise e info s)
  | store (v : Word) :
      Written s 0x024#12 v { s with freq := setFreq s.freq s.freqIdx.toNat v, freqIdx := s.freqIdx + 1 }
  | abort : Written s 0x008#12 7#32 { abandon (abortOperation s) with done := false }
  | clrErr : Written s 0x008#12 8#32 (clearError s)
  /-- an operation command that is accepted and finds no tree or no map -/
  | refused (w : Word) (hw : IsOperation w) (hs : Accepts s) (e : ErrCause) (info : BitVec 16) :
      Written s 0x008#12 w (raise e info { s with done := false })
  | freqClr (hs : Accepts s) : Written s 0x008#12 1#32 (freqClrAccepted { s with done := false })
  | build (hs : Accepts s) : Written s 0x008#12 2#32 (buildAccepted { s with done := false })
  | genmap (hs : Accepts s) (htree : s.treeValid = true) :
      Written s 0x008#12 3#32 { s with done := false, mapValid := false, active := .genmap }
  | encStart (hs : Accepts s) (hmap : s.mapValid = true) :
      Written s 0x008#12 4#32 { s with
        done := false, encBitCnt := 0, encSymCnt := 0, eSink := s.ctrl.getLsbD 0
        eOrd := s.ctrl.getLsbD 1, ebuf := [], efin := false, active := .encode }
  | decStart (hs : Accepts s) (htree : s.treeValid = true) :
      Written s 0x008#12 5#32 { s with
        done := false, decBitCnt := 0, decSymCnt := 0, dOrd := s.ctrl.getLsbD 1
        dbuf := [], decCur := s.root, active := .decode }
  | treeFree (hs : Accepts s) :
      Written s 0x008#12 6#32 (treeFreeAccepted { s with done := false })

/-- An operation command is turned away with an error, or accepted and then does its own part (R100). -/
theorem written_accept {s : State} {off : Offset} {w : Word} {op : BitVec 16} {body : State → State}
    (hbody : Accepts s → Written s off w (body { s with done := false })) :
    Written s off w (accept op body s) := by
  obtain ⟨herr, h⟩ | ⟨-, -, h⟩ | ⟨herr, hidle, h⟩ := accept_cases op body s <;> rw [h]
  · rw [← raise_of_err (e := .busy) (info := op) herr]
    exact .raised _ _ _ _
  · exact .raised _ _ _ _
  · exact hbody ⟨herr, hidle⟩

theorem written_writeFreqData (v : Word) (s : State) : Written s 0x024#12 v (writeFreqData v s) := by
  unfold writeFreqData
  split
  · exact .raised _ _ _ _
  · split
    · exact .raised _ _ _ _
    · exact .store v

/-- The effect of the instruction that a write carries. -/
theorem written_of_exec {s t : State} {i : Instr} {off : Offset} {v : Word}
    (henc : encode i = .busWrite off v) (h : exec i s = .next t) : Written s off v t := by
  cases i with
  | nop => cases henc; cases h; exact .registers _ _ s.ctrl s.freqIdx s.nodeIdx s.codeIdx
  | wrCtrl v => cases henc; cases h; exact .registers _ _ _ s.freqIdx s.nodeIdx s.codeIdx
  | wrFreqIdx v => cases henc; cases h; exact .registers _ _ s.ctrl _ s.nodeIdx s.codeIdx
  | wrNodeIdx v => cases henc; cases h; exact .registers _ _ s.ctrl s.freqIdx _ s.codeIdx
  | wrCodeIdx v => cases henc; cases h; exact .registers _ _ s.ctrl s.freqIdx s.nodeIdx _
  | wrFreqData v => cases henc; cases h; exact written_writeFreqData v s
  | abort => cases henc; cases h; exact .abort
  | clrErr => cases henc; cases h; exact .clrErr
  | freqClr => cases henc; cases h; exact written_accept .freqClr
  | build => cases henc; cases h; exact written_accept .build
  | treeFree => cases henc; cases h; exact written_accept .treeFree
  | genmap =>
    cases henc; cases h
    refine written_accept fun hs => ?_
    unfold genmapAccepted
    split
    · exact .genmap hs ‹_›
    · exact .refused _ ⟨by decide, by decide⟩ hs _ _
  | encStart =>
    cases henc; cases h
    refine written_accept fun hs => ?_
    unfold encStartAccepted
    split
    · exact .encStart hs ‹_›
    · exact .refused _ ⟨by decide, by decide⟩ hs _ _
  | decStart =>
    cases henc; cases h
    refine written_accept fun hs => ?_
    unfold decStartAccepted
    split
    · exact .decStart hs ‹_›
    · exact .refused _ ⟨by decide, by decide⟩ hs _ _
  | _ => cases henc

/-! ### A step -/

/-- The states a step can leave, with the move of the agenda that it makes. `ag` is the agenda that is left. -/
inductive Turn (s : State) : State → Prop
  | core (ag : List HostMove) {t : State} (h : CoreTurn { s with agenda := ag } t) : Turn s t
  /-- a read, `WAIT`, a bus error, or a write that has no effect -/
  | answer (ag : List HostMove) (a : Resp) : Turn s { s with agenda := ag, resp := a }
  | write {off : Offset} {v : Word} {rest : List HostMove} {t : State}
      (hagenda : s.agenda = .write off .w32 v :: rest)
      (h : Written { s with agenda := rest, resp := .written } off v t) : Turn s t
  | placeSin (ag : List HostMove) (it : Item) (hroom : canAccept s.chDepth s.sin = true) :
      Turn s { s with agenda := ag, sin := s.sin ++ [it] }
  | placeBin (ag : List HostMove) (it : Item) (hroom : canAccept s.chDepth s.bin = true) :
      Turn s { s with agenda := ag, bin := s.bin ++ [it] }
  | takeBout (ag : List HostMove) {it : Item} {rest : List Item} (hbout : s.bout = it :: rest) :
      Turn s { s with agenda := ag, bout := rest, resp := .item it, boutGot := s.boutGot ++ [it] }
  | takeSout (ag : List HostMove) {it : Item} {rest : List Item} (hsout : s.sout = it :: rest) :
      Turn s { s with agenda := ag, sout := rest, resp := .item it, soutGot := s.soutGot ++ [it] }
  | removeSin (ag : List HostMove) : Turn s { s with agenda := ag, sin := s.sin.tail }
  | removeBin (ag : List HostMove) : Turn s { s with agenda := ag, bin := s.bin.tail }
  | reset {a b c d : Bool} {rest : List HostMove} (hagenda : s.agenda = .reset a b c d :: rest) :
      Turn s (resetMove a b c d { s with agenda := rest })

theorem turn_takeBout (s : State) (ag : List HostMove) : Turn s (hostTakeBout { s with agenda := ag }) := by
  obtain ⟨h, -⟩ | ⟨it, rest, hbout, h⟩ := hostTakeBout_eq { s with agenda := ag } <;> rw [h]
  · exact .core ag .wait
  · exact .takeBout ag hbout

theorem turn_takeSout (s : State) (ag : List HostMove) : Turn s (hostTakeSout { s with agenda := ag }) := by
  obtain ⟨h, -⟩ | ⟨it, rest, hsout, h⟩ := hostTakeSout_eq { s with agenda := ag } <;> rw [h]
  · exact .core ag .wait
  · exact .takeSout ag hsout

theorem turn_write {s t : State} {off : Offset} {width : Width} {v : Word} {rest : List HostMove}
    (hagenda : s.agenda = .write off width v :: rest)
    (h : busWrite off width v { s with agenda := rest } = .next t) : Turn s t := by
  cases hdef : accessDefined off width with
  | false =>
    rw [busWrite, if_neg (ne_true_of_eq_false hdef)] at h
    cases h
    exact .answer rest _
  | true =>
    obtain ⟨rfl, -⟩ := accessDefined_iff.mp hdef
    obtain ⟨hundef, -⟩ | ⟨i, hdec, hexec⟩ | ⟨w, -, rfl⟩ | rfl := busWrite_cases h
    · rw [hdef] at hundef
      cases hundef
    · obtain ⟨henc, -⟩ := encode_of_decodeWrite hdec
      exact .write hagenda (written_of_exec henc hexec)
    · exact .write hagenda (.raised _ _ _ _)
    · exact .answer rest _

/-- Every step is one of these. -/
theorem turn_of_step {s t : State} (h : step s = .next t) : Turn s t := by
  obtain hcore | ⟨m, rest, hagenda, hready, hmove⟩ | rfl | rfl := step_cases h
  · exact .core s.agenda (coreTurn_of_coreStep hcore)
  · cases m with
    | core => exact .core rest (coreTurn_of_coreStep hmove)
    | read off width =>
      obtain ⟨a, rfl⟩ := busRead_cases hmove
      exact .answer rest a
    | write off width v => exact turn_write hagenda hmove
    | placeSin it => cases hmove; exact .placeSin rest it hready
    | placeBin it => cases hmove; exact .placeBin rest it hready
    | takeBout => cases hmove; exact turn_takeBout s rest
    | takeSout => cases hmove; exact turn_takeSout s rest
    | wait => cases hmove; exact .answer rest _
    | removeSin => cases hmove; exact .removeSin rest
    | removeBin => cases hmove; exact .removeBin rest
    | feedSin it => cases hmove; exact .placeSin rest it hready
    | feedBin it => cases hmove; exact .placeBin rest it hready
    | waitDrain => cases hmove; exact .answer rest _
    | reset a b c d => cases hmove; exact .reset hagenda
  · exact turn_takeBout s s.agenda
  · exact turn_takeSout s s.agenda

end Sys2Proof.Machine
end

section
/-! What every step keeps of the record and the flags: the error record (R26, R27), `DONE` (R107), the three
arrays (R30, R32, R34), and obligations O54, O55 and O56. -/

namespace Sys2Proof.Machine

section Layers

variable {s t : State} {off : Offset} {v : Word}

/-! ### The error record -/

/-- No turn of the core changes a record that stands (R252). -/
theorem CoreTurn.record (h : CoreTurn s t) (herr : s.errCode ≠ 0) :
    t.errCode = s.errCode ∧ t.errInfo = s.errInfo := by
  cases h with
  | buildFails => exact ⟨if_neg herr, if_neg herr⟩
  | noSym => exact ⟨if_neg herr, if_neg herr⟩
  | truncated => exact ⟨if_neg herr, if_neg herr⟩
  | close => split <;> exact ⟨rfl, rfl⟩
  | _ => exact ⟨rfl, rfl⟩

/-- While an error is recorded no command is accepted, and only `CLR_ERR` clears the record (R259). -/
theorem Written.record (h : Written s off v t) (herr : s.errCode ≠ 0) :
    (t.errCode = s.errCode ∧ t.errInfo = s.errInfo) ∨ (off = 0x008#12 ∧ v = 8#32) := by
  cases h with
  | registers => exact .inl ⟨rfl, rfl⟩
  | raised => exact .inl ⟨if_neg herr, if_neg herr⟩
  | store => exact .inl ⟨rfl, rfl⟩
  | abort => rw [abortOperation_eq]; exact .inl ⟨rfl, rfl⟩
  | clrErr => exact .inr ⟨rfl, rfl⟩
  | refused _ _ hs => exact absurd hs.1 herr
  | freqClr hs => exact absurd hs.1 herr
  | build hs => exact absurd hs.1 herr
  | genmap hs => exact absurd hs.1 herr
  | encStart hs => exact absurd hs.1 herr
  | decStart hs => exact absurd hs.1 herr
  | treeFree hs => exact absurd hs.1 herr

/-- Settles O54: of the turns only a write can change the record, and reset. -/
theorem errorRecordIsSticky : Obligations.ErrorRecordIsSticky := by
  intro s t herr hstep
  cases turn_of_step hstep with
  | core _ h => exact .inl (h.record herr)
  | write hagenda h =>
    obtain hkept | ⟨rfl, rfl⟩ := h.record herr
    · exact .inl hkept
    · exact .inr (.inl ⟨_, hagenda⟩)
  | reset hagenda => exact .inr (.inr ⟨_, _, _, _, _, hagenda⟩)
  | _ => exact .inl ⟨rfl, rfl⟩

/-! ### `DONE` -/

/-- The completion of a running operation (R9, R107): from `s` to `t`. -/
def Completes (s t : State) : Prop :=
  s.active ≠ .idle ∧ t.active = .idle ∧ t.done = true ∧ t.errCode = s.errCode

/-- A turn of the core keeps `DONE`, but for a completion (R107). -/
theorem CoreTurn.done_cases (h : CoreTurn s t) : t.done = s.done ∨ Completes s t := by
  cases h with
  | freqClr hactive => exact .inr ⟨by simp [hactive], rfl, rfl, rfl⟩
  | build hactive => exact .inr ⟨by simp [hactive], rfl, rfl, rfl⟩
  | genmap hactive => exact .inr ⟨by simp [hactive], rfl, rfl, rfl⟩
  | close hready =>
    obtain ⟨hactive, -⟩ := closeReady_iff.mp hready
    exact .inr ⟨by simp [hactive], rfl, rfl, by split <;> rfl⟩
  | eos heos => exact .inr ⟨by simp [(atEos_iff.mp heos).1], rfl, rfl, rfl⟩
  | _ => exact .inl rfl

/-- A write sets `DONE` by `TREE_FREE`, and clears it by `ABORT` or by an operation command that is accepted
(R100, R104, R105). -/
theorem Written.done_cases (h : Written s off v t) :
    t.done = s.done ∨
    (off = 0x008#12 ∧ v = 6#32 ∧ t.active = .idle ∧ t.done = true ∧ t.errCode = s.errCode) ∨
    (off = 0x008#12 ∧ t.done = false ∧ (v = 7#32 ∨ IsOperation v ∧ Accepts s)) := by
  cases h with
  | registers => exact .inl rfl
  | raised => exact .inl rfl
  | store => exact .inl rfl
  | abort => exact .inr (.inr ⟨rfl, rfl, .inl rfl⟩)
  | clrErr => exact .inl rfl
  | refused w hw hs => exact .inr (.inr ⟨rfl, rfl, .inr ⟨hw, hs⟩⟩)
  | freqClr hs => exact .inr (.inr ⟨rfl, rfl, .inr ⟨⟨by decide, by decide⟩, hs⟩⟩)
  | build hs => exact .inr (.inr ⟨rfl, rfl, .inr ⟨⟨by decide, by decide⟩, hs⟩⟩)
  | genmap hs => exact .inr (.inr ⟨rfl, rfl, .inr ⟨⟨by decide, by decide⟩, hs⟩⟩)
  | encStart hs => exact .inr (.inr ⟨rfl, rfl, .inr ⟨⟨by decide, by decide⟩, hs⟩⟩)
  | decStart hs => exact .inr (.inr ⟨rfl, rfl, .inr ⟨⟨by decide, by decide⟩, hs⟩⟩)
  | treeFree => exact .inr (.inl ⟨rfl, rfl, rfl, rfl, rfl⟩)

/-- What a step does to `DONE`, with the move that does it. -/
theorem Turn.done_cases (h : Turn s t) :
    t.done = s.done ∨ Completes s t ∨
    (∃ rest, s.agenda = .write 0x008#12 .w32 6#32 :: rest ∧
      t.active = .idle ∧ t.done = true ∧ t.errCode = s.errCode) ∨
    (∃ w rest, s.agenda = .write 0x008#12 .w32 w :: rest ∧ t.done = false ∧
      (w = 7#32 ∨ IsOperation w ∧ Accepts s)) ∨
    (∃ a b c d rest, s.agenda = .reset a b c d :: rest ∧ t.done = false) := by
  cases h with
  | core _ h => exact h.done_cases.imp_right .inl
  | write hagenda h =>
    obtain hkept | ⟨rfl, rfl, hset⟩ | ⟨rfl, hclear, hw⟩ := h.done_cases
    · exact .inl hkept
    · exact .inr (.inr (.inl ⟨_, hagenda, hset⟩))
    · exact .inr (.inr (.inr (.inl ⟨_, _, hagenda, hclear, hw⟩)))
  | reset hagenda => exact .inr (.inr (.inr (.inr ⟨_, _, _, _, _, hagenda, rfl⟩)))
  | _ => exact .inl rfl

/-- Settles O55: each way to change `DONE` changes it in one direction. -/
theorem doneIsSetByCompletionOnly : Obligations.DoneIsSetByCompletionOnly := by
  intro s t hstep
  obtain hkept | ⟨hrun, hidle, hset, hrec⟩ | ⟨rest, hagenda, hidle, hset, hrec⟩ |
    ⟨w, rest, hagenda, hclear, hw⟩ | ⟨a, b, c, d, rest, hagenda, hclear⟩ := (turn_of_step hstep).done_cases
  · rw [hkept]
    cases s.done <;> simp
  · exact ⟨fun _ _ => ⟨hidle, hrec, .inl hrun⟩, fun _ h => by simp [hset] at h⟩
  · exact ⟨fun _ _ => ⟨hidle, hrec, .inr ⟨rest, hagenda⟩⟩, fun _ h => by simp [hset] at h⟩
  · refine ⟨fun _ h => by simp [hclear] at h, fun _ _ => .inl ⟨w, rest, hagenda, hw.imp_right ?_⟩⟩
    rintro ⟨⟨hlo, hhi⟩, herr, hidle⟩
    exact ⟨hlo, hhi, herr, hidle⟩
  · exact ⟨fun _ h => by simp [hclear] at h, fun _ _ => .inr ⟨a, b, c, d, rest, hagenda⟩⟩

/-! ### The three arrays -/

/-- A turn of the core writes an array only by the completion of that array's operation. -/
theorem CoreTurn.arrays (h : CoreTurn s t) :
    (t.freq = s.freq ∨ s.active = .freqClr) ∧ (t.node = s.node ∨ s.active = .build) ∧
      (t.code = s.code ∨ s.active = .genmap) := by
  cases h with
  | freqClr hactive => exact ⟨.inr hactive, .inl rfl, .inl rfl⟩
  | build hactive => exact ⟨.inl rfl, .inr hactive, .inl rfl⟩
  | genmap hactive => exact ⟨.inl rfl, .inl rfl, .inr hactive⟩
  | close => split <;> exact ⟨.inl rfl, .inl rfl, .inl rfl⟩
  | _ => exact ⟨.inl rfl, .inl rfl, .inl rfl⟩

/-- A write writes `FREQ` by a store or by the abort of a clear, `NODE` by `BUILD` and never `CODE`. -/
theorem Written.arrays (h : Written s off v t) :
    (t.freq = s.freq ∨ s.active = .freqClr ∨ off = 0x024#12) ∧
      (t.node = s.node ∨ off = 0x008#12 ∧ v = 2#32) ∧ t.code = s.code := by
  cases h with
  | store => exact ⟨.inr (.inr rfl), .inl rfl, rfl⟩
  | abort =>
    rw [abortOperation_eq]
    refine ⟨?_, .inl rfl, rfl⟩
    by_cases hclr : s.active = .freqClr
    · exact .inr (.inl hclr)
    · exact .inl (if_neg hclr)
  | build => exact ⟨.inl rfl, .inr ⟨rfl, rfl⟩, rfl⟩
  | _ => exact ⟨.inl rfl, .inl rfl, rfl⟩

/-- Settles O56: a turn of the core or a write; the other moves write no array. -/
theorem arraysHaveOneWriter : Obligations.ArraysHaveOneWriter := by
  intro s t hstep hreset
  cases turn_of_step hstep with
  | core _ h =>
    obtain ⟨hfreq, hnode, hcode⟩ := h.arrays
    exact ⟨hfreq.imp_right .inl, hnode.imp_right .inl, hcode⟩
  | write hagenda h =>
    obtain ⟨hfreq, hnode, hcode⟩ := h.arrays
    refine ⟨hfreq.imp_right (Or.imp_right ?_), hnode.imp_right fun hw => .inr ?_, .inl hcode⟩
    · rintro rfl
      exact ⟨_, _, hagenda⟩
    · obtain ⟨rfl, rfl⟩ := hw
      exact ⟨_, hagenda⟩
  | reset hagenda => exact absurd hagenda (hreset _ _ _ _ _)
  | _ => exact ⟨.inl rfl, .inl rfl, .inl rfl⟩

end Layers

end Sys2Proof.Machine
end

section
/-! The invariant of the machine (`Inv`): what it reads of a state, that every turn of the core, every write
and every step keep it, that no state of it stops the machine, and obligations O57, O58 and O59. -/

namespace Sys2Proof.Machine

/-! ### What the invariant reads -/

/-- `s` with every field cleared that the invariant does not read. -/
def invPart (s : State) : State :=
  { s with
    ctrl := 0, emult := false, errCode := 0, errInfo := 0, freqIdx := 0, freq := zeroFreq, nodeIdx := 0
    codeIdx := 0, encBitCnt := 0, encSymCnt := 0, decBitCnt := 0, decSymCnt := 0, efin := false
    eOrd := false, dOrd := false, sin := [], bout := [], bin := [], sout := [], chDepth := .unbounded
    agenda := [], resp := .none, boutGot := [], soutGot := [], draws := 0 }

theorem inv_invPart {s : State} : Inv (invPart s) ↔ Inv s :=
  ⟨fun h => ⟨h.tree, h.noTree, h.map, h.running, h.building, h.mapping, h.encoding, h.decoding,
      h.dbufLength⟩,
    fun h => ⟨h.tree, h.noTree, h.map, h.running, h.building, h.mapping, h.encoding, h.decoding,
      h.dbufLength⟩⟩

section Keeps

variable {s t : State} {off : Offset} {v : Word}

/-- Two states that agree in what the invariant reads meet it together. -/
theorem Inv.congr (h : Inv s) (hpart : invPart t = invPart s) : Inv t :=
  inv_invPart.mp (hpart ▸ inv_invPart.mpr h)

/-- With no operation running, the invariant is about the tree, the map and `DBUF`. -/
theorem Inv.of_idle (hidle : s.active = .idle)
    (htree : s.treeValid = true → TreeOk s.node s.root.toNat s.nleaf.toNat)
    (hnoTree : s.treeValid = false → s.root = 0 ∧ s.nleaf = 0)
    (hmap : s.mapValid = true → MapOk s.code) (hdbuf : s.dbuf.length ≤ 8) : Inv s where
  tree := htree
  noTree := hnoTree
  map := hmap
  running hrun := absurd hidle hrun
  building hrun := by simp [hidle] at hrun
  mapping hrun := by simp [hidle] at hrun
  encoding hrun := by simp [hidle] at hrun
  decoding hrun := by simp [hidle] at hrun
  dbufLength := hdbuf

/-- The state after an operation has ended, or before the next one is accepted. -/
theorem Inv.ended (h : Inv s) (hpart : invPart { s with
    active := .idle, done := t.done, ebuf := t.ebuf, dbuf := t.dbuf } = invPart t)
    (hdbuf : t.dbuf.length ≤ 8) : Inv t := by
  have hs : Inv { s with active := .idle, done := t.done, ebuf := t.ebuf, dbuf := t.dbuf } :=
    Inv.of_idle rfl h.tree h.noTree h.map hdbuf
  exact hs.congr hpart.symm

/-! ### A turn of the core -/

/-- A successful `BUILD` leaves a tree and no map (R131, R137). -/
theorem Inv.build (h : Inv s) (hactive : s.active = .build) (heof : freqAt s.freq 256 ≠ 0)
    (hstep : coreStep s = .next t) : Inv t := by
  obtain ⟨-, hnoMap, hnone⟩ := h.building hactive
  obtain ⟨ram, k, -, hF, hstep'⟩ := Buildable.exists_coreStep_eq ⟨hactive, hnone, heof⟩
  rw [hstep] at hstep'
  cases hstep'
  refine Inv.of_idle rfl (fun _ => ?_) (fun hno => by cases hno) (fun hmap => ?_) h.dbufLength
  · have hroot : (built s ram k).root.toNat = 256 + k := hF.root_toNat
    have hnleaf : (built s ram k).nleaf.toNat = k + 1 := hF.nleaf_toNat
    rw [hroot, hnleaf]
    exact hF.treeOk heof
  · have hmap : s.mapValid = true := hmap
    rw [hnoMap] at hmap
    cases hmap

/-- The map that `GENMAP` makes of a tree is the map of that tree. -/
theorem TreeOk.mapOfTree_of_genMap {ram : NodeRam} {root nleaf : Nat} (h : TreeOk ram root nleaf)
    {rom : CodeRom} (hgen : genMap ram root = some rom) : MapOfTree ram root rom := by
  obtain ⟨rom', hgen', hmap⟩ := h.exists_genMap_eq
  rw [hgen] at hgen'
  cases hgen'
  exact hmap

/-- A `GENMAP` over the tree leaves its map (R46, R152). -/
theorem Inv.genmap (h : Inv s) (hactive : s.active = .genmap) {rom : CodeRom}
    (hgen : genMap s.node s.root.toNat = some rom) :
    Inv (complete { s with code := rom, mapValid := true }) := by
  obtain ⟨htree, -⟩ := h.mapping hactive
  have htreeOk := h.tree htree
  have hmap := htreeOk.mapOfTree_of_genMap hgen
  exact Inv.of_idle rfl h.tree h.noTree (fun _ => hmap.mapOk htreeOk) h.dbufLength

/-- The encoder takes a symbol only when it holds less than a byte, so that 263 bits are never passed
(R41, R172). -/
theorem Inv.appendCode (h : Inv s) (htakes : encTakes s = true) {x : Nat} (hx : x < 257)
    (hcode : (codeAt s.code x).valid = true) : Inv (appendCode x s) := by
  obtain ⟨hactive, -, hroom⟩ := encTakes_iff.mp htakes
  obtain ⟨hmap, -, hcount⟩ := h.encoding hactive
  exact ⟨h.tree, h.noTree, h.map, h.running, h.building, h.mapping,
    fun _ => ⟨hmap, appended_length_le (h.map hmap) hx hcode hroom s.eSink,
      fun hsink => (if_neg (ne_true_of_eq_false hsink)).trans (hcount hsink)⟩,
    h.decoding, h.dbufLength⟩

/-- Putting a byte shortens `EBUF` (R174, R175). -/
theorem Inv.putByte (h : Inv s) : Inv { s with ebuf := s.ebuf.drop 8 } := by
  refine ⟨h.tree, h.noTree, h.map, h.running, h.building, h.mapping, fun hactive => ?_, h.decoding,
    h.dbufLength⟩
  obtain ⟨hmap, hlen, hcount⟩ := h.encoding hactive
  refine ⟨hmap, ?_, fun hsink => ?_⟩
  · rw [List.length_drop]
    omega
  · rw [hcount hsink, List.drop_nil]

theorem Inv.takeBits (h : Inv s) (v : Byte) : Inv { s with dbuf := unpack v s.dOrd } :=
  ⟨h.tree, h.noTree, h.map, h.running, h.building, h.mapping, h.encoding, h.decoding,
    (unpack_length v s.dOrd).le⟩

/-- A bit leads from an internal node to one of its children, which is a valid node (R45, R205). -/
theorem Inv.bit (h : Inv s) (hinternal : atInternal s = true) {b : Bool} {rest : Bits}
    (hbuf : s.dbuf = b :: rest) :
    Inv { s with dbuf := rest, decCur := if b then (curNode s).one else (curNode s).zero } := by
  obtain ⟨hactive, hsym⟩ := atInternal_iff.mp hinternal
  obtain ⟨htree, hv⟩ := h.decoding hactive
  have htreeOk := h.tree htree
  have hchild := (htreeOk.childAt_spec hv ((htreeOk.sym_eq_marker_iff hv).mp hsym) b).2
  refine ⟨h.tree, h.noTree, h.map, h.running, h.building, h.mapping, h.encoding, fun _ => ⟨htree, ?_⟩, ?_⟩
  · cases b <;> exact hchild
  · have hlen := h.dbufLength
    rw [hbuf, List.length_cons] at hlen
    exact Nat.le_of_succ_le hlen

theorem Inv.emit (h : Inv s) (hactive : s.active = .decode) : Inv { s with decCur := s.root } := by
  obtain ⟨htree, -⟩ := h.decoding hactive
  exact ⟨h.tree, h.noTree, h.map, h.running, h.building, h.mapping, h.encoding,
    fun _ => ⟨htree, (h.tree htree).rootValid⟩, h.dbufLength⟩

theorem CoreTurn.keeps_inv (h : CoreTurn s t) (hinv : Inv s) : Inv t := by
  cases h with
  | wait => exact hinv
  | freqClr => exact hinv.ended rfl hinv.dbufLength
  | buildFails => exact hinv.ended rfl hinv.dbufLength
  | build hactive heof =>
    have hne : present s.freq ≠ [] := List.ne_nil_of_mem (eof_mem_present.mpr heof)
    exact hinv.build hactive heof (by rw [coreStep_of_build hactive, buildComplete, if_neg hne, if_neg heof])
  | genmap hactive hmap => exact hinv.genmap hactive hmap
  | takeByte htakes v hcode => exact (hinv.appendCode htakes (by omega) hcode).congr rfl
  | noSym => exact hinv.ended rfl hinv.dbufLength
  | takeEnd htakes =>
    obtain ⟨hactive, -⟩ := encTakes_iff.mp htakes
    obtain ⟨hmap, -⟩ := hinv.encoding hactive
    exact (hinv.appendCode htakes (by omega) (hinv.map hmap).eosCode).congr rfl
  | putByte => exact hinv.putByte.congr rfl
  | close => exact hinv.ended (by split <;> rfl) (by split <;> exact hinv.dbufLength)
  | takeBits _ v => exact (hinv.takeBits v).congr rfl
  | truncated => exact hinv.ended rfl (Nat.zero_le _)
  | bit hinternal hbuf => exact (hinv.bit hinternal hbuf).congr rfl
  | emit hsymbol => exact (hinv.emit (atSymbol_iff.mp hsymbol).1).congr rfl
  | eos => exact hinv.ended rfl (Nat.zero_le _)

/-! ### A write and a step -/

theorem Written.keeps_inv (h : Written s off v t) (hinv : Inv s) : Inv t := by
  cases h with
  | registers => exact hinv.congr rfl
  | raised => exact hinv.congr rfl
  | store => exact hinv.congr rfl
  | abort =>
    rw [abortOperation_eq]
    refine hinv.ended rfl ?_
    show (if s.active = .decode then [] else s.dbuf).length ≤ 8
    split
    · exact Nat.zero_le _
    · exact hinv.dbufLength
  | clrErr => exact hinv.congr rfl
  | refused _ _ hs => exact hinv.ended (by rw [← hs.2]; rfl) hinv.dbufLength
  | freqClr =>
    exact ⟨hinv.tree, hinv.noTree, hinv.map, fun _ => rfl, nofun, nofun, nofun, nofun, hinv.dbufLength⟩
  | build =>
    exact ⟨nofun, fun _ => ⟨rfl, rfl⟩, nofun, fun _ => rfl,
      fun _ => ⟨rfl, rfl, nodeAt_invalidateNodes_valid s.node⟩, nofun, nofun, nofun, hinv.dbufLength⟩
  | genmap _ htree =>
    exact ⟨hinv.tree, hinv.noTree, nofun, fun _ => rfl, nofun, fun _ => ⟨htree, rfl⟩, nofun, nofun,
      hinv.dbufLength⟩
  | encStart _ hmap =>
    exact ⟨hinv.tree, hinv.noTree, hinv.map, fun _ => rfl, nofun, nofun,
      fun _ => ⟨hmap, Nat.zero_le _, fun _ => rfl⟩, nofun, hinv.dbufLength⟩
  | decStart _ htree =>
    exact ⟨hinv.tree, hinv.noTree, hinv.map, fun _ => rfl, nofun, nofun, nofun,
      fun _ => ⟨htree, (hinv.tree htree).rootValid⟩, Nat.zero_le _⟩
  | treeFree =>
    exact Inv.of_idle rfl nofun (fun _ => ⟨rfl, rfl⟩) hinv.map hinv.dbufLength

/-- Reset leaves no tree, no map and no operation (R281), so it makes the invariant true. -/
theorem inv_afterReset (draw : Nat) (sin bout bin sout : List Item) (depth : ChDepth)
    (agenda : List HostMove) (boutGot soutGot : List Item) :
    Inv (State.afterReset draw sin bout bin sout depth agenda boutGot soutGot) :=
  Inv.of_idle rfl nofun (fun _ => ⟨rfl, rfl⟩) nofun (Nat.zero_le _)

/-- Settles O57: the reset state is one of those that reset leaves. -/
theorem resetHasTheInvariant : Obligations.ResetHasTheInvariant := inv_afterReset _ _ _ _ _ _ _ _ _

/-- Settles O58: the core and the writes keep the invariant, reset makes it true, and it does not read what
the host's other moves change. -/
theorem stepKeepsTheInvariant : Obligations.StepKeepsTheInvariant := by
  intro s t hinv hstep
  cases turn_of_step hstep with
  | core ag h => exact h.keeps_inv (hinv.congr rfl)
  | write _ h => exact h.keeps_inv (hinv.congr rfl)
  | reset => exact inv_afterReset _ _ _ _ _ _ _ _ _
  | _ => exact hinv.congr rfl

/-! ### No state of the invariant stops the machine -/

/-- Over a tree the walk and the decode step have an answer, and nothing else can fail (log 10). -/
theorem Inv.exists_coreStep_eq (h : Inv s) : ∃ t, coreStep s = .next t := by
  cases hactive : s.active with
  | idle => exact ⟨s, by simp only [coreStep, hactive]⟩
  | freqClr => exact ⟨_, coreStep_of_freqClr hactive⟩
  | build => exact ⟨_, coreStep_of_build hactive⟩
  | genmap =>
    obtain ⟨htree, -⟩ := h.mapping hactive
    obtain ⟨rom, hstep, -⟩ := exists_coreStep_eq_of_genmap hactive (h.tree htree)
    exact ⟨_, hstep⟩
  | encode =>
    cases hstep : encodeStep s with
    | none => exact ⟨s, coreStep_of_no_encodeStep hactive hstep⟩
    | some i => exact coreStep_of_encodeStep hactive hstep ▸ exec_total i s
  | decode =>
    cases hstep : decodeStep s with
    | channel i => exact coreStep_of_channel hactive hstep ▸ exec_total i s
    | bit => exact ⟨_, coreStep_of_bit hactive hstep⟩
    | wait => exact ⟨s, coreStep_of_wait hactive hstep⟩
    | broken =>
      obtain ⟨-, ⟨-, h⟩ | ⟨-, h⟩ | ⟨-, -, hnil, hcons⟩ | ⟨-, -, h⟩⟩ :=
        decodeStepSelection s h hactive
      · simp [hstep] at h
      · simp [hstep] at h
      · cases hbin : s.bin with
        | nil => simp [hstep] at hnil; exact absurd hbin hnil
        | cons it rest => simp [hcons it rest hbin] at hstep
      · simp [hstep] at h

theorem exists_busRead_eq (off : Offset) (width : Width) (s : State) :
    ∃ t, busRead off width s = .next t := by
  unfold busRead
  split
  · split
    · exact exec_total _ s
    all_goals exact ⟨_, rfl⟩
  · exact ⟨_, rfl⟩

theorem exists_busWrite_eq (off : Offset) (width : Width) (v : Word) (s : State) :
    ∃ t, busWrite off width v s = .next t := by
  unfold busWrite
  split
  · split
    · exact exec_total _ _
    all_goals exact ⟨_, rfl⟩
  · exact ⟨_, rfl⟩

theorem Inv.exists_hostMove_eq (h : Inv s) (m : HostMove) : ∃ t, hostMove m s = .next t := by
  cases m with
  | core => exact h.exists_coreStep_eq
  | read off width => exact exists_busRead_eq off width s
  | write off width v => exact exists_busWrite_eq off width v s
  | _ => exact ⟨_, rfl⟩

/-- Settles O59: every move but the core's always answers, and the core's answers under the invariant. -/
theorem invariantStatesNeverStop : Obligations.InvariantStatesNeverStop := by
  intro s hinv
  unfold step machineStep
  split
  · exact hinv.exists_coreStep_eq
  · rename_i m rest _
    have hpopped : Inv { s with agenda := rest } := hinv.congr rfl
    split
    · exact hpopped.exists_hostMove_eq m
    · obtain hcore | ⟨-, -, htake⟩ | ⟨-, -, -, htake⟩ := blockedStep_cases m s
      · exact hcore ▸ hinv.exists_coreStep_eq
      · exact ⟨_, htake⟩
      · exact ⟨_, htake⟩

end Keeps

end Sys2Proof.Machine
end

section
/-! The channels (R43, R70, R298): their capacity, the host's moves at their ends, the moves that are not
possible yet, and obligation O60. -/

namespace Sys2Proof.Machine

/-! ### Capacity -/

theorem canAccept_items_iff {n : Nat} {ch : List Item} :
    canAccept (.items n) ch = true ↔ ch.length < n + 1 :=
  decide_eq_true_iff

/-- A channel that can accept an item has room for it (R298). -/
theorem FitsDepth.append {d : ChDepth} {ch : List Item} (hroom : canAccept d ch = true) (it : Item) :
    FitsDepth d (ch ++ [it]) := by
  cases d with
  | unbounded => trivial
  | items n =>
    have hlt := canAccept_items_iff.mp hroom
    show (ch ++ [it]).length ≤ n + 1
    rw [List.length_append, List.length_singleton]
    omega

/-- A part of what fits, fits. -/
theorem FitsDepth.of_length_le {d : ChDepth} {ch ch' : List Item} (h : FitsDepth d ch)
    (hlen : ch'.length ≤ ch.length) : FitsDepth d ch' := by
  cases d with
  | unbounded => trivial
  | items n => exact hlen.trans h

theorem FitsDepth.tail {d : ChDepth} {ch : List Item} (h : FitsDepth d ch) : FitsDepth d ch.tail :=
  h.of_length_le (by rw [List.length_tail]; omega)

theorem FitsDepth.of_cons {d : ChDepth} {it : Item} {ch rest : List Item} (h : FitsDepth d ch)
    (hcons : ch = it :: rest) : FitsDepth d rest := by
  subst hcons
  exact h.tail

theorem FitsDepth.afterReset {d : ChDepth} {ch : List Item} (h : FitsDepth d ch) (empty : Bool) :
    FitsDepth d (channelAfterReset empty ch) := by
  cases empty
  · exact h
  · exact h.of_length_le (Nat.zero_le _)

section Keeps

variable {s t : State} {off : Offset} {v : Word}

/-- A turn of the core takes heads, and puts only where there is room (R298). -/
theorem CoreTurn.keeps_fit (h : CoreTurn s t) (hfit : ChannelsFit s) :
    ChannelsFit t ∧ t.chDepth = s.chDepth := by
  obtain ⟨hsin, hbout, hbin, hsout⟩ := hfit
  cases h with
  | takeByte => exact ⟨⟨hsin.tail, hbout, hbin, hsout⟩, rfl⟩
  | noSym => exact ⟨⟨hsin.tail, hbout, hbin, hsout⟩, rfl⟩
  | takeEnd => exact ⟨⟨hsin.tail, hbout, hbin, hsout⟩, rfl⟩
  | putByte _ hroom => exact ⟨⟨hsin, .append hroom _, hbin, hsout⟩, rfl⟩
  | close hready =>
    obtain ⟨-, -, -, hroom⟩ := closeReady_iff.mp hready
    split
    · exact ⟨⟨hsin, .append (hroom ‹_›) _, hbin, hsout⟩, rfl⟩
    · exact ⟨⟨hsin, hbout, hbin, hsout⟩, rfl⟩
  | takeBits => exact ⟨⟨hsin, hbout, hbin.tail, hsout⟩, rfl⟩
  | truncated => exact ⟨⟨hsin, hbout, hbin.tail, hsout⟩, rfl⟩
  | emit _ hroom => exact ⟨⟨hsin, hbout, hbin, .append hroom _⟩, rfl⟩
  | eos _ hroom => exact ⟨⟨hsin, hbout, hbin, .append hroom _⟩, rfl⟩
  | _ => exact ⟨⟨hsin, hbout, hbin, hsout⟩, rfl⟩

/-- No register access moves an item (R86). -/
theorem Written.keeps_fit (h : Written s off v t) (hfit : ChannelsFit s) :
    ChannelsFit t ∧ t.chDepth = s.chDepth := by
  obtain ⟨hsin, hbout, hbin, hsout⟩ := hfit
  cases h with
  | abort => rw [abortOperation_eq]; exact ⟨⟨hsin, hbout, hbin, hsout⟩, rfl⟩
  | _ => exact ⟨⟨hsin, hbout, hbin, hsout⟩, rfl⟩

theorem Turn.keeps_fit (h : Turn s t) (hfit : ChannelsFit s) : ChannelsFit t ∧ t.chDepth = s.chDepth := by
  obtain ⟨hsin, hbout, hbin, hsout⟩ := hfit
  cases h with
  | core _ h => exact h.keeps_fit ⟨hsin, hbout, hbin, hsout⟩
  | answer => exact ⟨⟨hsin, hbout, hbin, hsout⟩, rfl⟩
  | write _ h => exact h.keeps_fit ⟨hsin, hbout, hbin, hsout⟩
  | placeSin _ it hroom => exact ⟨⟨.append hroom it, hbout, hbin, hsout⟩, rfl⟩
  | placeBin _ it hroom => exact ⟨⟨hsin, hbout, .append hroom it, hsout⟩, rfl⟩
  | takeBout _ hcons => exact ⟨⟨hsin, hbout.of_cons hcons, hbin, hsout⟩, rfl⟩
  | takeSout _ hcons => exact ⟨⟨hsin, hbout, hbin, hsout.of_cons hcons⟩, rfl⟩
  | removeSin => exact ⟨⟨hsin.tail, hbout, hbin, hsout⟩, rfl⟩
  | removeBin => exact ⟨⟨hsin, hbout, hbin.tail, hsout⟩, rfl⟩
  | reset => exact ⟨⟨hsin.afterReset _, hbout.afterReset _, hbin.afterReset _, hsout.afterReset _⟩, rfl⟩

/-- A turn of the core is no move of the agenda (log 1). -/
theorem CoreTurn.agenda (h : CoreTurn s t) : t.agenda = s.agenda := by
  cases h with
  | close => split <;> rfl
  | _ => rfl

end Keeps

/-! ### The host's moves -/

theorem hostTakeBout_of_cons {s : State} {it : Item} {ch : List Item} (h : s.bout = it :: ch) :
    hostTakeBout s = { s with bout := ch, resp := .item it, boutGot := s.boutGot ++ [it] } := by
  simp only [hostTakeBout, h]

theorem hostTakeSout_of_cons {s : State} {it : Item} {ch : List Item} (h : s.sout = it :: ch) :
    hostTakeSout s = { s with sout := ch, resp := .item it, soutGot := s.soutGot ++ [it] } := by
  simp only [hostTakeSout, h]

/-- When each move at the end of a channel is possible (R92, R298; log 20, log 21). -/
theorem hostReady_iffs (s : State) :
    (hostReady .takeBout s = true ↔ s.bout ≠ []) ∧ (hostReady .takeSout s = true ↔ s.sout ≠ []) ∧
    (hostReady .removeSin s = true ↔ s.active ≠ .encode) ∧
    (hostReady .removeBin s = true ↔ s.active ≠ .decode) ∧
    (hostReady .wait s = true ↔ s.active = .idle) ∧
    (hostReady .waitDrain s = true ↔ s.active = .idle ∧ s.bout = [] ∧ s.sout = []) := by
  simp [hostReady, and_assoc]

/-- A move that is not possible yet stays on the agenda (log 13). -/
theorem step_of_blocked {s : State} {m : HostMove} {rest : List HostMove} (hagenda : s.agenda = m :: rest)
    (hblocked : hostReady m s = false) : step s = blockedStep m s := by
  simp only [step, machineStep, hagenda, if_neg (ne_true_of_eq_false hblocked)]

theorem blockedStep_of_no_drain {s : State} {m : HostMove}
    (h : hostDrains m = false ∨ (s.bout = [] ∧ s.sout = [])) : blockedStep m s = coreStep s := by
  unfold blockedStep
  obtain hdrains | ⟨hbout, hsout⟩ := h
  · simp [hdrains]
  · simp [hbout, hsout]

/-- Settles O60: the capacity step by step; each move at the end of its channel; a blocked move by what the
host drains. -/
theorem channelsAreFifos : Obligations.ChannelsAreFifos := by
  refine ⟨fun s t hfit hstep => (turn_of_step hstep).keeps_fit hfit,
    fun n ch => ⟨canAccept_items_iff, rfl⟩, fun s it rest => ⟨?_, ?_⟩, fun s it ch rest => ⟨?_, ?_⟩,
    fun s rest => ?_, fun s m rest hagenda hblocked => ⟨?_, ?_, ?_⟩,
    fun s it => ⟨rfl, rfl, rfl, rfl, hostReady_iffs s⟩⟩
  · rintro (hagenda | hagenda) hroom <;> exact step_of_hostReady hagenda hroom
  · rintro (hagenda | hagenda) hroom <;> exact step_of_hostReady hagenda hroom
  · intro hagenda hbout
    obtain ⟨hready, -⟩ := hostReady_iffs s
    rw [step_of_hostReady hagenda (hready.mpr (by simp [hbout]))]
    exact congrArg Host.Outcome.next (hostTakeBout_of_cons (s := { s with agenda := rest }) hbout)
  · intro hagenda hsout
    obtain ⟨-, hready, -⟩ := hostReady_iffs s
    rw [step_of_hostReady hagenda (hready.mpr (by simp [hsout]))]
    exact congrArg Host.Outcome.next (hostTakeSout_of_cons (s := { s with agenda := rest }) hsout)
  · obtain ⟨-, -, hremoveSin, hremoveBin, hwait, hdrain⟩ := hostReady_iffs s
    exact ⟨fun hagenda h => step_of_hostReady hagenda (hremoveSin.mpr h),
      fun hagenda h => step_of_hostReady hagenda (hremoveBin.mpr h),
      fun hagenda h => step_of_hostReady hagenda (hwait.mpr h),
      fun hagenda hidle hbout hsout => step_of_hostReady hagenda (hdrain.mpr ⟨hidle, hbout, hsout⟩)⟩
  · exact fun h => ⟨(step_of_blocked hagenda hblocked).trans (blockedStep_of_no_drain h),
      fun t hstep => (coreTurn_of_coreStep hstep).agenda⟩
  · intro it ch hdrains hbout
    rw [step_of_blocked hagenda hblocked, ← hostTakeBout_of_cons hbout]
    simp [blockedStep, hdrains, hbout]
  · intro it ch hdrains hbout hsout
    rw [step_of_blocked hagenda hblocked, ← hostTakeSout_of_cons hsout]
    simp [blockedStep, hdrains, hbout, hsout]

end Sys2Proof.Machine
end

section
/-! The cost of the code that `BUILD` makes (R145): the weighted path length of a tree as the sum of its
internal counts, those counts as the cost of the greedy merge, and obligations O22 and O23. -/

namespace Sys2Proof.Machine

open Finset

/-! ### Sums -/

/-- The count of a valid node; an entry that is no node counts 0. -/
def nodeWeight (ram : NodeRam) (i : Nat) : Nat :=
  if (nodeAt ram i).valid then (nodeAt ram i).cnt.toNat else 0

theorem internalCounts_eq_sum (ram : NodeRam) :
    internalCounts ram = ∑ i ∈ range 256, nodeWeight ram (257 + i) := rfl

theorem weightedPathLength_eq_sum (f : FreqRam) (len : Nat → Nat) :
    weightedPathLength f len = ∑ x ∈ range 257, (freqAt f x).toNat * len x := rfl

theorem nodeWeight_of_valid {ram : NodeRam} {i : Nat} (h : (nodeAt ram i).valid = true) :
    nodeWeight ram i = (nodeAt ram i).cnt.toNat := if_pos h

/-! ### The weighted path length of a tree -/

section Tree

variable {ram : NodeRam} {root nleaf : Nat} {path : Nat → Bits}

/-- The valid nodes of a tree, without the root. -/
def nonRoots (ram : NodeRam) (root : Nat) : Finset Nat :=
  {i ∈ range 513 | (nodeAt ram i).valid = true ∧ i ≠ root}

/-- The valid internal nodes. -/
def internals (ram : NodeRam) : Finset Nat := {i ∈ Ico 257 513 | (nodeAt ram i).valid = true}

theorem mem_internals {i : Nat} :
    i ∈ internals ram ↔ 257 ≤ i ∧ (nodeAt ram i).valid = true := by
  simp only [internals, mem_filter, mem_Ico]
  exact ⟨fun h => ⟨h.1.1, h.2⟩, fun h => ⟨⟨h.1, lt_of_nodeAt_valid h.2⟩, h.2⟩⟩

theorem mem_nonRoots {i : Nat} : i ∈ nonRoots ram root ↔ (nodeAt ram i).valid = true ∧ i ≠ root := by
  simp only [nonRoots, mem_filter, mem_range]
  exact ⟨fun h => h.2, fun h => ⟨lt_of_nodeAt_valid h.1, h⟩⟩

/-- Every node but the root is one child of one internal node, so a sum over the children of the internal
nodes is a sum over the nodes but the root (R45). -/
theorem TreeOk.sum_children (h : TreeOk ram root nleaf) (g : Nat → Nat) :
    ∑ i ∈ internals ram, (g (childAt ram i false) + g (childAt ram i true)) =
      ∑ j ∈ nonRoots ram root, g j := by
  have hpairs : ∑ i ∈ internals ram, (g (childAt ram i false) + g (childAt ram i true)) =
      ∑ x ∈ internals ram ×ˢ (univ : Finset Bool), g (childAt ram x.1 x.2) := by
    rw [sum_product]
    exact sum_congr rfl fun i _ => by rw [Fintype.sum_bool, Nat.add_comm]
  have hparent : ∀ {i b}, i ∈ internals ram → IsParent ram i (childAt ram i b) := fun {i b} hi => by
    obtain ⟨hge, hv⟩ := mem_internals.mp hi
    exact isParent_iff_childAt.mpr ⟨⟨hge, lt_of_nodeAt_valid hv, hv⟩, b, rfl⟩
  rw [hpairs]
  refine sum_nbij (fun x => childAt ram x.1 x.2) ?_ ?_ ?_ fun _ _ => rfl
  · rintro ⟨i, b⟩ hx
    obtain ⟨hi, -⟩ := mem_product.mp hx
    obtain ⟨hge, hv⟩ := mem_internals.mp hi
    refine mem_nonRoots.mpr ⟨(h.childAt_spec hv hge b).2, fun hroot => h.rootNoParent i ?_⟩
    exact hroot ▸ hparent hi
  · rintro ⟨i, b⟩ hx ⟨j, c⟩ hy (heq : childAt ram i b = childAt ram j c)
    obtain ⟨hi, -⟩ := mem_product.mp hx
    obtain ⟨hj, -⟩ := mem_product.mp hy
    obtain rfl := h.parent_unique (hparent (b := b) hi) (heq ▸ hparent hj)
    obtain ⟨hge, hv⟩ := mem_internals.mp hi
    rw [h.childAt_inj hv hge heq]
  · rintro j hj
    obtain ⟨hv, hne⟩ := mem_nonRoots.mp hj
    obtain ⟨i, hi, -⟩ := h.oneParent j (lt_of_nodeAt_valid hv) hv hne
    obtain ⟨⟨hge, -, hvi⟩, b, rfl⟩ := isParent_iff_childAt.mp hi
    exact ⟨(i, b), by simp [mem_internals.mpr ⟨hge, hvi⟩], rfl⟩

/-- R145: in a tree whose counts add up, each count is paid once per level. -/
theorem TreeOk.sum_leaves_eq (h : TreeOk ram root nleaf)
    (hcnt : ∀ i ∈ internals ram, (nodeAt ram i).cnt.toNat =
      (nodeAt ram (childAt ram i false)).cnt.toNat + (nodeAt ram (childAt ram i true)).cnt.toNat)
    (hpath : ∀ i, (nodeAt ram i).valid = true → follow ram root (path i) = some i) :
    ∑ x ∈ range 257, nodeWeight ram x * (path x).length = internalCounts ram := by
  -- both sides of `sum_children` for the count of a node times its depth
  have hchild : ∀ i ∈ internals ram, ∀ b,
      nodeWeight ram (childAt ram i b) * (path (childAt ram i b)).length =
        (nodeAt ram (childAt ram i b)).cnt.toNat * ((path i).length + 1) := by
    intro i hi b
    obtain ⟨hge, hv⟩ := mem_internals.mp hi
    have hvc := (h.childAt_spec hv hge b).2
    have hstep : follow ram root (path i ++ [b]) = some (childAt ram i b) :=
      follow_concat_eq_some.mpr ⟨i, hpath i hv, (h.sym_eq_marker_iff hv).mpr hge, rfl⟩
    rw [nodeWeight_of_valid hvc, h.path_unique (hpath _ hvc) hstep, List.length_append, List.length_singleton]
  have hinternal : ∀ g : Nat → Nat, ∑ i ∈ internals ram, (nodeAt ram i).cnt.toNat * g i =
      ∑ i ∈ Ico 257 513, nodeWeight ram i * g i := by
    intro g
    rw [internals, sum_filter]
    exact sum_congr rfl fun i _ => by rw [nodeWeight]; split <;> simp
  have hleft : ∑ i ∈ internals ram,
      (nodeWeight ram (childAt ram i false) * (path (childAt ram i false)).length +
        nodeWeight ram (childAt ram i true) * (path (childAt ram i true)).length) =
      ∑ i ∈ Ico 257 513, nodeWeight ram i * (path i).length + internalCounts ram := by
    rw [internalCounts_eq_sum, ← sum_Ico_eq_sum_range (nodeWeight ram) 257 513]
    have hone := hinternal fun _ => 1
    simp only [mul_one] at hone
    rw [← hinternal, ← hone, ← sum_add_distrib]
    refine sum_congr rfl fun i hi => ?_
    rw [hchild i hi false, hchild i hi true, hcnt i hi]
    ring
  have hroot : path root = [] := h.path_unique (hpath root h.rootValid) (follow_nil ram root)
  have hright : ∑ j ∈ nonRoots ram root, nodeWeight ram j * (path j).length =
      ∑ j ∈ range 513, nodeWeight ram j * (path j).length := by
    rw [nonRoots, sum_filter]
    refine sum_congr rfl fun j _ => ?_
    by_cases hj : j = root
    · simp [hj, hroot]
    · by_cases hv : (nodeAt ram j).valid = true <;> simp [hj, hv, nodeWeight]
  have hsum := h.sum_children fun j => nodeWeight ram j * (path j).length
  rw [hleft, hright, ← sum_range_add_sum_Ico _ (show 257 ≤ 513 by decide)] at hsum
  omega

end Tree

/-! ### The greedy merge -/

section Merge

variable {f : FreqRam} {ram : NodeRam} {k a b : Nat} {q rest : List Nat}

/-- The counts of the nodes in the queue. -/
def queueWeights (ram : NodeRam) (q : List Nat) : Multiset Nat :=
  (q : Multiset Nat).map (fun i => (nodeAt ram i).cnt.toNat)

@[simp] theorem queueWeights_cons (ram : NodeRam) (c : Nat) (q : List Nat) :
    queueWeights ram (c :: q) = (nodeAt ram c).cnt.toNat ::ₘ queueWeights ram q := by
  simp [queueWeights]

theorem queueWeights_perm {q' : List Nat} (h : q.Perm q') : queueWeights ram q = queueWeights ram q' := by
  rw [queueWeights, queueWeights, Multiset.coe_eq_coe.mpr h]

theorem queueWeights_congr {ram' : NodeRam} (h : ∀ c ∈ q, nodeAt ram c = nodeAt ram' c) :
    queueWeights ram q = queueWeights ram' q :=
  Multiset.map_congr rfl fun c hc => by rw [h c (Multiset.mem_coe.mp hc)]

theorem cnt_le_of_nodeKey_lt (h : nodeKey ram a < nodeKey ram b) :
    (nodeAt ram a).cnt.toNat ≤ (nodeAt ram b).cnt.toNat := by
  rw [nodeKey, nodeKey, Prod.Lex.toLex_lt_toLex] at h
  omega

/-- The node of a merge adds its count to the internal counts. -/
theorem Forest.internalCounts_step (hF : Forest f ram k q) (hpop : PopsTwo ram q a b rest) :
    internalCounts (mergedRam ram k a b) =
      internalCounts ram + ((nodeAt ram a).cnt.toNat + (nodeAt ram b).cnt.toNat) := by
  have hk := hF.slot_lt hpop
  have hslot : ∀ i, nodeWeight (mergedRam ram k a b) (257 + i) = nodeWeight ram (257 + i) +
      if i = k then (nodeAt ram a).cnt.toNat + (nodeAt ram b).cnt.toNat else 0 := by
    intro i
    by_cases hi : i = k
    · have hsum := hF.queueSum_pops hpop
      rw [hi, nodeWeight, nodeAt_mergedRam_new hk, if_pos mergeNode_valid, mergeNode_cnt (f := f) (by omega),
        nodeWeight, hF.slot_free, if_pos rfl]
      simp
    · rw [nodeWeight, nodeAt_mergedRam_of_ne hk (by omega), if_neg hi, nodeWeight, Nat.add_zero]
  rw [internalCounts_eq_sum, internalCounts_eq_sum, sum_congr rfl fun i _ => hslot i, sum_add_distrib,
    sum_ite_eq' (range 256) k, if_pos (mem_range.mpr hk)]

/-- The counts in the queue after a merge: the two smallest are replaced by their sum. -/
theorem Forest.queueWeights_step (hF : Forest f ram k q) (hpop : PopsTwo ram q a b rest) :
    queueWeights (mergedRam ram k a b) ((257 + k) :: rest) =
      ((nodeAt ram a).cnt.toNat + (nodeAt ram b).cnt.toNat) ::ₘ queueWeights ram rest := by
  have hk := hF.slot_lt hpop
  have hsum := hF.queueSum_pops hpop
  have hrest : queueWeights (mergedRam ram k a b) rest = queueWeights ram rest :=
    queueWeights_congr fun c hc => hF.keeps hk c (hF.queued c ((hF.mem_iff hpop).mpr (by simp [hc])))
  rw [queueWeights_cons, nodeAt_mergedRam_new hk, mergeNode_cnt (f := f) (by omega), hrest]

/-- The loop merges greedily, and the internal counts are what that costs (R130, R145). -/
theorem Forest.exists_greedy (fuel : Nat) (hF : Forest f ram k q) (hfuel : q.length ≤ fuel + 1) :
    ∃ c, Huffman.Greedy (queueWeights ram q) c ∧
      internalCounts (mergeLoop fuel k ram q).1 = internalCounts ram + c := by
  induction fuel generalizing ram k q with
  | zero =>
    obtain rfl | ⟨a, b, rest, hpop⟩ := hF.queue_cases
    · exact ⟨0, .one _, by rw [mergeLoop_singleton, Nat.add_zero]⟩
    · have hlen := (hF.perm hpop).length_eq
      simp only [List.length_cons] at hlen
      omega
  | succ fuel ih =>
    obtain rfl | ⟨a, b, rest, hpop⟩ := hF.queue_cases
    · exact ⟨0, .one _, by rw [mergeLoop_singleton, Nat.add_zero]⟩
    · obtain ⟨hperm, hab, hrest⟩ := hpop.smallest hF.nodup
      have hlen := hperm.length_eq
      simp only [List.length_cons] at hlen
      obtain ⟨c, hgreedy, hcounts⟩ := ih (hF.step hpop) (by simp only [List.length_cons]; omega)
      rw [hF.queueWeights_step hpop] at hgreedy
      refine ⟨(nodeAt ram a).cnt.toNat + (nodeAt ram b).cnt.toNat + c, ?_, ?_⟩
      · rw [queueWeights_perm hperm, queueWeights_cons, queueWeights_cons]
        refine .merge _ _ _ c (cnt_le_of_nodeKey_lt hab) (fun x hx => ?_) hgreedy
        obtain ⟨i, hi, rfl⟩ := Multiset.mem_map.mp hx
        exact cnt_le_of_nodeKey_lt (hrest i (Multiset.mem_coe.mp hi))
      · rw [mergeLoop_of_popsTwo fuel k hpop, ← mergedRam, hcounts, hF.internalCounts_step hpop,
          Nat.add_assoc]

end Merge

/-! ### Any assignment of bit strings -/

/-- The weights and lengths that an assignment gives to the symbols of a table. -/
def weightedLengths (f : FreqRam) (c : Nat → Bits) : Multiset (ℕ × ℕ) :=
  (present f : Multiset Nat).map (fun x => ((freqAt f x).toNat, (c x).length))

/-- Symbols that are not in the table cost nothing. -/
theorem cost_weightedLengths (f : FreqRam) (c : Nat → Bits) :
    Huffman.cost (weightedLengths f c) = weightedPathLength f (fun x => (c x).length) := by
  have hpresent : (present f : Multiset Nat) = ({x ∈ range 257 | freqAt f x ≠ 0} : Finset Nat).val := by
    refine congrArg _ (List.filter_congr fun x _ => ?_)
    rw [Bool.eq_iff_iff, bne_iff_ne, decide_eq_true_iff]
  rw [Huffman.cost, weightedLengths, Multiset.map_map, hpresent, weightedPathLength_eq_sum]
  refine sum_filter_of_ne fun x _ hx hfreq => hx ?_
  simp [hfreq]

/-- Bit strings of which none begins another satisfy Kraft's inequality (R145). -/
theorem kraft_weightedLengths_le {f : FreqRam} {c : Nat → Bits} (hc : PrefixFreeOver f c) :
    Huffman.kraft (weightedLengths f c) ≤ 1 := by
  have hlen : ∀ w ∈ (present f).map c, w.length ≤ ((present f).map fun x => (c x).length).sum := by
    intro w hw
    obtain ⟨x, hx, rfl⟩ := List.mem_map.mp hw
    exact List.le_sum_of_mem (List.mem_map.mpr ⟨x, hx, rfl⟩)
  have hpair : ((present f).map c).Pairwise (fun v w => ¬ v <+: w ∧ ¬ w <+: v) := by
    refine List.pairwise_map.mpr ((present_nodup f).pairwise_of_forall_ne fun x hx y hy hne => ?_)
    obtain ⟨hx, hfx⟩ := mem_present.mp hx
    obtain ⟨hy, hfy⟩ := mem_present.mp hy
    exact ⟨hc x y hx hy hne hfx hfy, hc y x hy hx hne.symm hfy hfx⟩
  have hkraft := Huffman.kraft_le_one _ _ hlen hpair
  rw [Huffman.kraft, weightedLengths, Multiset.map_map, Multiset.map_coe, Multiset.sum_coe]
  rwa [List.map_map] at hkraft

/-! ### The code of a built tree -/

section Built

variable {f : FreqRam} {ram ram' : NodeRam} {k : Nat} {rom : CodeRom}

/-- The code lengths of a built tree cost its internal counts (R145). -/
theorem Forest.weightedPathLength_eq (hF : Forest f ram k [256 + k]) (heof : freqAt f 256 ≠ 0)
    (hmap : MapOfTree ram (256 + k) rom) :
    weightedPathLength f (fun x => (codeAt rom x).len.toNat) = internalCounts ram := by
  have htree := hF.treeOk heof
  choose! path hpath using fun i (hv : (nodeAt ram i).valid = true) => htree.exists_path hv
  rw [weightedPathLength_eq_sum, ← htree.sum_leaves_eq (fun i hi => ?_) hpath]
  · refine sum_congr rfl fun x hx => ?_
    have hx := mem_range.mp hx
    by_cases hv : (nodeAt ram x).valid = true
    · have hp := hpath x hv
      rw [nodeWeight_of_valid hv, hF.leaf_of_valid hx hv, leafNode_cnt_toNat, hmap.leaf x _ hx hp,
        pathEntry_len (htree.length_le_256 hp)]
    · have hfreq : freqAt f x = 0 := not_not.mp (mt (hF.leaf_valid_iff hx).mpr hv)
      rw [nodeWeight, if_neg hv, hfreq]
      simp
  · obtain ⟨hge, hv⟩ := mem_internals.mp hi
    exact (hF.internal_cnt hge hv).1

/-- No such assignment costs less than the internal counts of the tree that `BUILD` makes (R145). -/
theorem internalCounts_buildTree_le (hram : ∀ i, (nodeAt ram i).valid = false) (heof : freqAt f 256 ≠ 0)
    {c : Nat → Bits} (hc : PrefixFreeOver f c) :
    internalCounts (buildTree f ram).1 ≤ weightedPathLength f (fun x => (c x).length) := by
  obtain ⟨g, hgreedy, hcounts⟩ := (forest_leafRam hram heof).exists_greedy 256 (present_length_le f)
  have hstart : internalCounts (leafRam f ram) = 0 := by
    rw [internalCounts_eq_sum]
    refine sum_eq_zero fun i _ => if_neg fun hv => ?_
    have := (mem_present.mp ((leafRam_valid_iff hram).mp hv)).1
    omega
  have hweights : (weightedLengths f c).map Prod.fst = queueWeights (leafRam f ram) (present f) := by
    rw [weightedLengths, Multiset.map_map, queueWeights]
    refine Multiset.map_congr rfl fun x hx => ?_
    rw [nodeAt_leafRam, if_pos (Multiset.mem_coe.mp hx), leafNode_cnt_toNat]
    rfl
  rw [buildTree_eq, hcounts, hstart, Nat.zero_add, ← cost_weightedLengths]
  exact Huffman.greedy_le hgreedy _ hweights (kraft_weightedLengths_le hc)

end Built

/-- Settles O22: over the tree that the completion makes, the walk makes its map, whose lengths are depths. -/
theorem weightedPathLengthIsTheSumOfCounts : Obligations.WeightedPathLengthIsTheSumOfCounts := by
  intro s hactive hnone heof
  obtain ⟨ram, k, -, hF, hstep⟩ := Buildable.exists_coreStep_eq ⟨hactive, hnone, heof⟩
  obtain ⟨rom, hgen, hmap⟩ := (hF.treeOk heof).exists_genMap_eq
  have hroot : (built s ram k).root.toNat = 256 + k := hF.root_toNat
  exact ⟨_, rom, hstep, by rw [hroot]; exact hgen, hF.weightedPathLength_eq heof hmap⟩

/-- Settles O23: the lengths cost the internal counts, those are the cost of the greedy merge, and that is
optimal among all lengths with Kraft's inequality. -/
theorem buildIsOptimal : Obligations.BuildIsOptimal := by
  intro s hactive hnone heof
  obtain ⟨ram, k, htree, hF, hstep⟩ := Buildable.exists_coreStep_eq ⟨hactive, hnone, heof⟩
  obtain ⟨rom, hgen, hmap⟩ := (hF.treeOk heof).exists_genMap_eq
  have hroot : (built s ram k).root.toNat = 256 + k := hF.root_toNat
  refine ⟨_, rom, hstep, by rw [hroot]; exact hgen, fun c hc => ?_⟩
  have hle := internalCounts_buildTree_le hnone heof hc
  rw [htree] at hle
  rwa [hF.weightedPathLength_eq heof hmap]

end Sys2Proof.Machine
end

section
/-! Runs of the machine with no host move to come (R69): the reachability they give, an encode session from
any of its states to its end (R180 to R183), and obligation O33. -/

namespace Sys2Proof.Machine

/-! ### Runs -/

/-- Some number of steps leads from `s` to `t`. -/
def Reaches (s t : State) : Prop := Relation.ReflTransGen (fun u v => step u = .next v) s t

theorem core_run_succ {s u : State} (hstep : step s = .next u) (k : Nat) :
    Sys2Proof.core.run (k + 1) s = Sys2Proof.core.run k u := by
  have hstep : Sys2Proof.core.step s = .next u := hstep
  simp only [Host.Core.run, hstep]

theorem Reaches.exists_run {s t : State} (h : Reaches s t) : ∃ k, Sys2Proof.core.run k s = .next t := by
  induction h using Relation.ReflTransGen.head_induction_on with
  | refl => exact ⟨0, rfl⟩
  | head hstep _ ih =>
    obtain ⟨k, hk⟩ := ih
    exact ⟨k + 1, (core_run_succ hstep k).trans hk⟩

/-- With no host move to come, a step is a turn of the core (log 1). -/
theorem step_of_no_agenda {s : State} (hagenda : s.agenda = []) : step s = coreStep s := by
  rw [step, machineStep, hagenda]

theorem Reaches.turn {s u t : State} (hagenda : s.agenda = []) (hturn : coreStep s = .next u)
    (h : Reaches u t) : Reaches s t :=
  .head ((step_of_no_agenda hagenda).trans hturn) h

/-! ### The turns of an encode session with room on `BOUT` -/

/-- An encode session that nothing disturbs: no host move to come and no end of `BOUT`; in counting mode it
holds no bits (R177). -/
structure FreeEncode (s : State) : Prop where
  active : s.active = .encode
  agenda : s.agenda = []
  depth : s.chDepth = .unbounded
  counting : s.eSink = false → s.ebuf = []

theorem canAccept_of_unbounded {d : ChDepth} (h : d = .unbounded) (ch : List Item) :
    canAccept d ch = true := by
  rw [h]
  rfl

section Encode

variable {s : State}

theorem FreeEncode.sink (h : FreeEncode s) (hne : s.ebuf ≠ []) : s.eSink = true :=
  Bool.eq_true_of_not_eq_false fun hsink => hne (h.counting hsink)

/-- The state after a byte has been put (R174, R175). -/
def afterPut (s : State) : State :=
  { s with bout := s.bout ++ [byteItem (packedByte s)], ebuf := s.ebuf.drop 8 }

theorem FreeEncode.keeps_put (h : FreeEncode s) : FreeEncode (afterPut s) where
  active := h.active
  agenda := h.agenda
  depth := h.depth
  counting hsink := by
    show s.ebuf.drop 8 = []
    rw [h.counting hsink, List.drop_nil]

theorem FreeEncode.coreStep_put (h : FreeEncode s)
    (hbits : 8 ≤ s.ebuf.length ∨ (s.efin = true ∧ s.ebuf ≠ [])) : coreStep s = .next (afterPut s) := by
  have hne : s.ebuf ≠ [] := by
    obtain hfull | ⟨-, hne⟩ := hbits
    · exact List.ne_nil_of_length_pos (by omega)
    · exact hne
  have hready : fullByteReady s = true ∨ lastByteReady s = true := by
    rw [fullByteReady_iff, lastByteReady_iff]
    obtain hshort | hfull := Nat.lt_or_ge s.ebuf.length 8
    · obtain hfull | ⟨hefin, -⟩ := hbits
      · omega
      · exact .inr ⟨h.active, h.sink hne, hefin, List.length_pos_iff.mpr hne, hshort⟩
    · exact .inl ⟨h.active, h.sink hne, hfull⟩
  rw [coreStep_of_encodeStep h.active (encodeStep_of_byteReady hready)]
  exact exec_boutByte_of_byteReady hready (canAccept_of_unbounded h.depth _)

/-- The items that a session in this state still puts, if `more` are the bits it still takes (R90, R176). -/
def pendingItems (s : State) (more : Bits) : List Item :=
  if s.eSink then (packStream (s.ebuf ++ more) s.eOrd).map byteItem ++ [endItem] else []

/-- The end of a session that takes `more` bits in `n` bytes and leaves `rest` on `SIN` (R180, R183). -/
def sessionEnd (s : State) (more : Bits) (n : Nat) (rest : List Item) : State :=
  { s with
    sin := rest, bout := s.bout ++ pendingItems s more, ebuf := [], efin := true
    active := .idle, done := true
    encBitCnt := s.encBitCnt + BitVec.ofNat 64 more.length, encSymCnt := s.encSymCnt + BitVec.ofNat 64 n }

/-- Putting a byte does not change where the session ends. -/
theorem sessionEnd_afterPut (hsink : s.eSink = true) (more : Bits) (n : Nat) (rest : List Item)
    (hbits : 8 ≤ s.ebuf.length ∨ (more = [] ∧ s.ebuf ≠ [])) :
    sessionEnd (afterPut s) more n rest = sessionEnd s more n rest := by
  have hne : s.ebuf ++ more ≠ [] := by
    obtain hfull | ⟨-, hne⟩ := hbits
    · exact List.append_ne_nil_of_left_ne_nil (List.ne_nil_of_length_pos (by omega)) _
    · exact List.append_ne_nil_of_left_ne_nil hne _
  have hcut : (s.ebuf ++ more).take 8 = s.ebuf.take 8 ∧
      (s.ebuf ++ more).drop 8 = s.ebuf.drop 8 ++ more := by
    obtain hfull | ⟨rfl, -⟩ := hbits
    · exact ⟨List.take_append_of_le_length hfull, List.drop_append_of_le_length hfull⟩
    · simp
  have hitems : (afterPut s).bout ++ pendingItems (afterPut s) more = s.bout ++ pendingItems s more := by
    rw [pendingItems, pendingItems, if_pos hsink, if_pos (show (afterPut s).eSink = true from hsink),
      packStream_of_ne_nil hne, hcut.1, hcut.2]
    simp [afterPut, packedByte]
  rw [sessionEnd, hitems, sessionEnd]
  rfl

/-- With nothing left to put, the close is where the session ends (R176, R177). -/
theorem FreeEncode.coreStep_close (h : FreeEncode s) (hefin : s.efin = true) (hempty : s.ebuf = []) :
    coreStep s = .next (sessionEnd s [] 0 s.sin) := by
  have hclose : closeReady s = true :=
    closeReady_iff.mpr ⟨h.active, hefin, hempty, fun _ => canAccept_of_unbounded h.depth _⟩
  have hitems : s.bout ++ pendingItems s [] = if s.eSink then s.bout ++ [endItem] else s.bout := by
    rw [pendingItems, hempty]
    split <;> simp
  rw [coreStep_of_encodeStep h.active (encodeStep_of_close hefin hempty), exec_boutEnd_of_ready hclose,
    sessionEnd, hitems]
  simp [hefin, hempty]

/-- After `END` the session puts what it holds and closes (R175, R176, R183). -/
theorem FreeEncode.reaches_of_efin (h : FreeEncode s) (hefin : s.efin = true) :
    Reaches s (sessionEnd s [] 0 s.sin) := by
  induction hn : s.ebuf.length using Nat.strong_induction_on generalizing s with
  | _ n ih =>
    by_cases hempty : s.ebuf = []
    · exact .turn h.agenda (h.coreStep_close hefin hempty) .refl
    · have hpos := List.length_pos_iff.mpr hempty
      rw [← sessionEnd_afterPut (h.sink hempty) [] 0 s.sin (.inr ⟨rfl, hempty⟩)]
      refine .turn h.agenda (h.coreStep_put (.inr ⟨hefin, hempty⟩)) ?_
      exact ih _ (by simp only [afterPut, List.length_drop]; omega) h.keeps_put hefin rfl

/-! ### Taking symbols -/

/-- Taking a symbol moves its code from the bits to come to `EBUF`: the session ends where it did. -/
theorem sessionEnd_appendCode (s : State) (x : Nat) (more : Bits) (n : Nat) (rest : List Item) :
    sessionEnd (appendCode x s) more n rest =
      sessionEnd s (codeString (codeAt s.code x) ++ more) n rest := by
  have hitems : pendingItems (appendCode x s) more =
      pendingItems s (codeString (codeAt s.code x) ++ more) := by
    by_cases hsink : s.eSink = true
    · simp [pendingItems, hsink]
    · simp [pendingItems, hsink]
  have hcnt : (appendCode x s).encBitCnt + BitVec.ofNat 64 more.length =
      s.encBitCnt + BitVec.ofNat 64 (codeString (codeAt s.code x) ++ more).length := by
    rw [appendCode_encBitCnt, List.length_append, codeString_length, BitVec.ofNat_add, BitVec.ofNat_toNat,
      BitVec.add_assoc]
  rw [sessionEnd, hitems, hcnt, sessionEnd]
  rfl

theorem FreeEncode.keeps_appendCode (h : FreeEncode s) (x : Nat) : FreeEncode (appendCode x s) where
  active := h.active
  agenda := h.agenda
  depth := h.depth
  counting hsink := (if_neg (ne_true_of_eq_false hsink)).trans (h.counting hsink)

/-- R172 for a byte that has a code. -/
theorem FreeEncode.coreStep_byte (h : FreeEncode s) (hefin : s.efin = false) (hroom : s.ebuf.length < 8)
    {v : Byte} {rest : List Item} (hsin : s.sin = byteItem v :: rest)
    (hcode : (codeAt s.code v.toNat).valid = true) :
    coreStep s = .next { appendCode v.toNat { s with sin := rest } with encSymCnt := s.encSymCnt + 1 } := by
  have htakes : encTakes s = true := encTakes_iff.mpr ⟨h.active, hefin, hroom⟩
  have hstep : encodeStep s = some (.sinByte (itemData (byteItem v))) := by
    rw [encodeStep_of_item htakes hsin, decodeItem.eq_def, itemEnd_byteItem]
  rw [coreStep_of_encodeStep h.active hstep, exec_sinByte_of_takes htakes hsin (itemEnd_byteItem v),
    itemData_byteItem, encodeByte_of_code hsin hcode]
  rfl

/-- R173. -/
theorem FreeEncode.coreStep_end (h : FreeEncode s) (hefin : s.efin = false) (hroom : s.ebuf.length < 8)
    {it : Item} {rest : List Item} (hsin : s.sin = it :: rest) (hend : itemEnd it = true) :
    coreStep s = .next { appendCode 256 { s with sin := rest } with efin := true } := by
  have htakes : encTakes s = true := encTakes_iff.mpr ⟨h.active, hefin, hroom⟩
  have hstep : encodeStep s = some .sinEnd := by
    rw [encodeStep_of_item htakes hsin, decodeItem.eq_def, hend]
  rw [coreStep_of_encodeStep h.active hstep, exec_sinEnd_of_takes htakes hsin hend]

/-- Taking a byte moves its code as any symbol's, and counts it. -/
theorem sessionEnd_takeByte (s : State) (v : Byte) (bytes : List Byte) (rest' rest : List Item) :
    sessionEnd { appendCode v.toNat { s with sin := rest' } with encSymCnt := s.encSymCnt + 1 }
        (encodedBits s.code bytes) bytes.length rest =
      sessionEnd s (encodedBits s.code (v :: bytes)) (v :: bytes).length rest := by
  have htaken := sessionEnd_appendCode { s with sin := rest', encSymCnt := s.encSymCnt + 1 } v.toNat
    (encodedBits s.code bytes) bytes.length rest
  have hbits : encodedBits s.code (v :: bytes) =
      codeString (codeAt s.code v.toNat) ++ encodedBits s.code bytes := by
    simp [encodedBits]
  have hcnt : s.encSymCnt + 1 + BitVec.ofNat 64 bytes.length =
      s.encSymCnt + BitVec.ofNat 64 (v :: bytes).length := by
    rw [List.length_cons, Nat.add_comm, BitVec.ofNat_add, BitVec.add_assoc]
    rfl
  refine htaken.trans ?_
  rw [hbits, sessionEnd, sessionEnd, hcnt]
  rfl

/-- An encode session whose bytes have codes ends with the packed Encoded Bit Sequence put (R180, R183). -/
theorem FreeEncode.reaches_end {s : State} (h : FreeEncode s) (hefin : s.efin = false) {bytes : List Byte}
    {it : Item} {rest : List Item} (hsin : s.sin = bytes.map byteItem ++ it :: rest)
    (hend : itemEnd it = true) (hcodes : ∀ v ∈ bytes, (codeAt s.code v.toNat).valid = true) :
    Reaches s (sessionEnd s (encodedBits s.code bytes) bytes.length rest) := by
  by_cases hfull : 8 ≤ s.ebuf.length
  · have hne : s.ebuf ≠ [] := List.ne_nil_of_length_pos (by omega)
    rw [← sessionEnd_afterPut (h.sink hne) _ _ _ (.inl hfull)]
    exact .turn h.agenda (h.coreStep_put (.inl hfull)) (h.keeps_put.reaches_end hefin hsin hend hcodes)
  · have hroom := not_le.mp hfull
    match bytes, hsin, hcodes with
    | [], hsin, _ =>
      have hs : FreeEncode { s with sin := rest } := ⟨h.active, h.agenda, h.depth, h.counting⟩
      have htaken := sessionEnd_appendCode { s with sin := rest } 256 [] 0 rest
      have hall : FreeEncode { appendCode 256 { s with sin := rest } with efin := true } :=
        ⟨h.active, h.agenda, h.depth, (hs.keeps_appendCode 256).counting⟩
      rw [List.append_nil] at htaken
      exact .turn h.agenda (h.coreStep_end hefin hroom hsin hend) (htaken ▸ hall.reaches_of_efin rfl)
    | v :: bytes, hsin, hcodes =>
      obtain ⟨hcode, hcodes⟩ := List.forall_mem_cons.mp hcodes
      have hs : FreeEncode { s with sin := bytes.map byteItem ++ it :: rest } :=
        ⟨h.active, h.agenda, h.depth, h.counting⟩
      have htaken : FreeEncode
          { appendCode v.toNat { s with sin := bytes.map byteItem ++ it :: rest } with
            encSymCnt := s.encSymCnt + 1 } :=
        ⟨h.active, h.agenda, h.depth, (hs.keeps_appendCode v.toNat).counting⟩
      rw [← sessionEnd_takeByte s v bytes (bytes.map byteItem ++ it :: rest) rest]
      exact .turn h.agenda (h.coreStep_byte hefin hroom hsin hcode)
        (htaken.reaches_end hefin rfl hend hcodes)
termination_by (bytes.length, s.ebuf.length)
decreasing_by
  · have hshorter : (afterPut s).ebuf.length < s.ebuf.length := by
      simp only [afterPut, List.length_drop]
      omega
    exact Prod.Lex.right _ hshorter
  · exact Prod.Lex.left _ _ (Nat.lt_succ_self _)

end Encode

/-- Settles O33: the session's start holds no bits, so its end is that of the packed sequence alone. -/
theorem encodeSessionOutput : Obligations.EncodeSessionOutput := by
  intro s bytes it rest hactive hefin hempty hbits hsyms hagenda hdepth hsin hend hcodes
  have hfree : FreeEncode s := ⟨hactive, hagenda, hdepth, fun _ => hempty⟩
  obtain ⟨k, hk⟩ := (hfree.reaches_end hefin hsin hend hcodes).exists_run
  refine ⟨k, _, hk, rfl, rfl, rfl, rfl, ?_, ?_, ?_⟩
  · simp only [sessionEnd, pendingItems, hempty, List.nil_append]
    split <;> simp
  · simp [sessionEnd, hbits]
  · simp [sessionEnd, hsyms]

end Sys2Proof.Machine
end

section
/-! A decode session over a tree (R213): the bits that an input channel gives, what a session does with the
bits of a path and of a code, its end, and obligations O41 and O42. -/

namespace Sys2Proof.Machine

/-! ### The bits to come -/

/-- `bin` holds bytes before `rest`, and with `dbuf` before them they unpack to `bits` (R88, R204). -/
def Feeds (ord : Bool) (bin : List Item) (dbuf bits : Bits) (rest : List Item) : Prop :=
  ∃ bytes : List Byte, bin = bytes.map byteItem ++ rest ∧ dbuf ++ unpackStream bytes ord = bits

section Feeds

variable {ord : Bool} {bin rest : List Item} {dbuf bits : Bits}

theorem Feeds.of_cons {b c : Bool} (h : Feeds ord bin (c :: dbuf) (b :: bits) rest) :
    c = b ∧ Feeds ord bin dbuf bits rest := by
  obtain ⟨bytes, hbin, hbits⟩ := h
  obtain ⟨hhead, htail⟩ := List.cons.inj hbits
  exact ⟨hhead, bytes, hbin, htail⟩

/-- Where a bit is to come and none is at hand, the next item is a byte that holds it. -/
theorem Feeds.exists_byte {b : Bool} (h : Feeds ord bin [] (b :: bits) rest) :
    ∃ v bin', bin = byteItem v :: bin' ∧ Feeds ord bin' (unpack v ord) (b :: bits) rest := by
  obtain ⟨bytes, rfl, hbits⟩ := h
  cases bytes with
  | nil => cases hbits
  | cons v bytes => exact ⟨v, bytes.map byteItem ++ rest, rfl, bytes, rfl, hbits⟩

/-- With less than a byte to come, every byte has been taken (R209). -/
theorem Feeds.bin_eq (h : Feeds ord bin dbuf bits rest) (hlen : bits.length < 8) : bin = rest := by
  obtain ⟨bytes, rfl, rfl⟩ := h
  rw [List.length_append, unpackStream_length] at hlen
  have hnone : bytes = [] := List.eq_nil_of_length_eq_zero (by omega)
  rw [hnone]
  rfl

end Feeds

/-! ### The turns of a decode session with room on `SOUT` -/

/-- A decode session over a tree that nothing disturbs: no host move to come and no end of `SOUT`. -/
structure FreeDecode (s : State) : Prop where
  active : s.active = .decode
  agenda : s.agenda = []
  depth : s.chDepth = .unbounded
  tree : TreeOk s.node s.root.toNat s.nleaf.toNat

/-- The session has consumed `n` bits and stands at node `cur`. -/
def afterBits (s : State) (bin : List Item) (dbuf : Bits) (n : Nat) (cur : BitVec 10) : State :=
  { s with bin := bin, dbuf := dbuf, decBitCnt := s.decBitCnt + BitVec.ofNat 64 n, decCur := cur }

theorem afterBits_zero (s : State) : afterBits s s.bin s.dbuf 0 s.decCur = s := by
  rw [afterBits, BitVec.add_zero]

theorem afterBits_afterBits (s : State) (bin bin' : List Item) (dbuf dbuf' : Bits) (m n : Nat)
    (cur cur' : BitVec 10) :
    afterBits (afterBits s bin dbuf m cur) bin' dbuf' n cur' = afterBits s bin' dbuf' (m + n) cur' := by
  rw [afterBits, afterBits, afterBits, BitVec.ofNat_add, ← BitVec.add_assoc]

/-- The end of a session that has consumed `n` bits for the bytes `bytes` and leaves `rest` on `BIN`
(R206, R213). -/
def decodeEnd (s : State) (n : Nat) (bytes : List Byte) (rest : List Item) : State :=
  { s with
    bin := rest, dbuf := [], sout := s.sout ++ bytes.map byteItem ++ [endItem], active := .idle, done := true
    decCur := 256, decBitCnt := s.decBitCnt + BitVec.ofNat 64 n
    decSymCnt := s.decSymCnt + BitVec.ofNat 64 bytes.length }

section Decode

variable {rest : List Item} {more : Bits}

theorem FreeDecode.keeps_bits {s : State} (h : FreeDecode s) (bin : List Item) (dbuf : Bits) (n : Nat)
    (cur : BitVec 10) : FreeDecode (afterBits s bin dbuf n cur) := ⟨h.active, h.agenda, h.depth, h.tree⟩

/-- R205 at an internal node. -/
theorem FreeDecode.coreStep_bit {s : State} (h : FreeDecode s) (hv : (curNode s).valid = true)
    (hsym : (curNode s).sym = 257#9) {b : Bool} {dbuf : Bits} (hbuf : s.dbuf = b :: dbuf) :
    coreStep s = .next
      (afterBits s s.bin dbuf 1 (if b then (curNode s).one else (curNode s).zero)) := by
  have hcur : s.decCur.toNat ≤ 512 := Nat.le_of_lt_succ (lt_of_nodeAt_valid hv)
  rw [coreStep_of_bit h.active (decodeStep_of_bit hcur hsym hbuf),
    consumeBit_of_cons (atInternal_iff.mpr ⟨h.active, hsym⟩) hbuf]
  rfl

/-- R204 with a byte. -/
theorem FreeDecode.coreStep_take {s : State} (h : FreeDecode s) (hv : (curNode s).valid = true)
    (hsym : (curNode s).sym = 257#9) (hbuf : s.dbuf = []) {v : Byte} {bin : List Item}
    (hbin : s.bin = byteItem v :: bin) :
    coreStep s = .next { s with bin := bin, dbuf := unpack v s.dOrd } := by
  have hcur : s.decCur.toNat ≤ 512 := Nat.le_of_lt_succ (lt_of_nodeAt_valid hv)
  have hstep : decodeStep s = .channel (.binByte (itemData (byteItem v))) := by
    rw [decodeStep_of_item hcur hsym hbuf hbin, decodeItem.eq_def, itemEnd_byteItem]
  have htakes : decTakes s = true := decTakes_iff.mpr ⟨h.active, hsym, hbuf⟩
  rw [coreStep_of_channel h.active hstep, exec_binByte_of_takes htakes hbin (itemEnd_byteItem v),
    itemData_byteItem]

/-- At an internal node the session consumes the next bit, after taking the byte that holds it where none is
left (R204, R205). -/
theorem FreeDecode.reaches_bit {s : State} (h : FreeDecode s) (hv : (curNode s).valid = true)
    (hsym : (curNode s).sym = 257#9) {b : Bool} (hfeeds : Feeds s.dOrd s.bin s.dbuf (b :: more) rest) :
    ∃ bin dbuf, Feeds s.dOrd bin dbuf more rest ∧
      Reaches s (afterBits s bin dbuf 1 (if b then (curNode s).one else (curNode s).zero)) := by
  cases hbuf : s.dbuf with
  | cons c dbuf =>
    rw [hbuf] at hfeeds
    obtain ⟨rfl, hfed⟩ := hfeeds.of_cons
    exact ⟨s.bin, dbuf, hfed, .turn h.agenda (h.coreStep_bit hv hsym hbuf) .refl⟩
  | nil =>
    rw [hbuf] at hfeeds
    obtain ⟨v, bin, hbin, hfeeds⟩ := hfeeds.exists_byte
    obtain ⟨c, dbuf, hbits⟩ := List.exists_cons_of_length_pos (l := unpack v s.dOrd) (by simp)
    rw [hbits] at hfeeds
    obtain ⟨rfl, hfed⟩ := hfeeds.of_cons
    have htaken : FreeDecode { s with bin := bin, dbuf := unpack v s.dOrd } :=
      ⟨h.active, h.agenda, h.depth, h.tree⟩
    exact ⟨bin, dbuf, hfed, .turn h.agenda (h.coreStep_take hv hsym hbuf hbin)
      (.turn h.agenda (htaken.coreStep_bit hv hsym hbits) .refl)⟩

/-- The session follows a path of the tree, bit by bit (R154, R205). -/
theorem FreeDecode.reaches_path {s : State} (h : FreeDecode s) (hv : (curNode s).valid = true) {p : Bits}
    {j : Nat} (hp : follow s.node s.decCur.toNat p = some j)
    (hfeeds : Feeds s.dOrd s.bin s.dbuf (p ++ more) rest) :
    ∃ bin dbuf cur, cur.toNat = j ∧ Feeds s.dOrd bin dbuf more rest ∧
      Reaches s (afterBits s bin dbuf p.length cur) := by
  induction p generalizing s with
  | nil =>
    refine ⟨s.bin, s.dbuf, s.decCur, Option.some.inj hp, hfeeds, ?_⟩
    rw [List.length_nil, afterBits_zero]
    exact .refl
  | cons b p ih =>
    obtain ⟨hsym, hp⟩ := follow_cons_eq_some.mp hp
    obtain ⟨bin, dbuf, hfed, hbit⟩ := h.reaches_bit hv hsym hfeeds
    have hcur : (if b then (curNode s).one else (curNode s).zero).toNat =
        childAt s.node s.decCur.toNat b := by
      cases b <;> rfl
    have hchild := (h.tree.childAt_spec hv ((h.tree.sym_eq_marker_iff hv).mp hsym) b).2
    obtain ⟨bin', dbuf', cur, hj, hfed', hrest⟩ := ih (h.keeps_bits bin dbuf 1 _)
      (by rw [curNode, afterBits, hcur]; exact hchild)
      (by rw [afterBits, hcur]; exact hp) hfed
    refine ⟨bin', dbuf', cur, hj, hfed', hbit.trans ?_⟩
    rw [afterBits_afterBits, Nat.add_comm] at hrest
    exact hrest

/-! ### Symbols -/

/-- R203 at the leaf of a byte. -/
theorem FreeDecode.coreStep_emit {s : State} (h : FreeDecode s) {v : Byte} (hcur : s.decCur.toNat = v.toNat)
    (hv : (nodeAt s.node v.toNat).valid = true) :
    coreStep s = .next { s with
      sout := s.sout ++ [byteItem v], decSymCnt := s.decSymCnt + 1, decCur := s.root } := by
  have hlt : v.toNat < 256 := v.isLt
  have hsym : (curNode s).sym.toNat = v.toNat := by
    rw [curNode, hcur]
    exact h.tree.sym_toNat_of_leaf hv (by omega)
  have hordinary : (curNode s).sym.toNat < 256 := hsym ▸ hlt
  have hbyte : leafByte s = v := by
    rw [← itemData_byteItem v, ← itemData_byteItem (leafByte s), ← sym_eq_byteItem_leafByte hordinary]
    exact congrArg itemData (BitVec.eq_of_toNat_eq (hsym.trans (byteItem_toNat v).symm))
  rw [coreStep_of_channel h.active (decodeStep_of_symbol (by omega) hordinary),
    exec_soutByte_of_symbol (atSymbol_iff.mpr ⟨h.active, hordinary⟩) (canAccept_of_unbounded h.depth _),
    hbyte]

/-- R206 at leaf 256. -/
theorem FreeDecode.coreStep_eos {s : State} (h : FreeDecode s) (hcur : s.decCur.toNat = 256) :
    coreStep s = .next { s with sout := s.sout ++ [endItem], dbuf := [], active := .idle, done := true } := by
  have hsym : (curNode s).sym = 256#9 := by
    refine BitVec.eq_of_toNat_eq ?_
    rw [curNode, hcur]
    exact h.tree.sym_toNat_of_leaf h.tree.eosLeaf (by omega)
  exact coreStep_of_eos h.active (by omega) hsym (canAccept_of_unbounded h.depth _)

/-- The session emits a byte and ends where the session after it ends. -/
theorem decodeEnd_emit (s : State) (bin : List Item) (dbuf : Bits) (m n : Nat) (cur : BitVec 10) (v : Byte)
    (bytes : List Byte) :
    decodeEnd { afterBits s bin dbuf m cur with
        sout := s.sout ++ [byteItem v], decSymCnt := s.decSymCnt + 1, decCur := s.root } n bytes rest =
      decodeEnd s (m + n) (v :: bytes) rest := by
  have hbits : s.decBitCnt + BitVec.ofNat 64 m + BitVec.ofNat 64 n =
      s.decBitCnt + BitVec.ofNat 64 (m + n) := by
    rw [BitVec.ofNat_add, BitVec.add_assoc]
  have hsyms : s.decSymCnt + 1 + BitVec.ofNat 64 bytes.length =
      s.decSymCnt + BitVec.ofNat 64 (v :: bytes).length := by
    rw [List.length_cons, Nat.add_comm, BitVec.ofNat_add, BitVec.add_assoc]
    rfl
  rw [decodeEnd, decodeEnd, afterBits, hbits, hsyms, List.map_cons, List.append_assoc s.sout,
    List.singleton_append]

/-- A decode session at the root, given the codes of some bytes and less than a byte of padding, puts the
bytes and `END` (R213). -/
theorem FreeDecode.reaches_end {s : State} (h : FreeDecode s) (hroot : s.decCur = s.root) {rom : CodeRom}
    (hmap : MapOfTree s.node s.root.toNat rom) {bytes : List Byte}
    (hcodes : ∀ v ∈ bytes, (codeAt rom v.toNat).valid = true) {pad : Bits} (hpad : pad.length < 8)
    (hfeeds : Feeds s.dOrd s.bin s.dbuf (encodedBits rom bytes ++ pad) rest) :
    Reaches s (decodeEnd s (encodedBits rom bytes).length bytes rest) := by
  have hv : (curNode s).valid = true := by
    rw [curNode, hroot]
    exact h.tree.rootValid
  induction bytes generalizing s with
  | nil =>
    have hpath : follow s.node s.decCur.toNat (encodedBits rom []) = some 256 := by
      rw [hroot]
      exact hmap.follow_codeString h.tree (by omega) h.tree.eosLeaf
    obtain ⟨bin, dbuf, cur, hcur, hfed, hreach⟩ := h.reaches_path hv hpath hfeeds
    have hbin : bin = rest := hfed.bin_eq hpad
    have hlast : cur = 256 := BitVec.eq_of_toNat_eq hcur
    refine hreach.trans (Reaches.turn h.agenda ((h.keeps_bits bin dbuf _ cur).coreStep_eos hcur) ?_)
    rw [decodeEnd, afterBits, hbin, hlast, List.map_nil, List.append_nil, List.length_nil,
      BitVec.add_zero]
    exact .refl
  | cons v bytes ih =>
    obtain ⟨hcode, hcodes⟩ := List.forall_mem_cons.mp hcodes
    have hx : v.toNat < 257 := by omega
    have hleaf : (nodeAt s.node v.toNat).valid = true := (hmap.valid_eq h.tree hx).symm.trans hcode
    have hbits : encodedBits rom (v :: bytes) = codeString (codeAt rom v.toNat) ++ encodedBits rom bytes := by
      simp [encodedBits]
    have hpath : follow s.node s.decCur.toNat (codeString (codeAt rom v.toNat)) = some v.toNat := by
      rw [hroot]
      exact hmap.follow_codeString h.tree hx hleaf
    rw [hbits, List.append_assoc] at hfeeds
    obtain ⟨bin, dbuf, cur, hcur, hfed, hreach⟩ := h.reaches_path hv hpath hfeeds
    have hread := h.keeps_bits bin dbuf (codeString (codeAt rom v.toNat)).length cur
    have hemitted : FreeDecode { afterBits s bin dbuf (codeString (codeAt rom v.toNat)).length cur with
        sout := s.sout ++ [byteItem v], decSymCnt := s.decSymCnt + 1, decCur := s.root } :=
      ⟨h.active, h.agenda, h.depth, h.tree⟩
    have hrest := ih hemitted rfl hmap hcodes hfed h.tree.rootValid
    rw [decodeEnd_emit, ← List.length_append, ← hbits] at hrest
    exact hreach.trans (Reaches.turn h.agenda (hread.coreStep_emit hcur hleaf) hrest)

end Decode

/-- A packed stream at the start of `BIN` feeds its bits and less than a byte of padding (R90). -/
theorem exists_feeds_packStream (bits : Bits) (ord : Bool) (rest : List Item) :
    ∃ pad : Bits, pad.length < 8 ∧
      Feeds ord ((packStream bits ord).map byteItem ++ rest) [] (bits ++ pad) rest := by
  obtain ⟨pad, hpad, hbits⟩ := exists_unpackStream_packStream_eq bits ord
  exact ⟨pad, hpad, packStream bits ord, rfl, hbits⟩

/-- Settles O41: the packed stream feeds the codes, whose paths lead to the leaves of the bytes and to
leaf 256. -/
theorem decodeSessionRecoversTheBytes : Obligations.DecodeSessionRecoversTheBytes := by
  intro s rom bytes rest htree hgen hactive hroot hbuf hbits hsyms hagenda hdepth hcodes hbin
  have hfree : FreeDecode s := ⟨hactive, hagenda, hdepth, htree⟩
  obtain ⟨pad, hpad, hfeeds⟩ := exists_feeds_packStream (encodedBits rom bytes) s.dOrd rest
  rw [← hbin, ← hbuf] at hfeeds
  obtain ⟨k, hk⟩ :=
    (hfree.reaches_end hroot (htree.mapOfTree_of_genMap hgen) hcodes hpad hfeeds).exists_run
  refine ⟨k, _, hk, rfl, rfl, rfl, rfl, rfl, rfl, ?_, ?_⟩
  · simp [decodeEnd, hbits]
  · simp [decodeEnd, hsyms]

/-- Settles O42: the decode session reads what the encode session has put (O33, O41), with the `END` item left
over. -/
theorem roundTrip : Obligations.RoundTrip := by
  intro s d bytes rest htree hgen hactive hefin hempty hsink hbout hbits hsyms hagenda hdepth hsin hcodes
    hactive' hroot hbuf hord hbits' hsyms' hagenda' hdepth' hsout
  obtain ⟨k, t, hk, hidle, hdone, -, -, hput, hencBits, hencSyms⟩ :=
    encodeSessionOutput s bytes endItem rest hactive hefin hempty hbits hsyms hagenda hdepth hsin
      itemEnd_endItem hcodes
  rw [if_pos hsink, hbout, List.nil_append, ← hord] at hput
  obtain ⟨k', u, hk', hidle', hdone', -, -, hgot, -, hdecBits, hdecSyms⟩ :=
    decodeSessionRecoversTheBytes { d with bin := t.bout } s.code bytes [endItem] htree hgen hactive'
      hroot hbuf hbits' hsyms' hagenda' hdepth' hcodes hput
  refine ⟨k, t, hk, hidle, hdone, k', u, hk', hidle', hdone', ?_, hdecBits.trans hencBits.symm,
    hdecSyms.trans hencSyms.symm⟩
  rw [hgot, hsout, List.nil_append]

end Sys2Proof.Machine
end
